-- ==== Sys2Proof/Word.lean ====
section
/-! DEFINITION. The two words of the Veritas CKU: the byte every register, buffer cell and port access
holds (10_state.md R10, 20_memory.md R41), and the 32-bit word of the hash primitive (46_sha256.md). -/

namespace Sys2Proof

/-- A byte (00_scope.md section 5.1): a register, a buffer cell, a character, one port access. -/
abbrev Byte := BitVec 8

/-- A 32-bit word of the hash primitive (46_sha256.md, notation). -/
abbrev Word32 := BitVec 32

/-- A register-port address: 10 bits (20_memory.md R40). Wider addresses cannot be expressed (93 V6). -/
abbrev PortAddr := BitVec 10

end Sys2Proof
end

