-- ==== Sys2Proof/Config.lean ====
section
/-! DEFINITION. What an implementation fixes, and the free values (00_scope.md R6; 93 sections 1 and 3).

The four parameters of R6 are plain data, held in State and never changed by a step (log 4). The
`opaque` constants have no value that any proof can see: each stands for the bytes the spec calls
unspecified and says a model must treat as "any value" (93 U1 to U4; log 8 to 11). -/

namespace Sys2Proof

/-- The reading of MOD 37-36: `pure` is normative, `hybrid` is the recorded alternative
(00_scope.md R6, 92 D22). -/
inductive Iso3736Variant where
  | pure
  | hybrid
  deriving DecidableEq, Repr

/-- The parameters a model takes as arguments (00_scope.md R6, 93 P1 to P4). -/
structure Config where
  /-- IBUF_MAX, the capacity of IBUF in bytes. -/
  ibufMax : Nat
  /-- WBUF_MAX, the capacity of WBUF in bytes. -/
  wbufMax : Nat
  /-- OBUF_MAX, the capacity of OBUF in bytes. -/
  obufMax : Nat
  /-- ISO3736_VARIANT. -/
  iso3736 : Iso3736Variant
  deriving DecidableEq, Repr

/-- The default column of R6 (92 D5, D22). -/
def Config.defaults : Config :=
  { ibufMax := 128, wbufMax := 128, obufMax := 192, iso3736 := .pure }

/-- FREE VALUE. The byte of IBUF or WBUF at port address `addr` that nothing has written since reset
number `resets` (70_reset_and_hazards.md R262, 93 U3 and U4; log 8). -/
opaque Config.unwrittenByte (resets addr : Nat) : Byte

/-- FREE VALUE. The byte of OBUF at port address `addr` that holds no result, after redraw number
`redraws` (10_state.md R19, 40_common_operation.md R90, R99 to R101, 93 U1; log 9). -/
opaque Config.scratchByte (redraws addr : Nat) : Byte

/-- FREE VALUE. What read number `busyReads` of OLEN or OBUF during a flight returns
(20_memory.md R51, 93 U2; log 10). -/
opaque Config.busyByte (busyReads : Nat) : Byte

end Sys2Proof
end

