-- ==== Sys2Proof/Syntax.lean ====
section
/-! DEFINITION. The syntax: the 24 commands of 30_encoding.md R62, one constructor for each row of
spec/opcode_table.json; the error codes of 60_exceptions.md R231; and the accesses of the host (R80)
with the turns of the two agents (00_scope.md R8). -/

namespace Sys2Proof

/-- The command set (30_encoding.md R62). A command has no operand fields (R60): every operand is
implicit in ILEN, IBUF, WLEN and WBUF. -/
inductive Instr where
  /-- LUHN10.C, byte 0x02, strict (R112). -/
  | luhn10C
  /-- LUHN10.V, byte 0x03, permissive (R113). -/
  | luhn10V
  /-- LUHN36.C, byte 0x04, strict (R114). -/
  | luhn36C
  /-- LUHN36.V, byte 0x05, permissive (R115). -/
  | luhn36V
  /-- GS1.C, byte 0x06, strict (R116). -/
  | gs1C
  /-- GS1.V, byte 0x07, permissive (R117). -/
  | gs1V
  /-- WMOD11.C.L, byte 0x08, strict, weights left to right (R121). -/
  | wmod11CL
  /-- WMOD11.V.L, byte 0x09, permissive, weights left to right (R122). -/
  | wmod11VL
  /-- WMOD11.C.R, byte 0x28, strict, weights right to left (R121). -/
  | wmod11CR
  /-- WMOD11.V.R, byte 0x29, permissive, weights right to left (R122). -/
  | wmod11VR
  /-- DAMM.C, byte 0x0A, strict (R143). -/
  | dammC
  /-- DAMM.V, byte 0x0B, permissive (R144). -/
  | dammV
  /-- VERH.C, byte 0x0C, strict (R154). -/
  | verhC
  /-- VERH.V, byte 0x0D, permissive (R155). -/
  | verhV
  /-- ISO97.C, byte 0x0E, strict (R161). -/
  | iso97C
  /-- ISO97.V, byte 0x0F, permissive (R162). -/
  | iso97V
  /-- ISO1110.C, byte 0x10, strict (R164). -/
  | iso1110C
  /-- ISO1110.V, byte 0x11, permissive (R165). -/
  | iso1110V
  /-- ISO112.C, byte 0x12, strict (R167). -/
  | iso112C
  /-- ISO112.V, byte 0x13, permissive (R168). -/
  | iso112V
  /-- ISO3736.C, byte 0x14, strict (R170). -/
  | iso3736C
  /-- ISO3736.V, byte 0x15, permissive (R171). -/
  | iso3736V
  /-- B58C.ENC, byte 0x16, strict (R194). -/
  | b58cEnc
  /-- B58C.DEC, byte 0x17, strict (R198). -/
  | b58cDec
  deriving DecidableEq, Repr

/-- The SCHEME names of 30_encoding.md R61. -/
inductive Scheme where
  | luhn10
  | luhn36
  | gs1
  | wmod11
  | damm
  | verh
  | iso97
  | iso1110
  | iso112
  | iso3736
  | b58c
  deriving DecidableEq, Repr

/-- The error kinds of 60_exceptions.md R231; their numbers are `ecodeOf` in Machine/Flags.lean. -/
inductive ErrorCode where
  /-- E_INVALID_CHAR: a character outside the alphabet of its position (`.C` commands). -/
  | invalidChar
  /-- E_EMPTY: ILEN = 0 (Base58Check commands). -/
  | empty
  /-- E_FORMAT: a character outside ALPHA58 (B58C.DEC). -/
  | format
  /-- E_TOO_SHORT: fewer than 4 decoded bytes (B58C.DEC). -/
  | tooShort
  /-- E_CHECKSUM: the integrity suffix differs (B58C.DEC). -/
  | checksum
  /-- E_LENGTH: ILEN or WLEN beyond capacity, or more payload digits than weights (strict commands). -/
  | length
  /-- E_ILLEGAL_CMD: the command byte is not a command (R64). -/
  | illegalCmd
  deriving DecidableEq, Repr

/-- What the host can do to the unit (30_encoding.md R80): `WR`, `RD` and `RESET`. -/
inductive HostAccess where
  /-- `WR addr, byte`: MemWrite(addr, 1, byte) (20_memory.md R41). -/
  | write (addr : PortAddr) (byte : Byte)
  /-- `RD addr`: MemRead(addr, 1) (20_memory.md R41). -/
  | read (addr : PortAddr)
  /-- `RESET`: the reset input (70_reset_and_hazards.md R260). -/
  | reset
  deriving DecidableEq, Repr

/-- Who moves: the host with one access, or the unit (00_scope.md R8, 20_memory.md R53; log 2). -/
inductive Turn where
  | host (access : HostAccess)
  | unit
  deriving DecidableEq, Repr

end Sys2Proof
end

