-- ==== Sys2Proof/WellFormed.lean ====
section
/-! DEFINITION. Which terms are well formed. A command has no operand field (30_encoding.md R60), so
every term of `Instr` is well formed; what can be ill formed is a configuration, which 00_scope.md R6
constrains and 93 P3 refuses when it breaks the constraint. One definition for each check. -/

namespace Sys2Proof

/-- Every command is well formed: CMD8 carries no immediate, register number or address (R60). -/
abbrev Instr.wf (_ : Instr) : Prop := True

/-- R6: 4 <= IBUF_MAX <= 255. -/
abbrev Config.ibufInRange (c : Config) : Prop := 4 ≤ c.ibufMax ∧ c.ibufMax ≤ 255

/-- R6: 0 <= WBUF_MAX <= 255. -/
abbrev Config.wbufInRange (c : Config) : Prop := c.wbufMax ≤ 255

/-- R6: OBUF_MAX >= IBUF_MAX. -/
abbrev Config.obufCoversInput (c : Config) : Prop := c.ibufMax ≤ c.obufMax

/-- R6: OBUF_MAX >= floor((IBUF_MAX + 4) * 138 / 100) + 1. -/
abbrev Config.obufCoversText (c : Config) : Prop := (c.ibufMax + 4) * 138 / 100 + 1 ≤ c.obufMax

/-- R6: OBUF_MAX <= 255. -/
abbrev Config.obufInRange (c : Config) : Prop := c.obufMax ≤ 255

/-- The whole constraint column of R6. -/
abbrev Config.wf (c : Config) : Prop :=
  c.ibufInRange ∧ c.wbufInRange ∧ c.obufCoversInput ∧ c.obufCoversText ∧ c.obufInRange

end Sys2Proof
end

