-- ==== Sys2Proof/Decode.lean ====
section
/-! DEFINITION. The command byte (30_encoding.md R60 to R65): `decode`, total on all 256 values and
rejecting by name; then `encode`, and the table's numbering `decodeTableWord`. -/

namespace Sys2Proof

/-- Why a byte is illegal (R64). All three have the one architected outcome of R238; the names only say
which clause of R64 applies first (log 19). -/
inductive DecodeError where
  /-- RSV is not 00. -/
  | reservedBits
  /-- SCHEME is 0 or 12 to 15. -/
  | reservedScheme
  /-- DIR = 1 with a SCHEME other than 4. -/
  | directionNotAllowed
  deriving DecidableEq, Repr

/-- RSV, bits 7:6 (R60). -/
def rsvField (b : Byte) : Nat := (b.extractLsb' 6 2).toNat

/-- DIR, bit 5 (R60, R63). -/
def dirField (b : Byte) : Bool := b.getLsbD 5

/-- SCHEME, bits 4:1 (R60). -/
def schemeField (b : Byte) : Nat := (b.extractLsb' 1 4).toNat

/-- MODE, bit 0 (R60). -/
def modeField (b : Byte) : Bool := b.getLsbD 0

/-- The SCHEME values (R61); the values 0 and 12 to 15 are reserved. -/
def schemeOf : Nat → Option Scheme
  | 1 => some .luhn10
  | 2 => some .luhn36
  | 3 => some .gs1
  | 4 => some .wmod11
  | 5 => some .damm
  | 6 => some .verh
  | 7 => some .iso97
  | 8 => some .iso1110
  | 9 => some .iso112
  | 10 => some .iso3736
  | 11 => some .b58c
  | _ => none

/-- The command of a scheme, a DIR bit and a MODE bit; none where DIR = 1 is not allowed (R62, R63). -/
def commandOf : Scheme → (dir mode : Bool) → Option Instr
  | .luhn10, false, false => some .luhn10C
  | .luhn10, false, true => some .luhn10V
  | .luhn36, false, false => some .luhn36C
  | .luhn36, false, true => some .luhn36V
  | .gs1, false, false => some .gs1C
  | .gs1, false, true => some .gs1V
  | .wmod11, false, false => some .wmod11CL
  | .wmod11, false, true => some .wmod11VL
  | .wmod11, true, false => some .wmod11CR
  | .wmod11, true, true => some .wmod11VR
  | .damm, false, false => some .dammC
  | .damm, false, true => some .dammV
  | .verh, false, false => some .verhC
  | .verh, false, true => some .verhV
  | .iso97, false, false => some .iso97C
  | .iso97, false, true => some .iso97V
  | .iso1110, false, false => some .iso1110C
  | .iso1110, false, true => some .iso1110V
  | .iso112, false, false => some .iso112C
  | .iso112, false, true => some .iso112V
  | .iso3736, false, false => some .iso3736C
  | .iso3736, false, true => some .iso3736V
  | .b58c, false, false => some .b58cEnc
  | .b58c, false, true => some .b58cDec
  | _, true, _ => none

/-- The decoder: R60 to R64. -/
def decode (b : Byte) : Except DecodeError Instr :=
  if rsvField b ≠ 0 then .error .reservedBits
  else
    match schemeOf (schemeField b) with
    | none => .error .reservedScheme
    | some scheme =>
      match commandOf scheme (dirField b) (modeField b) with
      | none => .error .directionNotAllowed
      | some i => .ok i

/-- The SCHEME of a command (R61, R62). -/
def schemeNumber : Instr → Nat
  | .luhn10C | .luhn10V => 1
  | .luhn36C | .luhn36V => 2
  | .gs1C | .gs1V => 3
  | .wmod11CL | .wmod11VL | .wmod11CR | .wmod11VR => 4
  | .dammC | .dammV => 5
  | .verhC | .verhV => 6
  | .iso97C | .iso97V => 7
  | .iso1110C | .iso1110V => 8
  | .iso112C | .iso112V => 9
  | .iso3736C | .iso3736V => 10
  | .b58cEnc | .b58cDec => 11

/-- The DIR bit of a command (R63). -/
def dirNumber : Instr → Nat
  | .wmod11CR | .wmod11VR => 1
  | .luhn10C | .luhn10V | .luhn36C | .luhn36V | .gs1C | .gs1V | .wmod11CL | .wmod11VL
  | .dammC | .dammV | .verhC | .verhV | .iso97C | .iso97V | .iso1110C | .iso1110V
  | .iso112C | .iso112V | .iso3736C | .iso3736V | .b58cEnc | .b58cDec => 0

/-- The MODE bit of a command: 0 compute or encode, 1 validate or decode (R60). -/
def modeNumber : Instr → Nat
  | .luhn10C | .luhn36C | .gs1C | .wmod11CL | .wmod11CR | .dammC | .verhC | .iso97C | .iso1110C
  | .iso112C | .iso3736C | .b58cEnc => 0
  | .luhn10V | .luhn36V | .gs1V | .wmod11VL | .wmod11VR | .dammV | .verhV | .iso97V | .iso1110V
  | .iso112V | .iso3736V | .b58cDec => 1

/-- The byte of a command, `RSV*64 + DIR*32 + SCHEME*2 + MODE` with RSV = 0 (R60). -/
def encode (i : Instr) : Byte :=
  BitVec.ofNat 8 (dirNumber i * 32 + schemeNumber i * 2 + modeNumber i)

/-- The instruction the decoder reads from the table's word: the unit's one command byte holds bits 7
to 0 of `w`, and bits from `nbits` on are 0. -/
def decodeTableWord (nbits w : Nat) : Option Instr :=
  match decode (BitVec.ofNat 8 (w % 2 ^ nbits)) with
  | .ok i => some i
  | .error _ => none

end Sys2Proof
end

