-- ==== Sys2Proof/Machine/State.lean ====
section
/-! DEFINITION. The state of the unit as plain data (10_state.md), the two reasons a step can stop, and
the state after reset (70_reset_and_hazards.md R260, R261). -/

namespace Sys2Proof.Machine

/-- The buffer cells that hold a written value, by port address: IBUF from 0x100, WBUF from 0x200, OBUF
from 0x300 (20_memory.md R42). A cell that is not listed holds no value anybody wrote (log 7). -/
abbrev Memory := List Host.Cell

/-- The canonical form: addresses strictly rising. An unlisted cell holds no value, so no listed cell
can equal it (log 7). -/
abbrev Memory.wf (m : Memory) : Prop := m.Pairwise fun x y => x.1 < y.1

/-- Why the machine faults. The spec gives the unit no fault of its own (60_exceptions.md R230, R239). -/
inductive Fault where
  /-- Raised by `completeOk`, for any strict command, when a result is longer than OBUF_MAX, which
  R99 excludes and no rule defines (93 P3). Only a configuration that breaks R6 reaches it (R197), and
  `step` refuses such a configuration first. Safe: the machine stops (log 6). -/
  | outputOverflow
  deriving DecidableEq, Repr

/-- Why a step is refused. -/
inductive Refusal where
  /-- Raised by an arm of `exec` that has no meaning yet. No arm raises it. Safe. -/
  | notModelled (mnemonic : String)
  /-- Raised by `step` when the configuration breaks the constraint of R6: such a configuration is
  refused (93 P3). Safe: nothing is claimed of it (log 5). -/
  | badConfiguration
  deriving DecidableEq, Repr

/-- The state (10_state.md R10). The first six fields are the spec's; `cfg` holds the parameters of
R6; the last five are the model's own (log 2, 8 to 13). -/
structure State where
  /-- CMD: the byte of the most recent command started (R11). -/
  cmd : Byte
  /-- STATUS: BUSY, DONE, VALID, ERR, ECODE (R12). -/
  status : Byte
  /-- ILEN: the number of bytes of the input sequence (R14). -/
  ilen : Byte
  /-- WLEN: the number of weights (R15). -/
  wlen : Byte
  /-- OLEN: the number of valid result bytes (R16). -/
  olen : Byte
  /-- The written cells of IBUF, WBUF and OBUF (R17, R18, R19). -/
  mem : Memory
  /-- The parameters, constant (R6; log 4). -/
  cfg : Config
  /-- The turns still to come, first one next; when there is none the unit moves (log 2). -/
  schedule : List Turn
  /-- Address and byte of every host read so far, newest first (log 13). -/
  returned : List Host.Cell
  /-- The number of resets seen: the key of `Config.unwrittenByte` (log 8). -/
  resets : Nat
  /-- The number of times OBUF became unspecified: the key of `Config.scratchByte` (log 9). -/
  redraws : Nat
  /-- The number of reads of OLEN or OBUF made in flight: the key of `Config.busyByte` (log 10). -/
  busyReads : Nat
  deriving DecidableEq, Repr

/-- The unit after reset (R25, R260, R261) with the default parameters (R6), no cell written, and no
host access to come. -/
def State.reset : State :=
  { cmd := 0x00, status := 0x00, ilen := 0x00, wlen := 0x00, olen := 0x00
    mem := [], cfg := Config.defaults
    schedule := [], returned := [], resets := 0, redraws := 0, busyReads := 0 }

end Sys2Proof.Machine
end

