-- ==== Sys2Proof/Machine/Flags.lean ====
section
/-! DEFINITION. STATUS: its fields (10_state.md R12, R23), its values (R13) and the error numbers
(60_exceptions.md R231). -/

namespace Sys2Proof.Machine

/-- ECODE of an error (R231). -/
def ecodeOf : ErrorCode → Nat
  | .invalidChar => 1
  | .empty => 2
  | .format => 3
  | .tooShort => 4
  | .checksum => 5
  | .length => 6
  | .illegalCmd => 7

/-- STATUS.BUSY, bit 0 (R12). -/
def busyBit (status : Byte) : Bool := status.getLsbD 0

/-- STATUS.DONE, bit 1 (R12). -/
def doneBit (status : Byte) : Bool := status.getLsbD 1

/-- STATUS.VALID, bit 2 (R12). -/
def validBit (status : Byte) : Bool := status.getLsbD 2

/-- STATUS.ERR, bit 3 (R12). -/
def errBit (status : Byte) : Bool := status.getLsbD 3

/-- STATUS.ECODE, bits 7:4 (R12). -/
def ecodeField (status : Byte) : Nat := (status.extractLsb' 4 4).toNat

/-- STATUS from command start to completion: BUSY = 1, every other field 0 (R90). -/
def statusBusy : Byte := 0x01

/-- STATUS after a strict success: DONE = 1, every other field 0 (R99). -/
def statusOk : Byte := 0x02

/-- STATUS after an error, `0x0A + 16 * code`: DONE = 1, ERR = 1, ECODE = code (R100). -/
def statusErr (e : ErrorCode) : Byte := BitVec.ofNat 8 (0x0A + 16 * ecodeOf e)

/-- STATUS after a verdict: DONE = 1, VALID = the verdict, every other field 0 (R101). -/
def statusVerdict (valid : Bool) : Byte := if valid then 0x06 else 0x02

/-- A command is in flight: STATUS.BUSY = 1 (R90). -/
def busy (s : State) : Bool := busyBit s.status

end Sys2Proof.Machine
end

