-- ==== Sys2Proof/Machine/Ops.lean ====
section
/-! DEFINITION. The named operations over the buffers and registers: reading and writing cells, the
start of a command, the three completions (40_common_operation.md R90, R99 to R101), and reset (70
R260). An error is the completion `completeErr`, which is this unit's taking of an exception
(60_exceptions.md R236); the next `startCommand` is the return from it (R237). -/

namespace Sys2Proof.Machine

/-- Port address of IBUF[0] (20_memory.md R42). -/
abbrev ibufBase : Nat := 0x100

/-- Port address of WBUF[0] (R42). -/
abbrev wbufBase : Nat := 0x200

/-- Port address of OBUF[0] (R42). -/
abbrev obufBase : Nat := 0x300

/-- Port address of OLEN (R42). -/
abbrev olenAddr : Nat := 0x004

/-- The value of a listed cell; an unlisted one has none. -/
def Memory.lookup : Memory → Nat → Option Byte
  | [], _ => none
  | (k, v) :: rest, a => if a = k then some v else Memory.lookup rest a

/-- Write one cell, keeping the addresses strictly rising. -/
def Memory.store : Memory → Nat → Byte → Memory
  | [], a, b => [(a, b)]
  | (k, v) :: rest, a, b =>
    if a < k then (a, b) :: (k, v) :: rest
    else if a = k then (a, b) :: rest
    else (k, v) :: Memory.store rest a b

/-- The cells below an address: what is left when every cell from `base` on loses its value. -/
def Memory.below (m : Memory) (base : Nat) : Memory := m.filter fun c => decide (c.1 < base)

/-- The cells that hold a byte sequence from an address on, first byte lowest (20_memory.md R47). -/
def cellsFrom : Nat → List Byte → Memory
  | _, [] => []
  | a, b :: rest => (a, b) :: cellsFrom (a + 1) rest

/-- The byte a buffer cell holds, by port address: the written value, else the free value of a cell
nobody has written (R262, R19; log 8, 9). -/
def bufferByte (s : State) (a : Nat) : Byte :=
  match Memory.lookup s.mem a with
  | some b => b
  | none => if a < obufBase then Config.unwrittenByte s.resets a else Config.scratchByte s.redraws a

/-- `n` buffer bytes from port address `base` on, lowest index first. -/
def bufferBytes (s : State) (base n : Nat) : List Byte :=
  (List.range n).map fun k => bufferByte s (base + k)

/-- Replace the contents of OBUF: `out` from OBUF[0] on, every other byte unspecified, drawn anew
(10_state.md R19, 40_common_operation.md R99; log 9). -/
def redrawOutput (out : List Byte) (s : State) : State :=
  { s with
    mem := Memory.below s.mem obufBase ++ cellsFrom obufBase out
    redraws := s.redraws + 1 }

/-- Command start (R90): CMD takes the byte, STATUS becomes 0x01, OBUF becomes unspecified, and the
stored OLEN is cleared, as 92 D6 says; a read of it in flight is unspecified all the same (R51; log 11). -/
def startCommand (v : Byte) (s : State) : State :=
  { redrawOutput [] s with
    cmd := v
    status := statusBusy
    olen := 0x00 }

/-- `complete_ok(out)` (R99), which requires `len(out) <= OBUF_MAX` (log 6). -/
def completeOk (out : List Byte) (s : State) : Host.Outcome State Fault Refusal :=
  if out.length ≤ s.cfg.obufMax then
    .next { redrawOutput out s with
      olen := BitVec.ofNat 8 out.length
      status := statusOk }
  else .fault .outputOverflow

/-- `complete_err(code)` (R100, R236). -/
def completeErr (e : ErrorCode) (s : State) : State :=
  { redrawOutput [] s with
    olen := 0
    status := statusErr e }

/-- `complete_valid(b)` (R101). -/
def completeValid (valid : Bool) (s : State) : State :=
  { redrawOutput [] s with
    olen := 0
    status := statusVerdict valid }

/-- How a command ends (R92): exactly one of the three completions. -/
inductive Completion where
  | ok (out : List Byte)
  | err (e : ErrorCode)
  | verdict (valid : Bool)
  deriving DecidableEq, Repr

/-- The one atomic completion step (R92, 20_memory.md R53). -/
def complete (c : Completion) (s : State) : Host.Outcome State Fault Refusal :=
  match c with
  | .ok out => completeOk out s
  | .err e => .next (completeErr e s)
  | .verdict valid => .next (completeValid valid s)

/-- The reset event (70_reset_and_hazards.md R260): every register at its reset value, every buffer byte
unspecified, the command in flight abandoned. The parameters stay, and so do the model's own turns, read
log and draw counters, which count the reset (log 20). -/
def resetUnit (s : State) : State :=
  { State.reset with
    cfg := s.cfg
    schedule := s.schedule
    returned := s.returned
    resets := s.resets + 1
    redraws := s.redraws + 1
    busyReads := s.busyReads }

end Sys2Proof.Machine
end

