-- ==== Sys2Proof/Machine/Operands.lean ====
section
/-! DEFINITION. The operand forms: the implicit sequences a command reads (40_common_operation.md R91),
the symbol functions (30_encoding.md R70 to R76, 45_base58check.md R192) and the symbol scan (R94). -/

namespace Sys2Proof.Machine

/-- `S = IBUF[0 .. ILEN-1]` (R91). -/
def operand (s : State) : List Byte := bufferBytes s ibufBase s.ilen.toNat

/-- `W = WBUF[0 .. k-1]` as numbers, for the k weights a command uses (R91, 41 R119). -/
def weights (s : State) (k : Nat) : List Nat := (bufferBytes s wbufBase k).map BitVec.toNat

/-- The ASCII code of a character (30_encoding.md R70). -/
def ascii (c : Char) : Byte := BitVec.ofNat 8 c.toNat

/-- ALPHA36 (R73). -/
def alpha36 : List Byte :=
  (['0', '1', '2', '3', '4', '5', '6', '7', '8', '9'] ++
   ['A', 'B', 'C', 'D', 'E', 'F', 'G', 'H', 'I', 'J', 'K', 'L', 'M'] ++
   ['N', 'O', 'P', 'Q', 'R', 'S', 'T', 'U', 'V', 'W', 'X', 'Y', 'Z']).map ascii

/-- ALPHA58 (45_base58check.md R191). -/
def alpha58 : List Byte :=
  (['1', '2', '3', '4', '5', '6', '7', '8', '9'] ++
   ['A', 'B', 'C', 'D', 'E', 'F', 'G', 'H', 'J', 'K', 'L', 'M'] ++
   ['N', 'P', 'Q', 'R', 'S', 'T', 'U', 'V', 'W', 'X', 'Y', 'Z'] ++
   ['a', 'b', 'c', 'd', 'e', 'f', 'g', 'h', 'i', 'j', 'k', 'm', 'n'] ++
   ['o', 'p', 'q', 'r', 's', 't', 'u', 'v', 'w', 'x', 'y', 'z']).map ascii

/-- DEC10 (R71). -/
def dec10 (b : Byte) : Option Nat :=
  if 0x30 ≤ b.toNat ∧ b.toNat ≤ 0x39 then some (b.toNat - 0x30) else none

/-- DEC36 (R72): digits, then letters of either case. -/
def dec36 (b : Byte) : Option Nat :=
  if 0x30 ≤ b.toNat ∧ b.toNat ≤ 0x39 then some (b.toNat - 0x30)
  else if 0x41 ≤ b.toNat ∧ b.toNat ≤ 0x5A then some (b.toNat - 0x41 + 10)
  else if 0x61 ≤ b.toNat ∧ b.toNat ≤ 0x7A then some (b.toNat - 0x61 + 10)
  else none

/-- DEC11 (R74): upper-case X is 10. -/
def dec11 (b : Byte) : Option Nat := if b = ascii 'X' then some 10 else dec10 b

/-- DEC37 (R75): the asterisk is 36. -/
def dec37 (b : Byte) : Option Nat := if b = ascii '*' then some 36 else dec36 b

/-- DEC58 (R76, R192): the index of the byte in ALPHA58. -/
def dec58 (b : Byte) : Option Nat := alpha58.findIdx? fun c => c == b

/-- ENC10 (R71). -/
def enc10 (v : Nat) : Byte := BitVec.ofNat 8 (0x30 + v)

/-- ENC36 (R73). -/
def enc36 (v : Nat) : Byte := alpha36.getD v 0

/-- ENC11 (R74). -/
def enc11 (v : Nat) : Byte := if v = 10 then ascii 'X' else BitVec.ofNat 8 (0x30 + v)

/-- ENC37 (R75). -/
def enc37 (v : Nat) : Byte := if v = 36 then ascii '*' else enc36 v

/-- ENC58 (R192). -/
def enc58 (v : Nat) : Byte := alpha58.getD v 0

/-- `decode_all(S, DEC)` (R94): the values of all characters, or none if any character has none. -/
def decodeAll (dec : Byte → Option Nat) : List Byte → Option (List Nat)
  | [] => some []
  | b :: rest =>
    match dec b, decodeAll dec rest with
    | some v, some vs => some (v :: vs)
    | _, _ => none

/-- The scan of an operand whose last character is a check character with a decoder of its own
(R77): the payload values and the check value. None when the operand is empty or a character has no
value. -/
def decodeWithCheck (dec decCheck : Byte → Option Nat) (chars : List Byte) : Option (List Nat × Nat) :=
  match chars.getLast? with
  | none => none
  | some c =>
    match decCheck c, decodeAll dec chars.dropLast with
    | some check, some payload => some (payload, check)
    | _, _ => none

end Sys2Proof.Machine
end

