-- ==== Sys2Proof/Machine/Frame.lean ====
section
/-! DEFINITION. The frame every command runs in: the admission checks of 40_common_operation.md R93 and
the two contracts, strict (R96) and permissive (R97). The command's own rule is the argument. -/

namespace Sys2Proof.Machine

/-- Capacity (R93 step 2): ILEN > IBUF_MAX. -/
def overCapacity (s : State) : Bool := decide (s.cfg.ibufMax < s.ilen.toNat)

/-- Capacity of the WMOD11 commands (41 R120), for `m` payload digits. -/
def overWeights (s : State) (m : Nat) : Bool :=
  overCapacity s || decide (s.cfg.wbufMax < s.wlen.toNat) || decide (s.wlen.toNat < m)

/-- The strict contract (R96): a command that does not fit reports E_LENGTH and reads no buffer byte;
else its own rule gives the output or the error. -/
def strict (tooLong : Bool) (rule : List Byte → Except ErrorCode (List Byte)) (s : State) : Completion :=
  if tooLong then .err .length
  else
    match rule (operand s) with
    | .ok out => .ok out
    | .error e => .err e

/-- The permissive contract (R97): a command that does not fit is not valid and reads no buffer byte;
else its own rule gives the verdict. -/
def permissive (tooLong : Bool) (rule : List Byte → Bool) (s : State) : Completion :=
  if tooLong then .verdict false else .verdict (rule (operand s))

/-- The shape of every checksum `.C` rule: scan the payload, E_INVALID_CHAR if a character has no value
(R94), else output the encoded check value. -/
def computeWith (dec : Byte → Option Nat) (out : List Nat → List Byte) (chars : List Byte) :
    Except ErrorCode (List Byte) :=
  match decodeAll dec chars with
  | none => .error .invalidChar
  | some v => .ok (out v)

/-- The shape of the `.V` rules whose check character is scanned like the payload: too short or a
character without a value is not valid (R94, R98). -/
def validateWith (minLen : Nat) (dec : Byte → Option Nat) (relation : List Nat → Bool)
    (chars : List Byte) : Bool :=
  if chars.length < minLen then false
  else
    match decodeAll dec chars with
    | none => false
    | some v => relation v

/-- The shape of the `.V` rules whose check character has a decoder of its own (R77). -/
def validateCheckWith (dec decCheck : Byte → Option Nat) (relation : List Nat → Nat → Bool)
    (chars : List Byte) : Bool :=
  match decodeWithCheck dec decCheck chars with
  | none => false
  | some (payload, check) => relation payload check

end Sys2Proof.Machine
end

