-- ==== Sys2Proof/Machine/Sha256.lean ====
section
/-! DEFINITION. The hash primitive SHA256 (46_sha256.md R210 to R218). -/

namespace Sys2Proof.Machine

/-- Eight words: the hash value H[0 .. 7], or the working variables a .. h (R211, R217). -/
structure HashWords where
  (a b c d e f g h : Word32)
  deriving DecidableEq, Repr

/-- SHA_H0 (R211). -/
def shaH0 : HashWords :=
  { a := 0x6a09e667, b := 0xbb67ae85, c := 0x3c6ef372, d := 0xa54ff53a
    e := 0x510e527f, f := 0x9b05688c, g := 0x1f83d9ab, h := 0x5be0cd19 }

/-- SHA_K (R212), eight words a line as the spec prints them. -/
def shaK : List Word32 :=
  [0x428a2f98, 0x71374491, 0xb5c0fbcf, 0xe9b5dba5, 0x3956c25b, 0x59f111f1, 0x923f82a4, 0xab1c5ed5] ++
  [0xd807aa98, 0x12835b01, 0x243185be, 0x550c7dc3, 0x72be5d74, 0x80deb1fe, 0x9bdc06a7, 0xc19bf174] ++
  [0xe49b69c1, 0xefbe4786, 0x0fc19dc6, 0x240ca1cc, 0x2de92c6f, 0x4a7484aa, 0x5cb0a9dc, 0x76f988da] ++
  [0x983e5152, 0xa831c66d, 0xb00327c8, 0xbf597fc7, 0xc6e00bf3, 0xd5a79147, 0x06ca6351, 0x14292967] ++
  [0x27b70a85, 0x2e1b2138, 0x4d2c6dfc, 0x53380d13, 0x650a7354, 0x766a0abb, 0x81c2c92e, 0x92722c85] ++
  [0xa2bfe8a1, 0xa81a664b, 0xc24b8b70, 0xc76c51a3, 0xd192e819, 0xd6990624, 0xf40e3585, 0x106aa070] ++
  [0x19a4c116, 0x1e376c08, 0x2748774c, 0x34b0bcb5, 0x391c0cb3, 0x4ed8aa4a, 0x5b9cca4f, 0x682e6ff3] ++
  [0x748f82ee, 0x78a5636f, 0x84c87814, 0x8cc70208, 0x90befffa, 0xa4506ceb, 0xbef9a3f7, 0xc67178f2]

/-- ROTR(x, n) (46, notation). -/
def rotr (x : Word32) (n : Nat) : Word32 := (x >>> n) ||| (x <<< (32 - n))

/-- Ch (R216). -/
def shaCh (x y z : Word32) : Word32 := (x &&& y) ^^^ (~~~x &&& z)

/-- Maj (R216). -/
def shaMaj (x y z : Word32) : Word32 := (x &&& y) ^^^ (x &&& z) ^^^ (y &&& z)

/-- bsig0 (R216). -/
def bsig0 (x : Word32) : Word32 := rotr x 2 ^^^ rotr x 13 ^^^ rotr x 22

/-- bsig1 (R216). -/
def bsig1 (x : Word32) : Word32 := rotr x 6 ^^^ rotr x 11 ^^^ rotr x 25

/-- ssig0 (R216): its third term is a shift. -/
def ssig0 (x : Word32) : Word32 := rotr x 7 ^^^ rotr x 18 ^^^ (x >>> 3)

/-- ssig1 (R216): its third term is a shift. -/
def ssig1 (x : Word32) : Word32 := rotr x 17 ^^^ rotr x 19 ^^^ (x >>> 10)

/-- The big-endian representation of `x` in `n` bytes, most significant first (R213; 20_memory.md R48). -/
def bigEndian : (n x : Nat) → List Byte
  | 0, _ => []
  | n + 1, x => bigEndian n (x / 256) ++ [BitVec.ofNat 8 x]

/-- k, the least number with (l + 1 + k) mod 64 = 56 (R213). -/
def shaPadZeros (l : Nat) : Nat := (119 - l % 64) % 64

/-- The padded message M (R213). -/
def shaPad (m : List Byte) : List Byte :=
  m ++ [0x80] ++ List.replicate (shaPadZeros m.length) 0x00 ++ bigEndian 8 (8 * m.length)

/-- Parsing into words, four bytes each, big-endian (R214). -/
def shaWords : List Byte → List Word32
  | b0 :: b1 :: b2 :: b3 :: rest => (b0 ++ b1 ++ b2 ++ b3) :: shaWords rest
  | _ => []

/-- W[t] for t >= 16, from the words before it, newest first (R215). -/
def scheduleNext (w : List Word32) : Word32 :=
  ssig1 (w.getD 1 0) + w.getD 6 0 + ssig0 (w.getD 14 0) + w.getD 15 0

/-- `n` more words of the schedule, newest first (R215). -/
def scheduleExtend : Nat → List Word32 → List Word32
  | 0, w => w
  | n + 1, w => scheduleExtend n (scheduleNext w :: w)

/-- The message schedule W[0 .. 63] of a block of 16 words (R215). -/
def shaSchedule (block : List Word32) : List Word32 := (scheduleExtend 48 block.reverse).reverse

/-- One round (R217): the eight assignments take effect together. -/
def shaRound (v : HashWords) (k w : Word32) : HashWords :=
  let t1 := v.h + bsig1 v.e + shaCh v.e v.f v.g + k + w
  let t2 := bsig0 v.a + shaMaj v.a v.b v.c
  { a := t1 + t2, b := v.a, c := v.b, d := v.c, e := v.d + t1, f := v.e, g := v.f, h := v.g }

/-- The rounds, one for each pair of a round constant and a schedule word (R217). -/
def shaRounds : HashWords → (ks ws : List Word32) → HashWords
  | v, k :: ks, w :: ws => shaRounds (shaRound v k w) ks ws
  | v, _, _ => v

/-- The hash value after a block of 16 words (R217). -/
def shaBlock (h : HashWords) (block : List Word32) : HashWords :=
  let v := shaRounds h shaK (shaSchedule block)
  { a := h.a + v.a, b := h.b + v.b, c := h.c + v.c, d := h.d + v.d
    e := h.e + v.e, f := h.f + v.f, g := h.g + v.g, h := h.h + v.h }

/-- `n` blocks in order (R214, R217). -/
def shaBlocks : Nat → HashWords → List Word32 → HashWords
  | 0, h, _ => h
  | n + 1, h, ws => shaBlocks n (shaBlock h (ws.take 16)) (ws.drop 16)

/-- The bytes of a word, most significant first (R218). -/
def wordBytes (w : Word32) : List Byte :=
  [w.extractLsb' 24 8, w.extractLsb' 16 8, w.extractLsb' 8 8, w.extractLsb' 0 8]

/-- The digest: H[0] first, each word most significant byte first (R218). -/
def shaDigest (h : HashWords) : List Byte :=
  wordBytes h.a ++ wordBytes h.b ++ wordBytes h.c ++ wordBytes h.d ++
  wordBytes h.e ++ wordBytes h.f ++ wordBytes h.g ++ wordBytes h.h

/-- SHA256(m) (R210). -/
def sha256 (m : List Byte) : List Byte :=
  shaDigest (shaBlocks ((shaPad m).length / 64) shaH0 (shaWords (shaPad m)))

end Sys2Proof.Machine
end

