-- ==== Sys2Proof/Machine/Base58.lean ====
section
/-! DEFINITION. The Base58Check codec commands (45_base58check.md). The Big Integer is a Nat (R196). -/

namespace Sys2Proof.Machine

/-- SUFFIX(p) (R193): the first four bytes of the double hash. -/
def suffix (p : List Byte) : List Byte := (sha256 (sha256 p)).take 4

/-- The number a sequence of digits stands for, most significant first, from `num` on (R194, R198). -/
def positional (base : Nat) : (num : Nat) → List Nat → Nat
  | num, [] => num
  | num, d :: rest => positional base (num * base + d) rest

/-- The loop `while num > 0` of R194: the digits, least significant first. `fuel` bounds the loop; the
number itself is always enough, since each division by a base of 2 or more makes it smaller. -/
def digitLoop (base : Nat) : (fuel num : Nat) → List Nat
  | 0, _ => []
  | fuel + 1, num => if num = 0 then [] else num % base :: digitLoop base fuel (num / base)

/-- The digits of a number in a base, most significant first; none for 0 (R194, R198). -/
def digits (base num : Nat) : List Nat := (digitLoop base num num).reverse

/-- How many elements at the front of a list are 0 (R194, R198: `z`). -/
def leadingZeros : List Nat → Nat
  | [] => 0
  | d :: rest => if d = 0 then leadingZeros rest + 1 else 0

/-- The text of a byte string: z zero symbols, then the base-58 digits of its number (R194). -/
def textOf (data : List Byte) : List Byte :=
  let values := data.map BitVec.toNat
  List.replicate (leadingZeros values) (enc58 0) ++ (digits 58 (positional 256 0 values)).map enc58

/-- The byte string of a text's values: z zero bytes, then the minimal big-endian bytes of its
number (R198). -/
def dataOf (values : List Nat) : List Byte :=
  List.replicate (leadingZeros values) 0x00 ++
    (digits 256 (positional 58 0 values)).map (BitVec.ofNat 8)

/-- B58C.ENC's rule (R194). -/
def encode58 (payload : List Byte) : Except ErrorCode (List Byte) :=
  if payload = [] then .error .empty
  else .ok (textOf (payload ++ suffix payload))

/-- The last two checks of B58C.DEC on the decoded bytes, and the payload (R198). -/
def stripSuffix (data : List Byte) : Except ErrorCode (List Byte) :=
  if data.length < 4 then .error .tooShort
  else if suffix (data.take (data.length - 4)) ≠ data.drop (data.length - 4) then .error .checksum
  else .ok (data.take (data.length - 4))

/-- B58C.DEC's rule (R198), its checks in the order of R199. -/
def decode58 (text : List Byte) : Except ErrorCode (List Byte) :=
  if text = [] then .error .empty
  else
    match decodeAll dec58 text with
    | none => .error .format
    | some values => stripSuffix (dataOf values)

/-- B58C.ENC (R194). -/
def execB58cEnc (s : State) : Host.Outcome State Fault Refusal :=
  complete (strict (overCapacity s) encode58 s) s

/-- B58C.DEC (R198). -/
def execB58cDec (s : State) : Host.Outcome State Fault Refusal :=
  complete (strict (overCapacity s) decode58 s) s

end Sys2Proof.Machine
end

