-- ==== Sys2Proof/Machine/Iso7064.lean ====
section
/-! DEFINITION. The ISO 7064 commands (44_iso7064.md): MOD 97-10, MOD 11-10, MOD 11-2, MOD 37-36. MOD
37-36 follows the parameter ISO3736_VARIANT (00_scope.md R6): PURE is R170 and R171, HYBRID is 92 D22. -/

namespace Sys2Proof.Machine

/-- The running remainder of MOD 97-10 (R161, R162), from `rem` on. -/
def mod97Loop : (rem : Nat) → List Nat → Nat
  | rem, [] => rem
  | rem, d :: rest => mod97Loop ((rem * 10 + d) % 97) rest

/-- The check value of MOD 97-10 (R161): the unit supplies the two zero check positions. -/
def iso97Check (v : List Nat) : Nat := 98 - mod97Loop 0 (v ++ [0, 0])

/-- `10 if check = 0 else check` (R164). -/
def iso1110Carry (check : Nat) : Nat := if check = 0 then 10 else check

/-- The loop of ISO1110_RUN (R164), from `check` on. -/
def iso1110Loop : (check : Nat) → List Nat → Nat
  | check, [] => check
  | check, d :: rest => iso1110Loop ((iso1110Carry check * 2 % 11 + d) % 10) rest

/-- ISO1110_RUN(v) (R164), with the seed 5. -/
def iso1110Run (v : List Nat) : Nat := iso1110Loop 5 v

/-- The derivation step of ISO1110.C (R164): `temp = 1 - p`, plus 10 when negative. -/
def iso1110Check (v : List Nat) : Nat :=
  let temp : Int := 1 - (iso1110Carry (iso1110Run v) * 2 % 11 : Nat)
  (if temp < 0 then temp + 10 else temp).toNat

/-- The loop of PURE_RUN(v, M, r) (R167), from `sum` on. -/
def pureLoop (modulus radix : Nat) : (sum : Nat) → List Nat → Nat
  | sum, [] => sum
  | sum, x :: rest => pureLoop modulus radix ((sum + x) * radix % modulus) rest

/-- PURE_RUN(v, M, r) (R167). -/
def pureRun (v : List Nat) (modulus radix : Nat) : Nat := pureLoop modulus radix 0 v

/-- The check value of MOD 11-2 (R167). -/
def iso112Check (v : List Nat) : Nat := (12 - pureRun v 11 2) % 11

/-- The check value of MOD 37-36 as PURE (R170). -/
def iso3736PureCheck (v : List Nat) : Nat := (38 - pureRun v 37 36) % 37

/-- The loop of the HYBRID reading (92 D22), from `p` on. -/
def hybridLoop : (p : Nat) → List Nat → Nat
  | p, [] => p
  | p, x :: rest =>
    hybridLoop (2 * (if (p + x) % 36 = 0 then 36 else (p + x) % 36) % 37) rest

/-- The check value of MOD 37-36 as HYBRID (92 D22). -/
def iso3736HybridCheck (v : List Nat) : Nat := (37 - hybridLoop 36 v) % 36

/-- ISO3736.C's rule under a variant (R170, 92 D22). -/
def iso3736Compute (variant : Iso3736Variant) (chars : List Byte) : Except ErrorCode (List Byte) :=
  match variant with
  | .pure => computeWith dec36 (fun v => [enc37 (iso3736PureCheck v)]) chars
  | .hybrid => computeWith dec36 (fun v => [enc36 (iso3736HybridCheck v)]) chars

/-- ISO3736.V's rule under a variant (R171, 92 D22). -/
def iso3736Validate (variant : Iso3736Variant) (chars : List Byte) : Bool :=
  match variant with
  | .pure =>
    validateCheckWith dec36 dec37 (fun v c => decide ((pureRun v 37 36 + c) % 37 = 1)) chars
  | .hybrid =>
    validateCheckWith dec36 dec36 (fun v c => decide ((hybridLoop 36 v + c) % 36 = 1)) chars

/-- ISO97.C (R161): always two digits, tens first. -/
def execIso97C (s : State) : Host.Outcome State Fault Refusal :=
  complete (strict (overCapacity s)
    (computeWith dec10 fun v => [enc10 (iso97Check v / 10), enc10 (iso97Check v % 10)]) s) s

/-- ISO97.V (R162): at least the two check digits, remainder 1. -/
def execIso97V (s : State) : Host.Outcome State Fault Refusal :=
  complete (permissive (overCapacity s)
    (validateWith 2 dec10 fun v => decide (mod97Loop 0 v = 1)) s) s

/-- ISO1110.C (R164). -/
def execIso1110C (s : State) : Host.Outcome State Fault Refusal :=
  complete (strict (overCapacity s) (computeWith dec10 fun v => [enc10 (iso1110Check v)]) s) s

/-- ISO1110.V (R165). -/
def execIso1110V (s : State) : Host.Outcome State Fault Refusal :=
  complete (permissive (overCapacity s)
    (validateWith 1 dec10 fun v => decide (iso1110Run v = 1)) s) s

/-- ISO112.C (R167). -/
def execIso112C (s : State) : Host.Outcome State Fault Refusal :=
  complete (strict (overCapacity s) (computeWith dec10 fun v => [enc11 (iso112Check v)]) s) s

/-- ISO112.V (R168). -/
def execIso112V (s : State) : Host.Outcome State Fault Refusal :=
  complete (permissive (overCapacity s)
    (validateCheckWith dec10 dec11 fun v c => decide ((pureRun v 11 2 + c) % 11 = 1)) s) s

/-- ISO3736.C (R170; 92 D22 for HYBRID). -/
def execIso3736C (s : State) : Host.Outcome State Fault Refusal :=
  complete (strict (overCapacity s) (iso3736Compute s.cfg.iso3736) s) s

/-- ISO3736.V (R171; 92 D22 for HYBRID). -/
def execIso3736V (s : State) : Host.Outcome State Fault Refusal :=
  complete (permissive (overCapacity s) (iso3736Validate s.cfg.iso3736) s) s

end Sys2Proof.Machine
end

