-- ==== Sys2Proof/Machine/Damm.lean ====
section
/-! DEFINITION. The quasigroup checksum commands (42_damm.md). -/

namespace Sys2Proof.Machine

/-- A table entry, row then column; every table of the unit is read in range. -/
def tableEntry (table : List (List Nat)) (row column : Nat) : Nat := (table.getD row []).getD column 0

/-- DAMM_T (R141): the row is the accumulator, the column the digit. -/
def dammTable : List (List Nat) :=
  [[0, 3, 1, 7, 5, 9, 8, 6, 4, 2],
   [7, 0, 9, 2, 1, 5, 4, 8, 6, 3],
   [4, 2, 0, 6, 8, 7, 1, 3, 5, 9],
   [1, 7, 5, 0, 9, 8, 3, 4, 2, 6],
   [6, 1, 2, 3, 0, 4, 5, 9, 7, 8],
   [3, 6, 7, 4, 2, 0, 9, 5, 8, 1],
   [5, 8, 6, 9, 7, 2, 0, 1, 3, 4],
   [8, 9, 4, 5, 3, 6, 2, 0, 1, 7],
   [9, 4, 3, 8, 6, 1, 7, 2, 0, 5],
   [2, 5, 8, 1, 4, 3, 6, 7, 9, 0]]

/-- The loop of DAMM_FOLD (R140), left to right from accumulator `c`. -/
def dammLoop : (c : Nat) → List Nat → Nat
  | c, [] => c
  | c, d :: rest => dammLoop (tableEntry dammTable c d) rest

/-- DAMM_FOLD(v) (R140). -/
def dammFold (v : List Nat) : Nat := dammLoop 0 v

/-- DAMM.C (R143). -/
def execDammC (s : State) : Host.Outcome State Fault Refusal :=
  complete (strict (overCapacity s) (computeWith dec10 fun v => [enc10 (dammFold v)]) s) s

/-- DAMM.V (R144). -/
def execDammV (s : State) : Host.Outcome State Fault Refusal :=
  complete (permissive (overCapacity s)
    (validateWith 1 dec10 fun v => decide (dammFold v = 0)) s) s

end Sys2Proof.Machine
end

