-- ==== Sys2Proof/Machine/Verhoeff.lean ====
section
/-! DEFINITION. The permutation-group checksum commands (43_verhoeff.md). -/

namespace Sys2Proof.Machine

/-- VERH_D, the multiplication table of the dihedral group of order 10 (R151). -/
def verhD : List (List Nat) :=
  [[0, 1, 2, 3, 4, 5, 6, 7, 8, 9],
   [1, 2, 3, 4, 0, 6, 7, 8, 9, 5],
   [2, 3, 4, 0, 1, 7, 8, 9, 5, 6],
   [3, 4, 0, 1, 2, 8, 9, 5, 6, 7],
   [4, 0, 1, 2, 3, 9, 5, 6, 7, 8],
   [5, 9, 8, 7, 6, 0, 4, 3, 2, 1],
   [6, 5, 9, 8, 7, 1, 0, 4, 3, 2],
   [7, 6, 5, 9, 8, 2, 1, 0, 4, 3],
   [8, 7, 6, 5, 9, 3, 2, 1, 0, 4],
   [9, 8, 7, 6, 5, 4, 3, 2, 1, 0]]

/-- VERH_P, the permutation table (R152). -/
def verhP : List (List Nat) :=
  [[0, 1, 2, 3, 4, 5, 6, 7, 8, 9],
   [1, 5, 7, 6, 2, 8, 3, 0, 9, 4],
   [5, 8, 0, 3, 7, 9, 6, 1, 4, 2],
   [8, 9, 1, 6, 0, 4, 3, 5, 2, 7],
   [9, 4, 5, 3, 1, 2, 6, 8, 7, 0],
   [4, 2, 8, 6, 5, 7, 3, 9, 0, 1],
   [2, 7, 9, 3, 8, 0, 6, 4, 1, 5],
   [7, 0, 4, 6, 9, 1, 3, 2, 5, 8]]

/-- VERH_INV, the inverse table (R153). -/
def verhInv : List Nat := [0, 4, 3, 2, 1, 5, 6, 7, 8, 9]

/-- The loop of VERH_FOLD (R150) over the values from the right, from accumulator `c` and position
index `pos` (offset included). -/
def verhLoop : (c pos : Nat) → List Nat → Nat
  | c, _, [] => c
  | c, pos, d :: rest => verhLoop (tableEntry verhD c (tableEntry verhP (pos % 8) d)) (pos + 1) rest

/-- VERH_FOLD(v, off) (R150). -/
def verhFold (v : List Nat) (off : Nat) : Nat := verhLoop 0 off v.reverse

/-- VERH.C (R154): position 0 is kept for the check digit, so the offset is 1. -/
def execVerhC (s : State) : Host.Outcome State Fault Refusal :=
  complete (strict (overCapacity s)
    (computeWith dec10 fun v => [enc10 (verhInv.getD (verhFold v 1) 0)]) s) s

/-- VERH.V (R155). -/
def execVerhV (s : State) : Host.Outcome State Fault Refusal :=
  complete (permissive (overCapacity s)
    (validateWith 1 dec10 fun v => decide (verhFold v 0 = 0)) s) s

end Sys2Proof.Machine
end

