-- ==== Sys2Proof/Machine/Weighted.lean ====
section
/-! DEFINITION. The weighted positional checksum commands (41_weighted_positional.md): LUHN10, LUHN36,
GS1, WMOD11. All sums are exact (R124). -/

namespace Sys2Proof.Machine

/-- The doubling step of LUHN_SUM (R111). -/
def luhnDouble (modulus x : Nat) : Nat := if modulus ≤ 2 * x then 2 * x - (modulus - 1) else 2 * x

/-- The loop of LUHN_SUM (R111) over the values from the right; `dbl` says whether the next is doubled. -/
def luhnLoop (modulus : Nat) : Bool → List Nat → Nat
  | _, [] => 0
  | dbl, x :: rest => (if dbl then luhnDouble modulus x else x) + luhnLoop modulus (!dbl) rest

/-- LUHN_SUM(N, v, dbl_first) (R111). -/
def luhnSum (modulus : Nat) (v : List Nat) (dblFirst : Bool) : Nat :=
  luhnLoop modulus dblFirst v.reverse

/-- The complement `(N - (sum mod N)) mod N` (R112, R114, R116). -/
def complementMod (modulus sum : Nat) : Nat := (modulus - sum % modulus) % modulus

/-- The loop of GS1 (R116) over the values from the right, with the weight of the next one: 3, 1, 3, … -/
def gs1Loop : (weight : Nat) → List Nat → Nat
  | _, [] => 0
  | w, x :: rest => w * x + gs1Loop (4 - w) rest

/-- The check value of GS1 (R116): the rightmost payload digit has weight 3. -/
def gs1Check (payload : List Nat) : Nat := complementMod 10 (gs1Loop 3 payload.reverse)

/-- The sum of WMOD11 over the payload in the order in which the weights meet it (R119, R121). -/
def weightedSum : (w payload : List Nat) → Nat
  | w :: ws, d :: ds => d * w + weightedSum ws ds
  | _, _ => 0

/-- The check value of WMOD11 (R121): left to right the weights meet the payload as written, right to
left from its last digit on (R119). -/
def wmod11Check (rightToLeft : Bool) (w payload : List Nat) : Nat :=
  weightedSum w (if rightToLeft then payload.reverse else payload) % 11

/-- WMOD11.C for both directions (R120, R121): m = ILEN payload digits. -/
def wmod11Compute (rightToLeft : Bool) (s : State) : Completion :=
  strict (overWeights s s.ilen.toNat)
    (computeWith dec10 fun v => [enc11 (wmod11Check rightToLeft (weights s s.ilen.toNat) v)]) s

/-- WMOD11.V for both directions (R120, R122): m = max(ILEN - 1, 0) payload digits. -/
def wmod11Validate (rightToLeft : Bool) (s : State) : Completion :=
  permissive (overWeights s (s.ilen.toNat - 1))
    (validateCheckWith dec10 dec11 fun payload check =>
      decide (wmod11Check rightToLeft (weights s (s.ilen.toNat - 1)) payload = check)) s

/-- LUHN10.C (R112). -/
def execLuhn10C (s : State) : Host.Outcome State Fault Refusal :=
  complete (strict (overCapacity s)
    (computeWith dec10 fun v => [enc10 (complementMod 10 (luhnSum 10 v true))]) s) s

/-- LUHN10.V (R113): the check digit is not doubled (90 C1). -/
def execLuhn10V (s : State) : Host.Outcome State Fault Refusal :=
  complete (permissive (overCapacity s)
    (validateWith 1 dec10 fun v => decide (luhnSum 10 v false % 10 = 0)) s) s

/-- LUHN36.C (R114). -/
def execLuhn36C (s : State) : Host.Outcome State Fault Refusal :=
  complete (strict (overCapacity s)
    (computeWith dec36 fun v => [enc36 (complementMod 36 (luhnSum 36 v true))]) s) s

/-- LUHN36.V (R115). -/
def execLuhn36V (s : State) : Host.Outcome State Fault Refusal :=
  complete (permissive (overCapacity s)
    (validateWith 1 dec36 fun v => decide (luhnSum 36 v false % 36 = 0)) s) s

/-- GS1.C (R116). -/
def execGs1C (s : State) : Host.Outcome State Fault Refusal :=
  complete (strict (overCapacity s) (computeWith dec10 fun v => [enc10 (gs1Check v)]) s) s

/-- GS1.V (R117): recompute from all but the last digit and compare. -/
def execGs1V (s : State) : Host.Outcome State Fault Refusal :=
  complete (permissive (overCapacity s)
    (validateCheckWith dec10 dec10 fun payload check => decide (check = gs1Check payload)) s) s

/-- WMOD11.C.L (R121, DIR = 0). -/
def execWmod11CL (s : State) : Host.Outcome State Fault Refusal := complete (wmod11Compute false s) s

/-- WMOD11.V.L (R122, DIR = 0). -/
def execWmod11VL (s : State) : Host.Outcome State Fault Refusal := complete (wmod11Validate false s) s

/-- WMOD11.C.R (R121, DIR = 1). -/
def execWmod11CR (s : State) : Host.Outcome State Fault Refusal := complete (wmod11Compute true s) s

/-- WMOD11.V.R (R122, DIR = 1). -/
def execWmod11VR (s : State) : Host.Outcome State Fault Refusal := complete (wmod11Validate true s) s

end Sys2Proof.Machine
end

