-- ==== Sys2Proof/Machine/Dispatch.lean ====
section
/-! DEFINITION. One arm per command of 30_encoding.md R62: the completion of that command as the command
in flight (40_common_operation.md R92; log 3). -/

namespace Sys2Proof.Machine

/-- The completion of command `i` on the operands of `s` (R92; log 3). -/
def exec (i : Instr) (s : State) : Host.Outcome State Fault Refusal :=
  match i with
  | .luhn10C => Sys2Proof.Machine.execLuhn10C s
  | .luhn10V => Sys2Proof.Machine.execLuhn10V s
  | .luhn36C => Sys2Proof.Machine.execLuhn36C s
  | .luhn36V => Sys2Proof.Machine.execLuhn36V s
  | .gs1C => Sys2Proof.Machine.execGs1C s
  | .gs1V => Sys2Proof.Machine.execGs1V s
  | .wmod11CL => Sys2Proof.Machine.execWmod11CL s
  | .wmod11VL => Sys2Proof.Machine.execWmod11VL s
  | .wmod11CR => Sys2Proof.Machine.execWmod11CR s
  | .wmod11VR => Sys2Proof.Machine.execWmod11VR s
  | .dammC => Sys2Proof.Machine.execDammC s
  | .dammV => Sys2Proof.Machine.execDammV s
  | .verhC => Sys2Proof.Machine.execVerhC s
  | .verhV => Sys2Proof.Machine.execVerhV s
  | .iso97C => Sys2Proof.Machine.execIso97C s
  | .iso97V => Sys2Proof.Machine.execIso97V s
  | .iso1110C => Sys2Proof.Machine.execIso1110C s
  | .iso1110V => Sys2Proof.Machine.execIso1110V s
  | .iso112C => Sys2Proof.Machine.execIso112C s
  | .iso112V => Sys2Proof.Machine.execIso112V s
  | .iso3736C => Sys2Proof.Machine.execIso3736C s
  | .iso3736V => Sys2Proof.Machine.execIso3736V s
  | .b58cEnc => Sys2Proof.Machine.execB58cEnc s
  | .b58cDec => Sys2Proof.Machine.execB58cDec s

end Sys2Proof.Machine
end

