-- ==== Sys2Proof/Machine/Port.lean ====
section
/-! DEFINITION. The register port: the address map (20_memory.md R42), host reads and writes with the
busy gate (R43, R44, R50, R51), and the three host accesses as changes of the state. -/

namespace Sys2Proof.Machine

/-- What a port address names (R42). -/
inductive Location where
  | cmd
  | status
  | ilen
  | wlen
  | olen
  | ibuf (index : Nat)
  | wbuf (index : Nat)
  | obuf (index : Nat)
  | reserved
  deriving DecidableEq, Repr

/-- The address map of R42 for the capacities of a configuration. -/
def locate (c : Config) (addr : PortAddr) : Location :=
  let a := addr.toNat
  if a = 0x000 then .cmd
  else if a = 0x001 then .status
  else if a = 0x002 then .ilen
  else if a = 0x003 then .wlen
  else if a = olenAddr then .olen
  else if ibufBase ≤ a ∧ a < wbufBase ∧ a - ibufBase < c.ibufMax then .ibuf (a - ibufBase)
  else if wbufBase ≤ a ∧ a < obufBase ∧ a - wbufBase < c.wbufMax then .wbuf (a - wbufBase)
  else if obufBase ≤ a ∧ a - obufBase < c.obufMax then .obuf (a - obufBase)
  else .reserved

/-- A read of this location is unspecified while a command is in flight (R51). -/
def unstable : Location → Bool
  | .olen | .obuf _ => true
  | .cmd | .status | .ilen | .wlen | .ibuf _ | .wbuf _ | .reserved => false

/-- The byte a location holds (R42); a reserved address reads 0x00 (R44). -/
def locationByte (s : State) : Location → Byte
  | .cmd => s.cmd
  | .status => s.status
  | .ilen => s.ilen
  | .wlen => s.wlen
  | .olen => s.olen
  | .ibuf k => bufferByte s (ibufBase + k)
  | .wbuf k => bufferByte s (wbufBase + k)
  | .obuf k => bufferByte s (obufBase + k)
  | .reserved => 0x00

/-- The byte a host read returns (R42, R51): the free value of this read where the location is
unspecified in flight (log 10), else what the location holds. -/
def readByte (s : State) (addr : PortAddr) : Byte :=
  if busy s && unstable (locate s.cfg addr) then Config.busyByte s.busyReads
  else locationByte s (locate s.cfg addr)

/-- `RD addr` (R43, R51): the byte goes to the host, whose log grows; the only other trace is the count
of the draws of R51 (log 10, 13). -/
def hostRead (addr : PortAddr) (s : State) : State :=
  { s with
    returned := (addr.toNat, readByte s addr) :: s.returned
    busyReads := if busy s && unstable (locate s.cfg addr) then s.busyReads + 1 else s.busyReads }

/-- `WR addr, byte` (R42, R44, R50): ignored in flight; else CMD starts a command (R90), ILEN, WLEN, IBUF
and WBUF store, and everything else ignores the write. -/
def hostWrite (addr : PortAddr) (v : Byte) (s : State) : State :=
  if busy s then s
  else
    match locate s.cfg addr with
    | .cmd => startCommand v s
    | .ilen => { s with ilen := v }
    | .wlen => { s with wlen := v }
    | .ibuf k => { s with mem := Memory.store s.mem (ibufBase + k) v }
    | .wbuf k => { s with mem := Memory.store s.mem (wbufBase + k) v }
    | .status | .olen | .obuf _ | .reserved => s

/-- One access of the host (30_encoding.md R80). -/
def hostAccess : HostAccess → State → State
  | .write addr v, s => hostWrite addr v s
  | .read addr, s => hostRead addr s
  | .reset, s => resetUnit s

end Sys2Proof.Machine
end

