-- ==== Sys2Proof/Machine/Turns.lean ====
section
/-! DEFINITION. A turn of either agent (00_scope.md R8): the unit completes the command in flight, or the
host makes one access. -/

namespace Sys2Proof.Machine

/-- The unit's turn: with a command in flight it decodes CMD (40_common_operation.md R93 step 1) and
completes that command, an illegal byte with E_ILLEGAL_CMD (R64, R238); otherwise it waits (10 R24). -/
def unitTurn (s : State) : Host.Outcome State Fault Refusal :=
  if busy s then
    match decode s.cmd with
    | .ok i => exec i s
    | .error _ => .next (completeErr .illegalCmd s)
  else .next s

/-- One turn, its place in the schedule already left behind. -/
def takeTurn (t : Turn) (s : State) : Host.Outcome State Fault Refusal :=
  match t with
  | .host access => .next (hostAccess access s)
  | .unit => unitTurn s

/-- The next turn of the schedule; with none left the unit moves, so that a command in flight completes
(R92; log 2). A configuration that breaks R6 is refused (93 P3; log 5). -/
def nextTurn (s : State) : Host.Outcome State Fault Refusal :=
  if s.cfg.wf then
    match s.schedule with
    | [] => unitTurn s
    | t :: rest => takeTurn t { s with schedule := rest }
  else .refused .badConfiguration

/-- The schedule with the unit's turn first: an empty one already gives the unit its turn. -/
def unitFirst : List Turn → List Turn
  | [] => []
  | t :: rest => .unit :: t :: rest

/-- A state in which the byte `v` is the command in flight and the unit moves next: what a host write of
`v` to CMD brings about (R90), less what it does to the previous result (log 1). -/
def placeCommand (v : Byte) (s : State) : State :=
  { s with cmd := v, status := statusBusy, schedule := unitFirst s.schedule }

end Sys2Proof.Machine
end

