-- ==== Sys2Proof/Machine/Step.lean ====
section
/-! DEFINITION. The step function of the two agents, and the placing of a command for the next step. -/

namespace Sys2Proof.Machine

/-- One step: the next turn (00_scope.md R8, 20_memory.md R52, R53; log 2). -/
def step (s : State) : Host.Outcome State Fault Refusal := nextTurn s

/-- The state in which the very next step runs the command byte `w`, whose bits from `nbits` on are 0:
the byte is the command in flight (log 1). -/
def State.withFetchWord (s : State) (nbits w : Nat) : State :=
  placeCommand (BitVec.ofNat 8 (w % 2 ^ nbits)) s

end Sys2Proof.Machine
end

