-- ==== Sys2Proof/Machine/Host.lean ====
section
/-! DEFINITION. The host's notation (30_encoding.md R80 to R82) as lists of accesses and turns: what the
pseudo-instructions LDI, LDW, a mnemonic, WAIT, RDO and CALL put on the register port. The loop of WAIT
and the length of RDO are the host's own control flow, so they are arguments here. -/

namespace Sys2Proof.Machine

/-- `WR base+i, s[i]` for increasing i (R81). -/
def writeBytes : (base : Nat) → List Byte → List HostAccess
  | _, [] => []
  | a, b :: rest => .write (BitVec.ofNat 10 a) b :: writeBytes (a + 1) rest

/-- `LDI s` (R81): ILEN, then the bytes of IBUF. -/
def loadInput (chars : List Byte) : List HostAccess :=
  .write 0x002 (BitVec.ofNat 8 chars.length) :: writeBytes ibufBase chars

/-- `LDW w0, …` (R81): WLEN, then the bytes of WBUF. -/
def loadWeights (w : List Byte) : List HostAccess :=
  .write 0x003 (BitVec.ofNat 8 w.length) :: writeBytes wbufBase w

/-- A mnemonic (R81): `WR 0x000` with its byte. -/
def issue (i : Instr) : HostAccess := .write 0x000 (encode i)

/-- `WAIT` (R81) that reads STATUS `polls` times in flight, then once after the completion. -/
def waitTurns (polls : Nat) : List Turn :=
  List.replicate polls (.host (.read 0x001)) ++ [.unit, .host (.read 0x001)]

/-- `RDO` (R81) for a result of `n` bytes. -/
def readOutput (n : Nat) : List HostAccess :=
  .read 0x004 :: (List.range n).map fun k => .read (BitVec.ofNat 10 (obufBase + k))

/-- `CALL <mnemonic>, s` (R81): load, issue, wait, read STATUS, read the `n` result bytes. -/
def callTurns (i : Instr) (chars : List Byte) (polls n : Nat) : List Turn :=
  (loadInput chars ++ [issue i]).map .host ++ waitTurns polls ++
    (.read 0x001 :: readOutput n).map .host

end Sys2Proof.Machine
end

