-- ==== Sys2Proof/Safety.lean ====
section
/-! DEFINITION. The terms the claims use: how a command ended, which commands are strict and which
permissive, the invariant of the unit, and the closed forms of the spec's sums, written apart from the
loops of the model. -/

namespace Sys2Proof.Machine

/-! ## How a command ended -/

/-- A strict success with result `out` (40_common_operation.md R99): STATUS = 0x02, OLEN = its length,
OBUF[0 .. OLEN-1] = `out`. -/
def hasOutput (t : State) (out : List Byte) : Prop :=
  t.status = 0x02 ∧ t.olen.toNat = out.length ∧ bufferBytes t obufBase out.length = out

/-- An error (R100): the given STATUS, and OLEN = 0. -/
def failedWith (t : State) (status : Byte) : Prop := t.status = status ∧ t.olen = 0

/-- A verdict (R101): STATUS is 0x06 exactly when `valid` holds, else 0x02, and OLEN = 0. -/
def verdictIs (t : State) (valid : Prop) : Prop :=
  (valid → t.status = 0x06) ∧ (¬ valid → t.status = 0x02) ∧ t.olen = 0

/-- The result bytes OBUF[0 .. OLEN-1] (10_state.md R19). -/
def resultBytes (t : State) : List Byte := bufferBytes t obufBase t.olen.toNat

/-- No byte of OBUF from index `n` on holds a written value: each is unspecified (R19). -/
def outputEndsAt (t : State) (n : Nat) : Prop :=
  ∀ a, obufBase + n ≤ a → Memory.lookup t.mem a = none

/-! ## Which commands -/

/-- The strict checksum commands (`.C`), each with the decoder of its characters (30_encoding.md R77). -/
def computeCommands : List (Instr × (Byte → Option Nat)) :=
  [(.luhn10C, dec10), (.luhn36C, dec36), (.gs1C, dec10), (.wmod11CL, dec10), (.wmod11CR, dec10),
   (.dammC, dec10), (.verhC, dec10), (.iso97C, dec10), (.iso1110C, dec10), (.iso112C, dec10),
   (.iso3736C, dec36)]

/-- The permissive commands (`.V`), each with the decoder of positions 0 .. n-2 and of position n-1
(R77). For ISO3736.V the second is that of PURE; HYBRID has no check symbol of value 36 (92 D22). -/
def validateCommands : List (Instr × (Byte → Option Nat) × (Byte → Option Nat)) :=
  [(.luhn10V, dec10, dec10), (.luhn36V, dec36, dec36), (.gs1V, dec10, dec10),
   (.wmod11VL, dec10, dec11), (.wmod11VR, dec10, dec11), (.dammV, dec10, dec10),
   (.verhV, dec10, dec10), (.iso97V, dec10, dec10), (.iso1110V, dec10, dec10),
   (.iso112V, dec10, dec11), (.iso3736V, dec36, dec37)]

/-- The strict commands (R96): every `.C` command and both Base58Check commands. -/
def strictCommands : List Instr := computeCommands.map Prod.fst ++ [.b58cEnc, .b58cDec]

/-- The permissive commands (R97). -/
def permissiveCommands : List Instr := validateCommands.map Prod.fst

/-- The compute and the validate command of each scheme and direction (R102). -/
def schemePairs : List (Instr × Instr) :=
  [(.luhn10C, .luhn10V), (.luhn36C, .luhn36V), (.gs1C, .gs1V), (.wmod11CL, .wmod11VL),
   (.wmod11CR, .wmod11VR), (.dammC, .dammV), (.verhC, .verhV), (.iso97C, .iso97V),
   (.iso1110C, .iso1110V), (.iso112C, .iso112V), (.iso3736C, .iso3736V)]

/-- The commands that read WLEN and WBUF (10_state.md R15). -/
def weightCommands : List Instr := [.wmod11CL, .wmod11VL, .wmod11CR, .wmod11VR]

/-- Two states hold the same weights: WLEN, and WBUF[0 .. WLEN-1] where that fits WBUF (R91). -/
def sameWeights (s s' : State) : Prop :=
  s'.wlen = s.wlen ∧
    (s.wlen.toNat ≤ s.cfg.wbufMax → bufferBytes s' wbufBase s.wlen.toNat = bufferBytes s wbufBase s.wlen.toNat)

/-- Two states give command `i` the same operands (00_scope.md R9, R91): ILEN, the bytes
IBUF[0 .. ILEN-1] where they fit IBUF, the weights for a WMOD11 command, and the parameters. -/
def sameOperands (i : Instr) (s s' : State) : Prop :=
  s'.cfg = s.cfg ∧ s'.ilen = s.ilen ∧
  (s.ilen.toNat ≤ s.cfg.ibufMax → operand s' = operand s) ∧
  (i ∈ weightCommands → sameWeights s s')

/-- The character sequence `chars` is the operand and its values are `v`. -/
def spells (dec : Byte → Option Nat) (chars : List Byte) (v : List Nat) : Prop :=
  chars.map dec = v.map some

/-! ## The invariant -/

/-- The values STATUS takes (10_state.md R13). -/
def legalStatuses : List Byte :=
  [0x00, 0x01, 0x02, 0x06, 0x1A, 0x2A, 0x3A, 0x4A, 0x5A, 0x6A, 0x7A]

/-- The STATUS values with which a command can complete (60_exceptions.md R233). -/
def completionStatuses : Instr → List Byte
  | .luhn10C | .luhn36C | .gs1C | .wmod11CL | .wmod11CR | .dammC | .verhC | .iso97C | .iso1110C
  | .iso112C | .iso3736C => [0x02, 0x1A, 0x6A]
  | .luhn10V | .luhn36V | .gs1V | .wmod11VL | .wmod11VR | .dammV | .verhV | .iso97V | .iso1110V
  | .iso112V | .iso3736V => [0x02, 0x06]
  | .b58cEnc => [0x02, 0x2A, 0x6A]
  | .b58cDec => [0x02, 0x2A, 0x3A, 0x4A, 0x5A, 0x6A]

/-- The STATUS values with which a command byte can complete (R233): the illegal ones only with
E_ILLEGAL_CMD. -/
def statusesOfByte (b : Byte) : List Byte :=
  match decode b with
  | .ok i => completionStatuses i
  | .error _ => [0x7A]

/-- OLEN after STATUS = 0x02 (10_state.md R16): 0 for a verdict, 2 for ISO97.C, 1 for the other `.C`
commands; the Base58Check commands deliver what their rules say. -/
def olenAllowed : Instr → Nat → Prop
  | .luhn10C, n | .luhn36C, n | .gs1C, n | .wmod11CL, n | .wmod11CR, n | .dammC, n | .verhC, n
  | .iso1110C, n | .iso112C, n | .iso3736C, n => n = 1
  | .iso97C, n => n = 2
  | .luhn10V, n | .luhn36V, n | .gs1V, n | .wmod11VL, n | .wmod11VR, n | .dammV, n | .verhV, n
  | .iso97V, n | .iso1110V, n | .iso112V, n | .iso3736V, n => n = 0
  | .b58cEnc, _ | .b58cDec, _ => True

/-- A buffer byte with this port address exists (20_memory.md R42). -/
abbrev cellExists (c : Config) (a : Nat) : Prop :=
  (ibufBase ≤ a ∧ a < ibufBase + c.ibufMax) ∨ (wbufBase ≤ a ∧ a < wbufBase + c.wbufMax) ∨
    (obufBase ≤ a ∧ a < obufBase + c.obufMax)

/-- The memory is canonical and lists only bytes that exist. -/
abbrev memoryOk (s : State) : Prop := Memory.wf s.mem ∧ ∀ c ∈ s.mem, cellExists s.cfg c.1

/-- The three phases (R13, R23): IDLE as reset leaves it; BUSY with OLEN cleared (92 D6); or DONE with a
STATUS that the byte in CMD can complete with, and OLEN as R16 says. -/
def phaseOk (s : State) : Prop :=
  (s.status = 0x00 ∧ s.cmd = 0x00 ∧ s.olen = 0) ∨
  (s.status = 0x01 ∧ s.olen = 0) ∨
  (s.status ∈ statusesOfByte s.cmd ∧ (s.status ≠ 0x02 → s.olen = 0) ∧
    ∀ i, decode s.cmd = .ok i → s.status = 0x02 → olenAllowed i s.olen.toNat)

/-- The listed OBUF bytes are exactly OBUF[0 .. OLEN-1] (R19), so none in flight (R90). -/
def outputOk (s : State) : Prop :=
  s.olen.toNat ≤ s.cfg.obufMax ∧
    ∀ a, obufBase ≤ a → ((Memory.lookup s.mem a).isSome ↔ a < obufBase + s.olen.toNat)

/-- The invariant every step keeps: a well-formed configuration (R6), canonical memory, a STATUS of
R13 that fits CMD and OLEN, and result bytes that were all written. -/
def Inv (s : State) : Prop :=
  s.cfg.wf ∧ memoryOk s ∧ s.status ∈ legalStatuses ∧ phaseOk s ∧ outputOk s

/-! ## The spec's sums in closed form -/

/-- Value `j` places from the right of a value list (41_weighted_positional.md R111). -/
def fromRight (v : List Nat) (j : Nat) : Nat := v.getD (v.length - 1 - j) 0

/-- The Luhn sum (R111) with the doubled value replaced by the sum of its own base-N digits, which is
how the source words it for N = 10; `par` is the parity of the doubled places from the right. -/
def luhnTotal (modulus par : Nat) (v : List Nat) : Nat :=
  ∑ j ∈ Finset.range v.length,
    if j % 2 = par then 2 * fromRight v j / modulus + 2 * fromRight v j % modulus else fromRight v j

/-- The GS1 sum (R116): weight 3 at the places from the right of parity `par`, weight 1 elsewhere. -/
def gs1Total (par : Nat) (v : List Nat) : Nat :=
  ∑ j ∈ Finset.range v.length, (if j % 2 = par then 3 else 1) * fromRight v j

/-- Weight number `k` (10_state.md R18). -/
def weightAt (s : State) (k : Nat) : Nat := (bufferByte s (wbufBase + k)).toNat

/-- The WMOD11 sum (R119), weights left to right. -/
def weightedLeft (s : State) (v : List Nat) : Nat :=
  ∑ k ∈ Finset.range v.length, v.getD k 0 * weightAt s k

/-- The WMOD11 sum (R119), weights right to left. -/
def weightedRight (s : State) (v : List Nat) : Nat :=
  ∑ k ∈ Finset.range v.length, fromRight v k * weightAt s k

/-- The rows of DAMM_T in their second listing (42_damm.md R141), each row read as a decimal number. -/
def dammRows : List Nat :=
  [0317598642, 7092154863, 4206871359, 1750983426, 6123045978,
   3674209581, 5869720134, 8945362017, 9438617205, 2581436790]

/-- Digit `d` of a ten-digit row, leftmost first. -/
def rowDigit (row d : Nat) : Nat := row / 10 ^ (9 - d) % 10

/-- DAMM_T[c][d] from the second listing (R141). -/
def dammEntry (c d : Nat) : Nat := rowDigit (dammRows.getD c 0) d

/-- DAMM_FOLD (42_damm.md R140). -/
def dammOf (v : List Nat) : Nat := v.foldl dammEntry 0

/-- The product of the dihedral group of order 10 in closed form (43_verhoeff.md R151). -/
def dihedral (a b : Nat) : Nat :=
  if a < 5 then if b < 5 then (a + b) % 5 else 5 + (a + b) % 5
  else if b < 5 then 5 + (a - b) % 5 else (5 + a - b) % 5

/-- Row 1 of VERH_P (R152), of which row r is the r-fold composition. -/
def verhStep (x : Nat) : Nat := [1, 5, 7, 6, 2, 8, 3, 0, 9, 4].getD x 0

/-- The product of R156: place `j` from the right is permuted `j + off` times. -/
def verhProduct (v : List Nat) (off : Nat) : Nat :=
  (List.range v.length).foldl (fun c j => dihedral c (verhStep^[(j + off) % 8] (fromRight v j))) 0

/-- One digit of MOD 11-10 (44_iso7064.md R164). -/
def iso1110Next (check d : Nat) : Nat := ((if check = 0 then 10 else check) * 2 % 11 + d) % 10

/-- One character of the HYBRID reading of MOD 37-36 (92 D22). -/
def hybridNext (p x : Nat) : Nat := 2 * (if (p + x) % 36 = 0 then 36 else (p + x) % 36) % 37

/-- The value of decimal digits, most significant first. -/
def decimal (v : List Nat) : Nat := Nat.ofDigits 10 v.reverse

/-- The pure-system sum (R167) in closed form: each value times a power of the radix. -/
def pureTotal (radix : Nat) (v : List Nat) : Nat :=
  ∑ k ∈ Finset.range v.length, v.getD k 0 * radix ^ (v.length - k)

/-- The base-256 number of a byte string, most significant byte first (20_memory.md R48). -/
def bytesValue (data : List Byte) : Nat := Nat.ofDigits 256 (data.map BitVec.toNat).reverse

/-- How many bytes at the front of a byte string equal `b`. -/
def leadingCount (b : Byte) (data : List Byte) : Nat := (data.takeWhile fun c => c == b).length

end Sys2Proof.Machine
end

