-- ==== Sys2Proof/Certificates/Slice0/Obligations.lean ====
section
/-! DEFINITION. The statements for the provers. Each docstring names the rule it formalises or the
sections it rests on; hypotheses are on states and operands alone. -/

open Sys2Proof Sys2Proof.Machine

/-! ## Encoding -/

/-- The 24 bytes of 30_encoding.md R62, written out as the table prints them, are the 24 commands. -/
def Obligations.TableBytesAreTheCommands : Prop :=
  ∀ p ∈ ([(0x02, .luhn10C), (0x03, .luhn10V), (0x04, .luhn36C), (0x05, .luhn36V), (0x06, .gs1C),
      (0x07, .gs1V), (0x08, .wmod11CL), (0x09, .wmod11VL), (0x28, .wmod11CR), (0x29, .wmod11VR),
      (0x0A, .dammC), (0x0B, .dammV), (0x0C, .verhC), (0x0D, .verhV), (0x0E, .iso97C),
      (0x0F, .iso97V), (0x10, .iso1110C), (0x11, .iso1110V), (0x12, .iso112C), (0x13, .iso112V),
      (0x14, .iso3736C), (0x15, .iso3736V), (0x16, .b58cEnc), (0x17, .b58cDec)] : List (Byte × Instr)),
    decode p.1 = .ok p.2 ∧ encode p.2 = p.1

/-- Decode and encode agree in both directions: no command has two bytes, no byte two commands. -/
def Obligations.DecodeEncodeAgree : Prop :=
  ∀ (i : Instr) (b : Byte), decode b = .ok i ↔ encode i = b

/-- The illegal bytes are those R64 lists, and no others. -/
def Obligations.IllegalBytesAreTheListedOnes : Prop :=
  ∀ b : Byte, (∃ e, decode b = .error e) ↔
    (0x40 ≤ b.toNat ∨ b.toNat = 0x00 ∨ b.toNat = 0x01 ∨ (0x18 ≤ b.toNat ∧ b.toNat ≤ 0x1F) ∨
      b.toNat = 0x20 ∨ b.toNat = 0x21 ∨ (0x38 ≤ b.toNat ∧ b.toNat ≤ 0x3F) ∨
      (0x22 ≤ b.toNat ∧ b.toNat ≤ 0x27) ∨ (0x2A ≤ b.toNat ∧ b.toNat ≤ 0x37))

/-- The alphabets, and that the symbol functions invert each other (30_encoding.md R71 to R76,
45_base58check.md R191, R192). The decoders are given whole, byte range by byte range: DEC36 reads
lower case as upper case, DEC11 reads 10 in upper-case X alone, DEC37 reads 36 in the asterisk alone,
and no decoder reads any other byte. The encoders of the checksum commands are given whole too; ENC58 is
the inverse of DEC58. -/
def Obligations.SymbolDecodersInvertEncoders : Prop :=
  (∀ (b : Byte) (v : Nat), dec10 b = some v ↔ v < 10 ∧ b.toNat = 0x30 + v) ∧
  (∀ (b : Byte) (v : Nat), dec36 b = some v ↔
    (v < 10 ∧ b.toNat = 0x30 + v) ∨
    (10 ≤ v ∧ v < 36 ∧ (b.toNat = 0x41 + (v - 10) ∨ b.toNat = 0x61 + (v - 10)))) ∧
  (∀ (b : Byte) (v : Nat), dec11 b = some v ↔ (v < 10 ∧ b.toNat = 0x30 + v) ∨ (v = 10 ∧ b.toNat = 0x58)) ∧
  (∀ (b : Byte) (v : Nat), dec37 b = some v ↔ (v = 36 ∧ b.toNat = 0x2A) ∨ dec36 b = some v) ∧
  (∀ (b : Byte) (v : Nat), dec58 b = some v ↔
    (v ≤ 8 ∧ b.toNat = 0x31 + v) ∨ (9 ≤ v ∧ v ≤ 16 ∧ b.toNat = 0x41 + (v - 9)) ∨
    (17 ≤ v ∧ v ≤ 21 ∧ b.toNat = 0x4A + (v - 17)) ∨ (22 ≤ v ∧ v ≤ 32 ∧ b.toNat = 0x50 + (v - 22)) ∨
    (33 ≤ v ∧ v ≤ 43 ∧ b.toNat = 0x61 + (v - 33)) ∨ (44 ≤ v ∧ v ≤ 57 ∧ b.toNat = 0x6D + (v - 44))) ∧
  (∀ v < 10, (enc10 v).toNat = 0x30 + v ∧ enc11 v = enc10 v ∧ enc36 v = enc10 v) ∧
  (∀ v < 26, (enc36 (10 + v)).toNat = 0x41 + v) ∧ (∀ v < 36, enc37 v = enc36 v) ∧
  enc11 10 = 0x58 ∧ enc37 36 = 0x2A ∧
  (∀ v < 10, dec10 (enc10 v) = some v) ∧ (∀ v < 36, dec36 (enc36 v) = some v) ∧
  (∀ v < 11, dec11 (enc11 v) = some v) ∧ (∀ v < 37, dec37 (enc37 v) = some v) ∧
  (∀ v < 58, dec58 (enc58 v) = some v) ∧
  (∀ b v, dec10 b = some v → v < 10 ∧ enc10 v = b) ∧ (∀ b v, dec58 b = some v → v < 58 ∧ enc58 v = b)

/-! ## The step -/

/-- A step runs the decoded command: with a command in flight and the unit's turn, the step is `exec` of
the command CMD decodes to, the turn taken off the schedule; and a placed command byte runs next. -/
def Obligations.StepRunsTheCommandInFlight : Prop :=
  (∀ (s : State) (i : Instr), s.cfg.wf → (s.schedule = [] ∨ s.schedule.head? = some .unit) →
    busy s = true → decode s.cmd = .ok i →
      step s = exec i { s with schedule := s.schedule.tail }) ∧
  (∀ (s : State) (i : Instr), s.cfg.wf →
    step (s.withFetchWord 8 (encode i).toNat) = exec i { s with cmd := encode i, status := 0x01 })

/-- Outside a flight the unit's turn changes nothing but the schedule (10_state.md R24). -/
def Obligations.UnitWaitsOutsideAFlight : Prop :=
  ∀ s : State, s.cfg.wf → (s.schedule = [] ∨ s.schedule.head? = some .unit) → busy s = false →
    step s = .next { s with schedule := s.schedule.tail }

/-- An illegal byte written to CMD starts a command like any other and completes with E_ILLEGAL_CMD,
whatever the operand registers and buffers hold, which stay (60_exceptions.md R236, R238). That no OBUF
byte keeps a written value is the model's form of "unspecified" (log 9, a DESIGN CHOICE). -/
def Obligations.IllegalByteCompletesWithIllegalCmd : Prop :=
  ∀ (s : State) (v : Byte) (e : DecodeError) (rest : List Turn), s.cfg.wf → busy s = false →
    s.schedule = .host (.write 0x000 v) :: .unit :: rest → decode v = .error e →
    ∃ u t, step s = .next u ∧ u.cmd = v ∧ u.status = 0x01 ∧
      step u = .next t ∧ t.cmd = v ∧ t.status = 0x7A ∧ t.olen = 0 ∧
      outputEndsAt t 0 ∧ t.ilen = s.ilen ∧ t.wlen = s.wlen ∧ t.schedule = rest ∧
      ∀ a < obufBase, bufferByte t a = bufferByte s a

/-- Every step keeps the invariant of the unit. -/
def Obligations.StepKeepsInvariant : Prop :=
  ∀ s t : State, Inv s → step s = .next t → Inv t

/-- Reset meets the invariant. -/
def Obligations.ResetMeetsInvariant : Prop := Inv State.reset

/-- The step stops on nothing but a configuration that breaks R6: no command, operand, access or phase
ends a run (60_exceptions.md R239, 40_common_operation.md R92; 93 P3 for the refusal, log 5). -/
def Obligations.StepStopsOnlyOnIllFormedConfiguration : Prop :=
  (∀ s : State, s.cfg.wf → ∃ t, step s = .next t) ∧
  (∀ s : State, ¬ s.cfg.wf → step s = .refused .badConfiguration)

/-- Reset in any phase (70_reset_and_hazards.md R260): the registers at 0x00, no flight left to complete,
no buffer byte with a written value. -/
def Obligations.ResetClearsEveryPhase : Prop :=
  ∀ (s : State) (rest : List Turn), s.cfg.wf → s.schedule = .host .reset :: rest →
    ∃ t, step s = .next t ∧ t.cmd = 0x00 ∧ t.status = 0x00 ∧ t.ilen = 0x00 ∧ t.wlen = 0x00 ∧
      t.olen = 0x00 ∧ (∀ a, Memory.lookup t.mem a = none) ∧ busy t = false ∧ t.schedule = rest ∧
      t.cfg = s.cfg

/-! ## The register port -/

/-- What a host read returns outside a flight, by address (20_memory.md R42), and that it changes nothing
but the read log (R43). -/
def Obligations.IdleReadReturnsTheMapEntry : Prop :=
  ∀ (s : State) (a : PortAddr) (rest : List Turn), s.cfg.wf → busy s = false →
    s.schedule = .host (.read a) :: rest →
    ∃ b, step s = .next { s with schedule := rest, returned := (a.toNat, b) :: s.returned } ∧
      (a.toNat = 0x000 → b = s.cmd) ∧ (a.toNat = 0x001 → b = s.status) ∧
      (a.toNat = 0x002 → b = s.ilen) ∧ (a.toNat = 0x003 → b = s.wlen) ∧
      (a.toNat = 0x004 → b = s.olen) ∧
      (∀ k < s.cfg.ibufMax, a.toNat = 0x100 + k → b = bufferByte s (0x100 + k)) ∧
      (∀ k < s.cfg.wbufMax, a.toNat = 0x200 + k → b = bufferByte s (0x200 + k)) ∧
      (∀ k < s.cfg.obufMax, a.toNat = 0x300 + k → b = bufferByte s (0x300 + k))

/-- What a host read returns in flight (20_memory.md R51): the frozen value of everything but OLEN and
OBUF; those give the free value of this read, and the next such read draws anew (the model's form of
"unspecified", log 10). A read of anything else draws nothing. -/
def Obligations.BusyReadReturnsFrozenOrFree : Prop :=
  ∀ (s : State) (a : PortAddr) (rest : List Turn), s.cfg.wf → s.status = 0x01 →
    s.schedule = .host (.read a) :: rest →
    ∃ b n, step s = .next { s with schedule := rest, returned := (a.toNat, b) :: s.returned, busyReads := n } ∧
      (a.toNat = 0x000 → b = s.cmd) ∧ (a.toNat = 0x001 → b = 0x01) ∧
      (a.toNat = 0x002 → b = s.ilen) ∧ (a.toNat = 0x003 → b = s.wlen) ∧
      (∀ k < s.cfg.ibufMax, a.toNat = 0x100 + k → b = bufferByte s (0x100 + k)) ∧
      (∀ k < s.cfg.wbufMax, a.toNat = 0x200 + k → b = bufferByte s (0x200 + k)) ∧
      ((a.toNat = 0x004 ∨ ∃ k < s.cfg.obufMax, a.toNat = 0x300 + k) →
        b = Config.busyByte s.busyReads ∧ n = s.busyReads + 1) ∧
      (¬ (a.toNat = 0x004 ∨ ∃ k < s.cfg.obufMax, a.toNat = 0x300 + k) → n = s.busyReads)

/-- A read of a reserved address returns 0x00, and a write to a reserved or read-only address changes
nothing, in any phase (20_memory.md R44). -/
def Obligations.ReservedAndReadOnlyAddresses : Prop :=
  ∀ (s : State) (a : PortAddr) (rest : List Turn), s.cfg.wf →
    let reserved :=
      (0x005 ≤ a.toNat ∧ a.toNat ≤ 0x0FF) ∨ (0x100 + s.cfg.ibufMax ≤ a.toNat ∧ a.toNat ≤ 0x1FF) ∨
      (0x200 + s.cfg.wbufMax ≤ a.toNat ∧ a.toNat ≤ 0x2FF) ∨ 0x300 + s.cfg.obufMax ≤ a.toNat
    let readOnly :=
      a.toNat = 0x001 ∨ a.toNat = 0x004 ∨ (0x300 ≤ a.toNat ∧ a.toNat < 0x300 + s.cfg.obufMax)
    (reserved → s.schedule = .host (.read a) :: rest →
      step s = .next { s with schedule := rest, returned := (a.toNat, 0x00) :: s.returned }) ∧
    (∀ v, reserved ∨ readOnly → s.schedule = .host (.write a v) :: rest →
      step s = .next { s with schedule := rest })

/-- Every host write in flight is ignored (20_memory.md R50). -/
def Obligations.BusyWriteIsIgnored : Prop :=
  ∀ (s : State) (a : PortAddr) (v : Byte) (rest : List Turn), s.cfg.wf → busy s = true →
    s.schedule = .host (.write a v) :: rest → step s = .next { s with schedule := rest }

/-- Outside a flight a write to ILEN, WLEN, IBUF or WBUF is stored and changes nothing else
(20_memory.md R42, 10_state.md R14, R15, R17, R18). -/
def Obligations.IdleWriteStores : Prop :=
  ∀ (s : State) (a : PortAddr) (v : Byte) (rest : List Turn), s.cfg.wf → busy s = false →
    s.schedule = .host (.write a v) :: rest →
    (a.toNat = 0x002 → step s = .next { s with schedule := rest, ilen := v }) ∧
    (a.toNat = 0x003 → step s = .next { s with schedule := rest, wlen := v }) ∧
    ((∃ k < s.cfg.ibufMax, a.toNat = 0x100 + k) ∨ (∃ k < s.cfg.wbufMax, a.toNat = 0x200 + k) →
      ∃ t, step s = .next t ∧ t = { s with schedule := rest, mem := t.mem } ∧
        bufferByte t a.toNat = v ∧ ∀ a', a' ≠ a.toNat → bufferByte t a' = bufferByte s a')

/-- A write to CMD outside a flight starts the command (40_common_operation.md R90): CMD takes the byte,
STATUS becomes 0x01, the operands stay, and the previous result is gone: OLEN is cleared (92 D6; what a
read in flight returns is R51's, log 11), and no OBUF byte keeps a written value (the model's form of
"unspecified", log 9). -/
def Obligations.CommandStart : Prop :=
  ∀ (s : State) (v : Byte) (rest : List Turn), s.cfg.wf → busy s = false →
    s.schedule = .host (.write 0x000 v) :: rest →
    ∃ t, step s = .next t ∧ t.cmd = v ∧ t.status = 0x01 ∧ t.olen = 0x00 ∧ t.ilen = s.ilen ∧ t.wlen = s.wlen ∧
      t.cfg = s.cfg ∧ t.schedule = rest ∧ t.returned = s.returned ∧ outputEndsAt t 0 ∧
      ∀ a < obufBase, bufferByte t a = bufferByte s a

/-! ## The frame of the commands -/

/-- The three completions (40_common_operation.md R99, R100, R101). That a byte of OBUF that "becomes
unspecified" keeps no written value is the model's form of it (log 9, a DESIGN CHOICE). -/
def Obligations.CompletionsWriteResultAndStatus : Prop :=
  ∀ s : State, s.cfg.wf →
    (∀ out : List Byte, out.length ≤ s.cfg.obufMax →
      ∃ t, complete (.ok out) s = .next t ∧ hasOutput t out ∧ outputEndsAt t out.length) ∧
    (∀ e, ∃ t, complete (.err e) s = .next t ∧ t.olen = 0 ∧ outputEndsAt t 0 ∧
      t.status.toNat = 0x0A + 16 * ecodeOf e ∧ 1 ≤ ecodeOf e ∧ ecodeOf e ≤ 7) ∧
    (∃ t, complete (.verdict true) s = .next t ∧ t.olen = 0 ∧ outputEndsAt t 0 ∧ t.status = 0x06) ∧
    (∃ t, complete (.verdict false) s = .next t ∧ t.olen = 0 ∧ outputEndsAt t 0 ∧ t.status = 0x02)

/-- What every command leaves untouched (40_common_operation.md R103): CMD, ILEN, WLEN, every byte of
IBUF and WBUF, and the model's own fields but the draw count; and OBUF holds no written value from
index OLEN on (R19; log 9). -/
def Obligations.CommandsLeaveOperandsUntouched : Prop :=
  ∀ (i : Instr) (s t : State), s.cfg.wf → exec i s = .next t →
    t.cmd = s.cmd ∧ t.ilen = s.ilen ∧ t.wlen = s.wlen ∧ t.cfg = s.cfg ∧ t.schedule = s.schedule ∧
    t.returned = s.returned ∧ t.resets = s.resets ∧ t.busyReads = s.busyReads ∧
    (∀ a < obufBase, bufferByte t a = bufferByte s a) ∧ outputEndsAt t t.olen.toNat

/-- Every command completes, from every state with a well-formed configuration, with a STATUS that
60_exceptions.md R233 allows it (40_common_operation.md R92). -/
def Obligations.EveryCommandCompletes : Prop :=
  ∀ (i : Instr) (s : State), s.cfg.wf → ∃ t, exec i s = .next t ∧ t.status ∈ completionStatuses i

/-- A permissive command ends in a verdict, never in an error, under any configuration and operand
(40_common_operation.md R97); it is "not valid" on an operand that is too long, too short, or holds a
character outside the alphabet of its position. Under HYBRID (92 D22) the check character of ISO3736.V
is read with DEC36, so a final asterisk is "not valid". -/
def Obligations.PermissiveCommandsGiveVerdicts : Prop :=
  (∀ i dec decCheck, (i, dec, decCheck) ∈ validateCommands → ∀ s : State,
    ∃ t, exec i s = .next t ∧ t.olen = 0 ∧ (t.status = 0x06 ∨ t.status = 0x02) ∧
      ((s.cfg.ibufMax < s.ilen.toNat ∨ s.ilen.toNat < (if i = .iso97V then 2 else 1) ∨
          (∃ b ∈ (operand s).dropLast, dec b = none) ∨
          (∃ b ∈ (operand s).getLast?, decCheck b = none)) →
        t.status = 0x02)) ∧
  (dec36 0x2A = none ∧ ∀ s : State, s.cfg.iso3736 = .hybrid →
    (∃ b ∈ (operand s).getLast?, dec36 b = none) →
    ∃ t, exec .iso3736V s = .next t ∧ t.status = 0x02 ∧ t.olen = 0)

/-- The symbol scan (40_common_operation.md R94) for an operand that passes the capacity check: a
character without a value is E_INVALID_CHAR for a strict checksum command, E_FORMAT for B58C.DEC,
"not valid" for a permissive command, wherever it stands. -/
def Obligations.InvalidCharacterOutcomes : Prop :=
  (∀ i dec, (i, dec) ∈ computeCommands → ∀ s : State, s.ilen.toNat ≤ s.cfg.ibufMax →
    (i ∈ weightCommands → s.wlen.toNat ≤ s.cfg.wbufMax ∧ s.ilen.toNat ≤ s.wlen.toNat) →
    (∃ b ∈ operand s, dec b = none) → ∃ t, exec i s = .next t ∧ failedWith t 0x1A) ∧
  (∀ s : State, s.ilen.toNat ≤ s.cfg.ibufMax → (∃ b ∈ operand s, dec58 b = none) →
    ∃ t, exec .b58cDec s = .next t ∧ failedWith t 0x3A) ∧
  (∀ i dec decCheck, (i, dec, decCheck) ∈ validateCommands → ∀ (s : State) (chars : List Byte) (c : Byte),
    operand s = chars ++ [c] → ((∃ b ∈ chars, dec b = none) ∨ decCheck c = none) →
    ∃ t, exec i s = .next t ∧ t.status = 0x02 ∧ t.olen = 0)

/-- The capacity checks come first (40_common_operation.md R93 step 2, 41 R120, 60 R235): a strict command
that does not fit is E_LENGTH and a permissive one "not valid", whatever the buffers hold. -/
def Obligations.CapacityCheckComesFirst : Prop :=
  (∀ i ∈ strictCommands, ∀ s : State, s.cfg.ibufMax < s.ilen.toNat →
    ∃ t, exec i s = .next t ∧ failedWith t 0x6A) ∧
  (∀ i ∈ [Instr.wmod11CL, Instr.wmod11CR], ∀ s : State,
    s.cfg.wbufMax < s.wlen.toNat ∨ s.wlen.toNat < s.ilen.toNat →
    ∃ t, exec i s = .next t ∧ failedWith t 0x6A) ∧
  (∀ i ∈ permissiveCommands, ∀ s : State, s.cfg.ibufMax < s.ilen.toNat →
    ∃ t, exec i s = .next t ∧ t.status = 0x02 ∧ t.olen = 0) ∧
  (∀ i ∈ [Instr.wmod11VL, Instr.wmod11VR], ∀ s : State,
    s.cfg.wbufMax < s.wlen.toNat ∨ s.wlen.toNat + 1 < s.ilen.toNat →
    ∃ t, exec i s = .next t ∧ t.status = 0x02 ∧ t.olen = 0)

/-- Every command is a pure function of its operands (00_scope.md R9): states that agree on them give
the same STATUS, OLEN and result bytes, whatever else they hold. -/
def Obligations.CommandsArePureFunctions : Prop :=
  ∀ (i : Instr) (s s' t : State), sameOperands i s s' → exec i s = .next t →
    ∃ t', exec i s' = .next t' ∧ t'.status = t.status ∧ t'.olen = t.olen ∧ resultBytes t' = resultBytes t

/-- Every command on the empty sequence (70_reset_and_hazards.md R265, 40_common_operation.md R98, 60
R233), with its own seed's result. ISO3736 is read as PURE here. -/
def Obligations.EmptyOperandResults : Prop :=
  ∀ s : State, s.cfg.wf → s.ilen = 0 → s.wlen.toNat ≤ s.cfg.wbufMax → s.cfg.iso3736 = .pure →
    (∀ p ∈ ([(.luhn10C, [0x30]), (.luhn36C, [0x30]), (.gs1C, [0x30]), (.wmod11CL, [0x30]),
        (.wmod11CR, [0x30]), (.dammC, [0x30]), (.verhC, [0x30]), (.iso97C, [0x39, 0x38]),
        (.iso1110C, [0x31]), (.iso112C, [0x31]), (.iso3736C, [0x31])] : List (Instr × List Byte)),
      ∃ t, exec p.1 s = .next t ∧ hasOutput t p.2) ∧
    (∀ i ∈ permissiveCommands, ∃ t, exec i s = .next t ∧ t.status = 0x02 ∧ t.olen = 0) ∧
    (∀ i ∈ [Instr.b58cEnc, Instr.b58cDec], ∃ t, exec i s = .next t ∧ failedWith t 0x2A)

/-- A flight is not disturbed (40_common_operation.md R91, R92, 20_memory.md R50, R54): whatever the host
reads and writes meanwhile, the completion is that of the operands at the start. -/
def Obligations.FlightIsUndisturbed : Prop :=
  ∀ (s u : State) (i : Instr) (hs : List HostAccess) (rest : List Turn), s.cfg.wf → busy s = true →
    decode s.cmd = .ok i → (∀ a ∈ hs, a ≠ .reset) →
    s.schedule = hs.map Turn.host ++ .unit :: rest → exec i s = .next u →
    ∃ t, Host.Core.run Sys2Proof.core (hs.length + 1) s = .next t ∧
      t = { u with schedule := rest, returned := t.returned, busyReads := t.busyReads }

/-- One CALL is one call of a source function (30_encoding.md R81). Its first clause ends with the unit's
turn: loading `chars`, issuing `i` and waiting any number of polls gives the STATUS, OLEN and result that
`i` has on `chars`. Its second clause is the whole CALL: after the unit's turn the last read of WAIT and
the read of STATUS return the STATUS of the command, and RDO returns OLEN and every result byte in
order. -/
def Obligations.CallDeliversTheCommandResult : Prop :=
  ∀ (s u r : State) (i : Instr) (chars : List Byte) (polls : Nat) (rest : List Turn),
    s.cfg.wf → busy s = false → chars.length ≤ s.cfg.ibufMax →
    u.cfg = s.cfg → operand u = chars → (i ∈ weightCommands → sameWeights s u) → exec i u = .next r →
    (s.schedule = (loadInput chars ++ [issue i]).map Turn.host ++
        (List.replicate polls (Turn.host (.read 0x001)) ++ .unit :: rest) →
      ∃ t, Host.Core.run Sys2Proof.core (chars.length + 2 + polls + 1) s = .next t ∧
        t.cmd = encode i ∧ operand t = chars ∧ t.status = r.status ∧ t.olen = r.olen ∧
        resultBytes t = resultBytes r ∧ t.schedule = rest ∧
        t.returned = List.replicate polls (0x001, 0x01) ++ s.returned) ∧
    (s.schedule = callTurns i chars polls r.olen.toNat ++ rest →
      ∃ t, Host.Core.run Sys2Proof.core (callTurns i chars polls r.olen.toNat).length s = .next t ∧
        t.cmd = encode i ∧ operand t = chars ∧ t.status = r.status ∧ t.olen = r.olen ∧
        resultBytes t = resultBytes r ∧ t.schedule = rest ∧
        t.returned =
          (cellsFrom 0x300 (resultBytes r)).reverse ++ (0x004, r.olen) :: (0x001, r.status) ::
            (0x001, r.status) :: (List.replicate polls (0x001, 0x01) ++ s.returned))

/-! ## Weighted positional checksums -/

/-- LUHN10.C and LUHN36.C (41 R112, R114): the check value is the one value below the modulus that
completes the Luhn sum, the rightmost payload value doubled, to a multiple of the modulus. -/
def Obligations.LuhnComputeCompletesTheSum : Prop :=
  ∀ (s : State) (v : List Nat), s.cfg.wf → s.ilen.toNat ≤ s.cfg.ibufMax →
    (spells dec10 (operand s) v → ∃ t c, exec .luhn10C s = .next t ∧ hasOutput t [enc10 c] ∧ c < 10 ∧
      10 ∣ luhnTotal 10 0 v + c) ∧
    (spells dec36 (operand s) v → ∃ t c, exec .luhn36C s = .next t ∧ hasOutput t [enc36 c] ∧ c < 36 ∧
      36 ∣ luhnTotal 36 0 v + c)

/-- LUHN10.V and LUHN36.V (41 R113, R115; 90 C1): valid exactly when the sum with the check character
undoubled is a multiple of the modulus and there is at least one character. -/
def Obligations.LuhnValidateChecksTheSum : Prop :=
  ∀ (s : State) (v : List Nat), s.ilen.toNat ≤ s.cfg.ibufMax →
    (spells dec10 (operand s) v → ∃ t, exec .luhn10V s = .next t ∧
      verdictIs t (1 ≤ s.ilen.toNat ∧ 10 ∣ luhnTotal 10 1 v)) ∧
    (spells dec36 (operand s) v → ∃ t, exec .luhn36V s = .next t ∧
      verdictIs t (1 ≤ s.ilen.toNat ∧ 36 ∣ luhnTotal 36 1 v))

/-- GS1.C and GS1.V (41 R116, R117): the check digit completes the 3/1 sum to a multiple of 10; valid
exactly when the sum with weight 1 at the check digit is a multiple of 10. -/
def Obligations.Gs1SumsAreMultiplesOfTen : Prop :=
  ∀ (s : State) (v : List Nat), s.cfg.wf → s.ilen.toNat ≤ s.cfg.ibufMax → spells dec10 (operand s) v →
    (∃ t c, exec .gs1C s = .next t ∧ hasOutput t [enc10 c] ∧ c < 10 ∧ 10 ∣ gs1Total 0 v + c) ∧
    (∃ t, exec .gs1V s = .next t ∧ verdictIs t (1 ≤ s.ilen.toNat ∧ 10 ∣ gs1Total 1 v))

/-- WMOD11.C.L and WMOD11.C.R (41 R119, R121): the plain remainder of the weighted sum. -/
def Obligations.WeightedComputeIsTheRemainder : Prop :=
  ∀ (s : State) (v : List Nat), s.cfg.wf → s.ilen.toNat ≤ s.cfg.ibufMax →
    s.wlen.toNat ≤ s.cfg.wbufMax → s.ilen.toNat ≤ s.wlen.toNat → spells dec10 (operand s) v →
    (∃ t, exec .wmod11CL s = .next t ∧ hasOutput t [enc11 (weightedLeft s v % 11)]) ∧
    (∃ t, exec .wmod11CR s = .next t ∧ hasOutput t [enc11 (weightedRight s v % 11)])

/-- WMOD11.V.L and WMOD11.V.R (41 R119, R122): valid exactly when the remainder of the payload's weighted
sum is the check value. -/
def Obligations.WeightedValidateComparesTheRemainder : Prop :=
  ∀ (s : State) (chars : List Byte) (b : Byte) (v : List Nat) (c : Nat),
    s.ilen.toNat ≤ s.cfg.ibufMax → s.wlen.toNat ≤ s.cfg.wbufMax → s.ilen.toNat ≤ s.wlen.toNat + 1 →
    operand s = chars ++ [b] → spells dec10 chars v → dec11 b = some c →
    (∃ t, exec .wmod11VL s = .next t ∧ verdictIs t (weightedLeft s v % 11 = c)) ∧
    (∃ t, exec .wmod11VR s = .next t ∧ verdictIs t (weightedRight s v % 11 = c))

/-! ## Damm and Verhoeff -/

/-- The four properties of DAMM_T (42_damm.md R142), the fourth being the falsity of the source's
sentence, and the model's table against its second listing (R141). -/
def Obligations.DammTableProperties : Prop :=
  (∀ c < 10, ∀ d < 10, tableEntry dammTable c d = dammEntry c d) ∧
  (∀ c < 10, ∀ z < 10, (∃ x < 10, dammEntry c x = z) ∧ (∃ x < 10, dammEntry x c = z)) ∧
  (∀ c < 10, ∀ x < 10, dammEntry c x = 0 ↔ x = c) ∧
  (∀ c < 10, ∀ x < 10, ∀ y < 10,
    dammEntry (dammEntry c x) y = dammEntry (dammEntry c y) x → x = y) ∧
  (dammEntry 0 9 = 2 ∧ dammEntry 9 0 = 2 ∧ dammEntry 1 4 = 1 ∧ dammEntry 4 1 = 1 ∧
    dammEntry 2 5 = 7 ∧ dammEntry 5 2 = 7 ∧ dammEntry 7 9 = 7 ∧ dammEntry 9 7 = 7)

/-- DAMM.C (42_damm.md R143): the check digit is the fold's final accumulator, and it folds to 0 when
appended (R142 property 2). -/
def Obligations.DammComputeIsTheFold : Prop :=
  ∀ (s : State) (v : List Nat), s.cfg.wf → s.ilen.toNat ≤ s.cfg.ibufMax → spells dec10 (operand s) v →
    ∃ t, exec .dammC s = .next t ∧ hasOutput t [enc10 (dammOf v)] ∧ dammOf v < 10 ∧
      dammOf (v ++ [dammOf v]) = 0

/-- DAMM.V (42_damm.md R144): valid exactly when there is a digit and the fold ends at 0. -/
def Obligations.DammValidateFoldsToZero : Prop :=
  ∀ (s : State) (v : List Nat), s.ilen.toNat ≤ s.cfg.ibufMax → spells dec10 (operand s) v →
    ∃ t, exec .dammV s = .next t ∧ verdictIs t (1 ≤ s.ilen.toNat ∧ dammOf v = 0)

/-- DAMM.V detects every single error and every adjacent transposition (42_damm.md R145). -/
def Obligations.DammDetectsErrors : Prop :=
  ∀ (s s' t : State) (pre post : List Byte) (a b : Byte), a ≠ b → exec .dammV s = .next t →
    t.status = 0x06 →
    (operand s = pre ++ a :: post → operand s' = pre ++ b :: post →
      ∃ t', exec .dammV s' = .next t' ∧ t'.status = 0x02) ∧
    (operand s = pre ++ a :: b :: post → operand s' = pre ++ b :: a :: post →
      ∃ t', exec .dammV s' = .next t' ∧ t'.status = 0x02)

/-- The Verhoeff tables (43_verhoeff.md R151, R152, R153): the product in closed form, the rows of VERH_P
as compositions of row 1, and the inverses. -/
def Obligations.VerhoeffTableProperties : Prop :=
  (∀ a < 10, ∀ b < 10, tableEntry verhD a b = dihedral a b) ∧
  (∀ r < 8, ∀ x < 10, tableEntry verhP r x = verhStep^[r] x) ∧
  (∀ x < 10, verhStep^[8] x = x) ∧
  (∀ x < 10, tableEntry verhD x (verhInv.getD x 0) = 0 ∧ tableEntry verhD (verhInv.getD x 0) x = 0)

/-- VERH.C (43_verhoeff.md R154, R156): the check digit is the one whose product with the payload's,
folded at offset 1, is the identity. -/
def Obligations.VerhoeffComputeInvertsTheProduct : Prop :=
  ∀ (s : State) (v : List Nat), s.cfg.wf → s.ilen.toNat ≤ s.cfg.ibufMax → spells dec10 (operand s) v →
    ∃ t c, exec .verhC s = .next t ∧ hasOutput t [enc10 c] ∧ c < 10 ∧
      dihedral (verhProduct v 1) c = 0 ∧ verhProduct (v ++ [c]) 0 = 0

/-- VERH.V (43_verhoeff.md R155): valid exactly when there is a digit and the product at offset 0 is the
identity. -/
def Obligations.VerhoeffValidateProductIsIdentity : Prop :=
  ∀ (s : State) (v : List Nat), s.ilen.toNat ≤ s.cfg.ibufMax → spells dec10 (operand s) v →
    ∃ t, exec .verhV s = .next t ∧ verdictIs t (1 ≤ s.ilen.toNat ∧ verhProduct v 0 = 0)

/-- VERH.V detects every single error and every adjacent transposition, and the table law behind the
second (43_verhoeff.md R157). -/
def Obligations.VerhoeffDetectsErrors : Prop :=
  (∀ c < 10, ∀ r < 8, ∀ a < 10, ∀ b < 10, a ≠ b →
    tableEntry verhD (tableEntry verhD c (tableEntry verhP r b)) (tableEntry verhP ((r + 1) % 8) a) ≠
      tableEntry verhD (tableEntry verhD c (tableEntry verhP r a)) (tableEntry verhP ((r + 1) % 8) b)) ∧
  (∀ (s s' t : State) (pre post : List Byte) (a b : Byte), a ≠ b → exec .verhV s = .next t →
    t.status = 0x06 →
    (operand s = pre ++ a :: post → operand s' = pre ++ b :: post →
      ∃ t', exec .verhV s' = .next t' ∧ t'.status = 0x02) ∧
    (operand s = pre ++ a :: b :: post → operand s' = pre ++ b :: a :: post →
      ∃ t', exec .verhV s' = .next t' ∧ t'.status = 0x02))

/-! ## ISO 7064 -/

/-- ISO97.C (44_iso7064.md R161, R163): two digits with value 2 to 98 that make the whole number congruent
to 1 modulo 97. -/
def Obligations.Iso97ComputeMakesRemainderOne : Prop :=
  ∀ (s : State) (v : List Nat), s.cfg.wf → s.ilen.toNat ≤ s.cfg.ibufMax → spells dec10 (operand s) v →
    ∃ t cc, exec .iso97C s = .next t ∧ hasOutput t [enc10 (cc / 10), enc10 (cc % 10)] ∧
      2 ≤ cc ∧ cc ≤ 98 ∧ (100 * decimal v + cc) % 97 = 1

/-- ISO97.V (44_iso7064.md R162): valid exactly when there are two digits and the number is congruent to
1 modulo 97. -/
def Obligations.Iso97ValidateRemainderIsOne : Prop :=
  ∀ (s : State) (v : List Nat), s.ilen.toNat ≤ s.cfg.ibufMax → spells dec10 (operand s) v →
    ∃ t, exec .iso97V s = .next t ∧ verdictIs t (2 ≤ s.ilen.toNat ∧ decimal v % 97 = 1)

/-- The check pairs ISO97.V accepts (44_iso7064.md R163): the pair ISO97.C computes, and the aliases 00
for 97, 01 for 98, 99 for 02. -/
def Obligations.Iso97AcceptedPairs : Prop :=
  ∀ (s : State) (v : List Nat), s.cfg.wf → s.ilen.toNat ≤ s.cfg.ibufMax → spells dec10 (operand s) v →
    ∃ t cc, exec .iso97C s = .next t ∧ hasOutput t [enc10 (cc / 10), enc10 (cc % 10)] ∧ cc < 100 ∧
      ∀ (s' : State) (a b : Nat), a < 10 → b < 10 → s'.ilen.toNat ≤ s'.cfg.ibufMax →
        operand s' = operand s ++ [enc10 a, enc10 b] →
        ∃ t', exec .iso97V s' = .next t' ∧
          verdictIs t' (10 * a + b = cc ∨ (cc = 97 ∧ 10 * a + b = 0) ∨ (cc = 98 ∧ 10 * a + b = 1) ∨
            (cc = 2 ∧ 10 * a + b = 99))

/-- ISO1110.C and ISO1110.V (44_iso7064.md R164, R165, R166): the computed digit brings the recurrence to
1, and valid means that it ends at 1. -/
def Obligations.Iso1110RecurrenceEndsAtOne : Prop :=
  ∀ (s : State) (v : List Nat), s.cfg.wf → s.ilen.toNat ≤ s.cfg.ibufMax → spells dec10 (operand s) v →
    (∃ t c, exec .iso1110C s = .next t ∧ hasOutput t [enc10 c] ∧ c < 10 ∧
      (v ++ [c]).foldl iso1110Next 5 = 1) ∧
    (∃ t, exec .iso1110V s = .next t ∧
      verdictIs t (1 ≤ s.ilen.toNat ∧ v.foldl iso1110Next 5 = 1))

/-- ISO112.C (44_iso7064.md R167, R169): the check value is the one in 0 .. 10 that makes the sum of
values times powers of 2 congruent to 1 modulo 11. -/
def Obligations.Iso112ComputeSolvesTheCongruence : Prop :=
  ∀ (s : State) (v : List Nat), s.cfg.wf → s.ilen.toNat ≤ s.cfg.ibufMax → spells dec10 (operand s) v →
    ∃ t c, exec .iso112C s = .next t ∧ hasOutput t [enc11 c] ∧ c ≤ 10 ∧ (pureTotal 2 v + c) % 11 = 1

/-- ISO112.V (44_iso7064.md R168): the final character is left out of the sum and solves the
congruence. -/
def Obligations.Iso112ValidateChecksTheCongruence : Prop :=
  ∀ (s : State) (chars : List Byte) (b : Byte) (v : List Nat) (c : Nat),
    s.ilen.toNat ≤ s.cfg.ibufMax → operand s = chars ++ [b] → spells dec10 chars v → dec11 b = some c →
    ∃ t, exec .iso112V s = .next t ∧ verdictIs t ((pureTotal 2 v + c) % 11 = 1)

/-- ISO3736.C as PURE (44_iso7064.md R170, R172). -/
def Obligations.Iso3736PureComputeSolvesTheCongruence : Prop :=
  ∀ (s : State) (v : List Nat), s.cfg.wf → s.cfg.iso3736 = .pure → s.ilen.toNat ≤ s.cfg.ibufMax →
    spells dec36 (operand s) v →
    ∃ t c, exec .iso3736C s = .next t ∧ hasOutput t [enc37 c] ∧ c ≤ 36 ∧ (pureTotal 36 v + c) % 37 = 1

/-- ISO3736.V as PURE (44_iso7064.md R171). -/
def Obligations.Iso3736PureValidateChecksTheCongruence : Prop :=
  ∀ (s : State) (chars : List Byte) (b : Byte) (v : List Nat) (c : Nat), s.cfg.iso3736 = .pure →
    s.ilen.toNat ≤ s.cfg.ibufMax → operand s = chars ++ [b] → spells dec36 chars v → dec37 b = some c →
    ∃ t, exec .iso3736V s = .next t ∧ verdictIs t ((pureTotal 36 v + c) % 37 = 1)

/-- ISO3736.C and ISO3736.V as HYBRID (92 D22): the computed character solves the final congruence, and
valid means that the last character does. -/
def Obligations.Iso3736HybridSolvesTheCongruence : Prop :=
  ∀ (s : State), s.cfg.wf → s.cfg.iso3736 = .hybrid → s.ilen.toNat ≤ s.cfg.ibufMax →
    (∀ v, spells dec36 (operand s) v →
      ∃ t c, exec .iso3736C s = .next t ∧ hasOutput t [enc36 c] ∧ c < 36 ∧
        (v.foldl hybridNext 36 + c) % 36 = 1) ∧
    (∀ chars b v c, operand s = chars ++ [b] → spells dec36 chars v → dec36 b = some c →
      ∃ t, exec .iso3736V s = .next t ∧ verdictIs t ((v.foldl hybridNext 36 + c) % 36 = 1))

/-! ## Laws of all checksum schemes -/

/-- Round trip (40_common_operation.md R102): a payload followed by the output of the compute command is
valid for the validate command, under the same parameters and, for WMOD11, the same weights. -/
def Obligations.ComputeThenValidateIsValid : Prop :=
  ∀ p ∈ schemePairs, ∀ s t s' : State, s.cfg.wf → exec p.1 s = .next t → t.status = 0x02 →
    s'.cfg = s.cfg → (p.1 ∈ weightCommands → sameWeights s s') → operand s' = operand s ++ resultBytes t →
    s'.ilen.toNat ≤ s'.cfg.ibufMax →
    ∃ t', exec p.2 s' = .next t' ∧ t'.status = 0x06 ∧ t'.olen = 0

/-- Each validate command but ISO97.V accepts at most one check value for a payload (41 R125, 42 R144,
43 R156, 44 R166, R169, R172). -/
def Obligations.AtMostOneCheckValue : Prop :=
  ∀ i dec decCheck, (i, dec, decCheck) ∈ validateCommands → i ≠ .iso97V →
    ∀ (s s' t t' : State) (chars : List Byte) (b b' : Byte),
      s'.cfg = s.cfg → (i ∈ weightCommands → sameWeights s s') → operand s = chars ++ [b] → operand s' = chars ++ [b'] →
      exec i s = .next t → t.status = 0x06 → exec i s' = .next t' → t'.status = 0x06 →
      decCheck b = decCheck b'

/-! ## Base58Check -/

/-- The padded message of SHA256 (46_sha256.md R213): the least number of zero bytes that makes the length
a multiple of 64, then the bit length in 8 bytes; and the digest has 32 bytes (R218). -/
def Obligations.ShaPaddingAndDigestLength : Prop :=
  ∀ m : List Byte, 8 * m.length < 2 ^ 64 →
    (sha256 m).length = 32 ∧ (shaPad m).length % 64 = 0 ∧
    ∃ k len8, shaPad m = m ++ [0x80] ++ List.replicate k 0x00 ++ len8 ∧ len8.length = 8 ∧
      bytesValue len8 = 8 * m.length ∧ (m.length + 1 + k) % 64 = 56 ∧
      ∀ k' < k, (m.length + 1 + k') % 64 ≠ 56

/-- B58C.ENC (45_base58check.md R194, R195): the text is one zero symbol for each leading zero byte of
payload and suffix, then the base-58 digits of its number, the first of them not 0. -/
def Obligations.EncodeWritesBase58OfPayloadAndSuffix : Prop :=
  ∀ s : State, s.cfg.wf → s.ilen.toNat ≤ s.cfg.ibufMax → 1 ≤ s.ilen.toNat →
    ∃ (t : State) (ds : List Nat), exec .b58cEnc s = .next t ∧
      hasOutput t (List.replicate (leadingCount 0x00 (operand s ++ suffix (operand s))) 0x31 ++
        ds.map enc58) ∧
      (∀ d ∈ ds, d < 58) ∧ ds.head? ≠ some 0 ∧
      Nat.ofDigits 58 ds.reverse = bytesValue (operand s ++ suffix (operand s))

/-- The output of B58C.ENC always fits OBUF, is never shorter than payload and suffix, and so never
shorter than 5 (45_base58check.md R197). -/
def Obligations.EncodedLengthBounds : Prop :=
  ∀ s : State, s.cfg.wf → s.ilen.toNat ≤ s.cfg.ibufMax → 1 ≤ s.ilen.toNat →
    ∃ t, exec .b58cEnc s = .next t ∧ t.status = 0x02 ∧ 5 ≤ t.olen.toNat ∧
      s.ilen.toNat + 4 ≤ t.olen.toNat ∧ t.olen.toNat ≤ (s.ilen.toNat + 4) * 138 / 100 + 1 ∧
      t.olen.toNat ≤ s.cfg.obufMax

/-- B58C.DEC (45_base58check.md R198, R199): the byte string with the text's number and as many leading
zero bytes as the text has leading zero symbols is too short, fails its suffix, or gives the payload. -/
def Obligations.DecodeChecksLengthThenSuffix : Prop :=
  ∀ (s : State) (v : List Nat) (data : List Byte), s.cfg.wf → s.ilen.toNat ≤ s.cfg.ibufMax →
    1 ≤ s.ilen.toNat → spells dec58 (operand s) v → bytesValue data = Nat.ofDigits 58 v.reverse →
    leadingCount 0x00 data = leadingCount 0x31 (operand s) →
    (data.length < 4 → ∃ t, exec .b58cDec s = .next t ∧ failedWith t 0x4A) ∧
    (∀ p x, data = p ++ x → x.length = 4 → suffix p ≠ x →
      ∃ t, exec .b58cDec s = .next t ∧ failedWith t 0x5A) ∧
    (∀ p x, data = p ++ x → x.length = 4 → suffix p = x →
      ∃ t, exec .b58cDec s = .next t ∧ hasOutput t p)

/-- Round trip (45_base58check.md R202): decoding the text of a payload gives the payload, for every
payload whose text fits IBUF. -/
def Obligations.EncodeThenDecodeReturnsPayload : Prop :=
  ∀ s t s' : State, s.cfg.wf → exec .b58cEnc s = .next t → t.status = 0x02 →
    s'.cfg.wf → operand s' = resultBytes t → s'.ilen.toNat ≤ s'.cfg.ibufMax →
    ∃ t', exec .b58cDec s' = .next t' ∧ hasOutput t' (operand s)

/-- Canonical texts (45_base58check.md R204): a text that decodes to a payload that is not empty is the
text that payload encodes to. -/
def Obligations.DecodeThenEncodeReturnsText : Prop :=
  ∀ s t s' : State, s.cfg.wf → exec .b58cDec s = .next t → t.status = 0x02 → t.olen ≠ 0 →
    s'.cfg.wf → operand s' = resultBytes t → s'.ilen.toNat ≤ s'.cfg.ibufMax →
    ∃ t', exec .b58cEnc s' = .next t' ∧ hasOutput t' (operand s)
end

