-- ==== Sys2Proof/Laws/State.lean ====
section
/-! SUPPORT. One lemma for each field of State and each update of it by a shared operation, all true by
definition, so that no proof unfolds a record update. -/

namespace Sys2Proof.Machine

/-! ### `redrawOutput` -/

@[simp] theorem redrawOutput_cmd (out : List Byte) (s : State) :
    (redrawOutput out s).cmd = s.cmd := rfl

@[simp] theorem redrawOutput_status (out : List Byte) (s : State) :
    (redrawOutput out s).status = s.status := rfl

@[simp] theorem redrawOutput_ilen (out : List Byte) (s : State) :
    (redrawOutput out s).ilen = s.ilen := rfl

@[simp] theorem redrawOutput_wlen (out : List Byte) (s : State) :
    (redrawOutput out s).wlen = s.wlen := rfl

@[simp] theorem redrawOutput_olen (out : List Byte) (s : State) :
    (redrawOutput out s).olen = s.olen := rfl

@[simp] theorem redrawOutput_mem (out : List Byte) (s : State) :
    (redrawOutput out s).mem = Memory.below s.mem obufBase ++ cellsFrom obufBase out := rfl

@[simp] theorem redrawOutput_cfg (out : List Byte) (s : State) :
    (redrawOutput out s).cfg = s.cfg := rfl

@[simp] theorem redrawOutput_schedule (out : List Byte) (s : State) :
    (redrawOutput out s).schedule = s.schedule := rfl

@[simp] theorem redrawOutput_returned (out : List Byte) (s : State) :
    (redrawOutput out s).returned = s.returned := rfl

@[simp] theorem redrawOutput_resets (out : List Byte) (s : State) :
    (redrawOutput out s).resets = s.resets := rfl

@[simp] theorem redrawOutput_redraws (out : List Byte) (s : State) :
    (redrawOutput out s).redraws = s.redraws + 1 := rfl

@[simp] theorem redrawOutput_busyReads (out : List Byte) (s : State) :
    (redrawOutput out s).busyReads = s.busyReads := rfl

/-! ### `startCommand` -/

@[simp] theorem startCommand_cmd (v : Byte) (s : State) :
    (startCommand v s).cmd = v := rfl

@[simp] theorem startCommand_status (v : Byte) (s : State) :
    (startCommand v s).status = statusBusy := rfl

@[simp] theorem startCommand_ilen (v : Byte) (s : State) :
    (startCommand v s).ilen = s.ilen := rfl

@[simp] theorem startCommand_wlen (v : Byte) (s : State) :
    (startCommand v s).wlen = s.wlen := rfl

@[simp] theorem startCommand_olen (v : Byte) (s : State) :
    (startCommand v s).olen = 0 := rfl

@[simp] theorem startCommand_mem (v : Byte) (s : State) :
    (startCommand v s).mem = Memory.below s.mem obufBase ++ cellsFrom obufBase [] := rfl

@[simp] theorem startCommand_cfg (v : Byte) (s : State) :
    (startCommand v s).cfg = s.cfg := rfl

@[simp] theorem startCommand_schedule (v : Byte) (s : State) :
    (startCommand v s).schedule = s.schedule := rfl

@[simp] theorem startCommand_returned (v : Byte) (s : State) :
    (startCommand v s).returned = s.returned := rfl

@[simp] theorem startCommand_resets (v : Byte) (s : State) :
    (startCommand v s).resets = s.resets := rfl

@[simp] theorem startCommand_redraws (v : Byte) (s : State) :
    (startCommand v s).redraws = s.redraws + 1 := rfl

@[simp] theorem startCommand_busyReads (v : Byte) (s : State) :
    (startCommand v s).busyReads = s.busyReads := rfl

/-! ### `completeErr` -/

@[simp] theorem completeErr_cmd (e : ErrorCode) (s : State) :
    (completeErr e s).cmd = s.cmd := rfl

@[simp] theorem completeErr_status (e : ErrorCode) (s : State) :
    (completeErr e s).status = statusErr e := rfl

@[simp] theorem completeErr_ilen (e : ErrorCode) (s : State) :
    (completeErr e s).ilen = s.ilen := rfl

@[simp] theorem completeErr_wlen (e : ErrorCode) (s : State) :
    (completeErr e s).wlen = s.wlen := rfl

@[simp] theorem completeErr_olen (e : ErrorCode) (s : State) :
    (completeErr e s).olen = 0 := rfl

@[simp] theorem completeErr_mem (e : ErrorCode) (s : State) :
    (completeErr e s).mem = Memory.below s.mem obufBase ++ cellsFrom obufBase [] := rfl

@[simp] theorem completeErr_cfg (e : ErrorCode) (s : State) :
    (completeErr e s).cfg = s.cfg := rfl

@[simp] theorem completeErr_schedule (e : ErrorCode) (s : State) :
    (completeErr e s).schedule = s.schedule := rfl

@[simp] theorem completeErr_returned (e : ErrorCode) (s : State) :
    (completeErr e s).returned = s.returned := rfl

@[simp] theorem completeErr_resets (e : ErrorCode) (s : State) :
    (completeErr e s).resets = s.resets := rfl

@[simp] theorem completeErr_redraws (e : ErrorCode) (s : State) :
    (completeErr e s).redraws = s.redraws + 1 := rfl

@[simp] theorem completeErr_busyReads (e : ErrorCode) (s : State) :
    (completeErr e s).busyReads = s.busyReads := rfl

/-! ### `completeValid` -/

@[simp] theorem completeValid_cmd (valid : Bool) (s : State) :
    (completeValid valid s).cmd = s.cmd := rfl

@[simp] theorem completeValid_status (valid : Bool) (s : State) :
    (completeValid valid s).status = statusVerdict valid := rfl

@[simp] theorem completeValid_ilen (valid : Bool) (s : State) :
    (completeValid valid s).ilen = s.ilen := rfl

@[simp] theorem completeValid_wlen (valid : Bool) (s : State) :
    (completeValid valid s).wlen = s.wlen := rfl

@[simp] theorem completeValid_olen (valid : Bool) (s : State) :
    (completeValid valid s).olen = 0 := rfl

@[simp] theorem completeValid_mem (valid : Bool) (s : State) :
    (completeValid valid s).mem = Memory.below s.mem obufBase ++ cellsFrom obufBase [] := rfl

@[simp] theorem completeValid_cfg (valid : Bool) (s : State) :
    (completeValid valid s).cfg = s.cfg := rfl

@[simp] theorem completeValid_schedule (valid : Bool) (s : State) :
    (completeValid valid s).schedule = s.schedule := rfl

@[simp] theorem completeValid_returned (valid : Bool) (s : State) :
    (completeValid valid s).returned = s.returned := rfl

@[simp] theorem completeValid_resets (valid : Bool) (s : State) :
    (completeValid valid s).resets = s.resets := rfl

@[simp] theorem completeValid_redraws (valid : Bool) (s : State) :
    (completeValid valid s).redraws = s.redraws + 1 := rfl

@[simp] theorem completeValid_busyReads (valid : Bool) (s : State) :
    (completeValid valid s).busyReads = s.busyReads := rfl

/-! ### `resetUnit` -/

@[simp] theorem resetUnit_cmd (s : State) :
    (resetUnit s).cmd = 0 := rfl

@[simp] theorem resetUnit_status (s : State) :
    (resetUnit s).status = 0 := rfl

@[simp] theorem resetUnit_ilen (s : State) :
    (resetUnit s).ilen = 0 := rfl

@[simp] theorem resetUnit_wlen (s : State) :
    (resetUnit s).wlen = 0 := rfl

@[simp] theorem resetUnit_olen (s : State) :
    (resetUnit s).olen = 0 := rfl

@[simp] theorem resetUnit_mem (s : State) :
    (resetUnit s).mem = [] := rfl

@[simp] theorem resetUnit_cfg (s : State) :
    (resetUnit s).cfg = s.cfg := rfl

@[simp] theorem resetUnit_schedule (s : State) :
    (resetUnit s).schedule = s.schedule := rfl

@[simp] theorem resetUnit_returned (s : State) :
    (resetUnit s).returned = s.returned := rfl

@[simp] theorem resetUnit_resets (s : State) :
    (resetUnit s).resets = s.resets + 1 := rfl

@[simp] theorem resetUnit_redraws (s : State) :
    (resetUnit s).redraws = s.redraws + 1 := rfl

@[simp] theorem resetUnit_busyReads (s : State) :
    (resetUnit s).busyReads = s.busyReads := rfl

/-! ### `hostRead` -/

@[simp] theorem hostRead_cmd (a : PortAddr) (s : State) :
    (hostRead a s).cmd = s.cmd := rfl

@[simp] theorem hostRead_status (a : PortAddr) (s : State) :
    (hostRead a s).status = s.status := rfl

@[simp] theorem hostRead_ilen (a : PortAddr) (s : State) :
    (hostRead a s).ilen = s.ilen := rfl

@[simp] theorem hostRead_wlen (a : PortAddr) (s : State) :
    (hostRead a s).wlen = s.wlen := rfl

@[simp] theorem hostRead_olen (a : PortAddr) (s : State) :
    (hostRead a s).olen = s.olen := rfl

@[simp] theorem hostRead_mem (a : PortAddr) (s : State) :
    (hostRead a s).mem = s.mem := rfl

@[simp] theorem hostRead_cfg (a : PortAddr) (s : State) :
    (hostRead a s).cfg = s.cfg := rfl

@[simp] theorem hostRead_schedule (a : PortAddr) (s : State) :
    (hostRead a s).schedule = s.schedule := rfl

@[simp] theorem hostRead_returned (a : PortAddr) (s : State) :
    (hostRead a s).returned = (a.toNat, readByte s a) :: s.returned := rfl

@[simp] theorem hostRead_resets (a : PortAddr) (s : State) :
    (hostRead a s).resets = s.resets := rfl

@[simp] theorem hostRead_redraws (a : PortAddr) (s : State) :
    (hostRead a s).redraws = s.redraws := rfl

@[simp] theorem hostRead_busyReads (a : PortAddr) (s : State) :
    (hostRead a s).busyReads = if busy s && unstable (locate s.cfg a) then s.busyReads + 1 else s.busyReads := rfl

/-! ### `placeCommand` -/

@[simp] theorem placeCommand_cmd (v : Byte) (s : State) :
    (placeCommand v s).cmd = v := rfl

@[simp] theorem placeCommand_status (v : Byte) (s : State) :
    (placeCommand v s).status = statusBusy := rfl

@[simp] theorem placeCommand_ilen (v : Byte) (s : State) :
    (placeCommand v s).ilen = s.ilen := rfl

@[simp] theorem placeCommand_wlen (v : Byte) (s : State) :
    (placeCommand v s).wlen = s.wlen := rfl

@[simp] theorem placeCommand_olen (v : Byte) (s : State) :
    (placeCommand v s).olen = s.olen := rfl

@[simp] theorem placeCommand_mem (v : Byte) (s : State) :
    (placeCommand v s).mem = s.mem := rfl

@[simp] theorem placeCommand_cfg (v : Byte) (s : State) :
    (placeCommand v s).cfg = s.cfg := rfl

@[simp] theorem placeCommand_schedule (v : Byte) (s : State) :
    (placeCommand v s).schedule = unitFirst s.schedule := rfl

@[simp] theorem placeCommand_returned (v : Byte) (s : State) :
    (placeCommand v s).returned = s.returned := rfl

@[simp] theorem placeCommand_resets (v : Byte) (s : State) :
    (placeCommand v s).resets = s.resets := rfl

@[simp] theorem placeCommand_redraws (v : Byte) (s : State) :
    (placeCommand v s).redraws = s.redraws := rfl

@[simp] theorem placeCommand_busyReads (v : Byte) (s : State) :
    (placeCommand v s).busyReads = s.busyReads := rfl

end Sys2Proof.Machine
end

