-- ==== Sys2Proof/Laws/Memory.lean ====
section
/-! SUPPORT. The memory operations: what a read finds after each, and that each keeps the canonical
form. -/

namespace Sys2Proof.Machine

@[simp] theorem lookup_nil (a : Nat) : Memory.lookup [] a = none := rfl

@[simp] theorem lookup_cons (k : Nat) (v : Byte) (m : Memory) (a : Nat) :
    Memory.lookup ((k, v) :: m) a = if a = k then some v else Memory.lookup m a := rfl

/-- Below the first address of a canonical memory nothing is listed. -/
theorem lookup_eq_none_of_lt {m : Memory} {a : Nat} (h : ∀ c ∈ m, a < c.1) :
    Memory.lookup m a = none := by
  induction m with
  | nil => rfl
  | cons c rest ih =>
    obtain ⟨k, v⟩ := c
    have hk : a < k := h (k, v) (by simp)
    have hne : a ≠ k := by omega
    simp [hne, ih fun c hc => h c (List.mem_cons_of_mem _ hc)]

/-- What a listed address reads as is one of the listed cells. -/
theorem lookup_isSome_mem {m : Memory} {a : Nat} (h : (Memory.lookup m a).isSome) :
    ∃ v, (a, v) ∈ m := by
  induction m with
  | nil => simp at h
  | cons c rest ih =>
    obtain ⟨k, v⟩ := c
    by_cases hk : a = k
    · exact ⟨v, by simp [hk]⟩
    · simp only [lookup_cons, if_neg hk] at h
      obtain ⟨w, hw⟩ := ih h
      exact ⟨w, List.mem_cons_of_mem _ hw⟩

/-- A listed cell of any memory reads as something. -/
theorem lookup_isSome_of_mem {m : Memory} {c : Host.Cell} (h : c ∈ m) :
    (Memory.lookup m c.1).isSome := by
  induction m with
  | nil => simp at h
  | cons d rest ih =>
    obtain ⟨k, v⟩ := d
    by_cases hk : c.1 = k
    · simp [hk]
    · rcases List.mem_cons.mp h with rfl | hc
      · exact absurd rfl hk
      · simpa [hk] using ih hc

@[simp] theorem lookup_store_same (m : Memory) (a : Nat) (b : Byte) :
    Memory.lookup (Memory.store m a b) a = some b := by
  induction m with
  | nil => simp [Memory.store]
  | cons c rest ih =>
    obtain ⟨k, v⟩ := c
    simp only [Memory.store]
    split
    · simp
    · split
      · simp
      · rename_i hne
        simp [hne, ih]

theorem lookup_store_other (m : Memory) {a a' : Nat} (b : Byte) (h : a' ≠ a) :
    Memory.lookup (Memory.store m a b) a' = Memory.lookup m a' := by
  induction m with
  | nil => simp [Memory.store, h]
  | cons c rest ih =>
    obtain ⟨k, v⟩ := c
    simp only [Memory.store]
    split
    · simp [h]
    · split
      · rename_i hk; subst hk; simp [h]
      · simp [ih]

/-- The cells after a store are the old ones and the stored one. -/
theorem mem_store {m : Memory} {a : Nat} {b : Byte} {c : Host.Cell} (h : c ∈ Memory.store m a b) :
    c = (a, b) ∨ c ∈ m := by
  induction m with
  | nil => simpa [Memory.store] using h
  | cons d rest ih =>
    obtain ⟨k, v⟩ := d
    simp only [Memory.store] at h
    split at h
    · rcases List.mem_cons.mp h with h | h
      · exact .inl h
      · exact .inr h
    · split at h
      · rcases List.mem_cons.mp h with h | h
        · exact .inl h
        · exact .inr (List.mem_cons_of_mem _ h)
      · rcases List.mem_cons.mp h with h | h
        · exact .inr (by simp [h])
        · rcases ih h with h | h
          · exact .inl h
          · exact .inr (List.mem_cons_of_mem _ h)

/-- A store keeps the canonical form. -/
theorem store_wf {m : Memory} (a : Nat) (b : Byte) (h : Memory.wf m) :
    Memory.wf (Memory.store m a b) := by
  induction m with
  | nil => simp [Memory.store, Memory.wf]
  | cons c rest ih =>
    obtain ⟨k, v⟩ := c
    obtain ⟨hk, hr⟩ := List.pairwise_cons.mp h
    simp only [Memory.store]
    split
    · rename_i hlt
      refine List.pairwise_cons.mpr ⟨?_, h⟩
      intro d hd
      rcases List.mem_cons.mp hd with rfl | hd
      · exact hlt
      · exact lt_trans hlt (hk d hd)
    · split
      · rename_i heq
        exact List.pairwise_cons.mpr ⟨fun d hd => heq ▸ hk d hd, hr⟩
      · refine List.pairwise_cons.mpr ⟨?_, ih hr⟩
        intro d hd
        rcases mem_store hd with rfl | hd
        · show k < a; omega
        · exact hk d hd

/-- The cells below an address. -/
theorem mem_below {m : Memory} {base : Nat} {c : Host.Cell} :
    c ∈ Memory.below m base ↔ c ∈ m ∧ c.1 < base := by
  simp [Memory.below]

theorem below_wf {m : Memory} (base : Nat) (h : Memory.wf m) : Memory.wf (Memory.below m base) :=
  List.Pairwise.filter _ h

theorem lookup_below_lt (m : Memory) {base a : Nat} (h : a < base) :
    Memory.lookup (Memory.below m base) a = Memory.lookup m a := by
  induction m with
  | nil => rfl
  | cons c rest ih =>
    obtain ⟨k, v⟩ := c
    by_cases hk : k < base
    · simp only [Memory.below, List.filter_cons, hk, decide_true, if_true] at ih ⊢
      simp [ih]
    · have hne : a ≠ k := by omega
      simp only [Memory.below, List.filter_cons, hk, decide_false] at ih ⊢
      simp [hne, ih]

theorem lookup_below_ge (m : Memory) {base a : Nat} (h : base ≤ a) :
    Memory.lookup (Memory.below m base) a = none := by
  by_contra hn
  obtain ⟨v, hv⟩ := lookup_isSome_mem (Option.isSome_iff_ne_none.mpr hn)
  have := (mem_below.mp hv).2
  simp at this; omega

/-- The cells of a byte sequence: byte `k` at address `base + k`. -/
theorem lookup_cellsFrom (out : List Byte) (base a : Nat) :
    Memory.lookup (cellsFrom base out) a = if base ≤ a then out[a - base]? else none := by
  induction out generalizing base with
  | nil => simp [cellsFrom]
  | cons b rest ih =>
    simp only [cellsFrom, lookup_cons, ih]
    by_cases h1 : a = base
    · simp [h1]
    · by_cases h2 : base ≤ a
      · have : a - base = (a - (base + 1)) + 1 := by omega
        have h3 : base + 1 ≤ a := by omega
        simp [h1, h2, h3, this]
      · have h3 : ¬ base + 1 ≤ a := by omega
        simp [h1, h2, h3]

theorem mem_cellsFrom {out : List Byte} {base : Nat} {c : Host.Cell} (h : c ∈ cellsFrom base out) :
    base ≤ c.1 ∧ c.1 < base + out.length := by
  induction out generalizing base with
  | nil => simp [cellsFrom] at h
  | cons b rest ih =>
    rcases List.mem_cons.mp h with rfl | h
    · simp
    · have := ih h
      simp only [List.length_cons]; omega

theorem cellsFrom_wf (base : Nat) (out : List Byte) : Memory.wf (cellsFrom base out) := by
  induction out generalizing base with
  | nil => exact List.Pairwise.nil
  | cons b rest ih =>
    refine List.pairwise_cons.mpr ⟨?_, ih _⟩
    intro c hc
    have := (mem_cellsFrom hc).1
    show base < c.1; omega

/-- Reading two memories joined: the first wins. -/
theorem lookup_append (m m' : Memory) (a : Nat) :
    Memory.lookup (m ++ m') a = (Memory.lookup m a).or (Memory.lookup m' a) := by
  induction m with
  | nil => simp
  | cons c rest ih =>
    obtain ⟨k, v⟩ := c
    by_cases hk : a = k <;> simp [hk, ih]

/-- Cells below an address followed by cells from it on keep the canonical form. -/
theorem redraw_wf {m : Memory} (base : Nat) (out : List Byte) (h : Memory.wf m) :
    Memory.wf (Memory.below m base ++ cellsFrom base out) := by
  refine List.pairwise_append.mpr ⟨below_wf base h, cellsFrom_wf base out, ?_⟩
  intro c hc d hd
  exact lt_of_lt_of_le (mem_below.mp hc).2 (mem_cellsFrom hd).1

end Sys2Proof.Machine
end

