-- ==== Sys2Proof/Laws/Ops.lean ====
section
/-! SUPPORT. What each shared operation can do, once: the buffers after a redraw, and the three
completions. -/

namespace Sys2Proof.Machine

/-! ### Buffer bytes -/

@[simp] theorem bufferBytes_length (s : State) (base n : Nat) : (bufferBytes s base n).length = n := by
  simp [bufferBytes]

theorem bufferBytes_getElem (s : State) (base n k : Nat) (h : k < (bufferBytes s base n).length) :
    (bufferBytes s base n)[k] = bufferByte s (base + k) := by
  simp [bufferBytes]

/-- Equal bytes at every index give equal sequences. -/
theorem bufferBytes_congr {s s' : State} {base n : Nat}
    (h : ∀ k < n, bufferByte s' (base + k) = bufferByte s (base + k)) :
    bufferBytes s' base n = bufferBytes s base n := by
  simp only [bufferBytes]
  exact List.map_congr_left fun k hk => h k (List.mem_range.mp hk)

@[simp] theorem operand_length (s : State) : (operand s).length = s.ilen.toNat := by
  simp [operand]

@[simp] theorem weights_length (s : State) (k : Nat) : (weights s k).length = k := by
  simp [weights]

/-- The bytes of IBUF and WBUF depend on the memory and the reset count alone. -/
theorem bufferByte_input_congr {s s' : State} {a : Nat} (ha : a < obufBase)
    (hm : Memory.lookup s'.mem a = Memory.lookup s.mem a) (hr : s'.resets = s.resets) :
    bufferByte s' a = bufferByte s a := by
  simp [bufferByte, hm, hr, ha]

/-- A redraw of OBUF leaves IBUF and WBUF alone. -/
theorem lookup_redraw_input (m : Memory) (out : List Byte) {a : Nat} (h : a < obufBase) :
    Memory.lookup (Memory.below m obufBase ++ cellsFrom obufBase out) a = Memory.lookup m a := by
  have h2 : ¬ obufBase ≤ a := by omega
  simp [lookup_append, lookup_below_lt m h, lookup_cellsFrom, h2]

/-- After a redraw OBUF holds exactly the new result. -/
theorem lookup_redraw_output (m : Memory) (out : List Byte) {a : Nat} (h : obufBase ≤ a) :
    Memory.lookup (Memory.below m obufBase ++ cellsFrom obufBase out) a = out[a - obufBase]? := by
  simp [lookup_append, lookup_below_ge m h, lookup_cellsFrom, h]

@[simp] theorem bufferByte_redraw_input (out : List Byte) (s : State) {a : Nat} (h : a < obufBase) :
    bufferByte (redrawOutput out s) a = bufferByte s a :=
  bufferByte_input_congr h (lookup_redraw_input s.mem out h) rfl

/-- The start of a command puts it in flight (R90). -/
@[simp] theorem busy_startCommand (v : Byte) (s : State) : busy (startCommand v s) = true := by
  show busyBit statusBusy = true
  decide

/-- The start, an error and a verdict leave IBUF and WBUF alone (R103). -/
theorem bufferByte_startCommand (v : Byte) (s : State) {a : Nat} (h : a < obufBase) :
    bufferByte (startCommand v s) a = bufferByte s a :=
  bufferByte_input_congr h (lookup_redraw_input s.mem [] h) rfl

theorem bufferByte_completeErr (e : ErrorCode) (s : State) {a : Nat} (h : a < obufBase) :
    bufferByte (completeErr e s) a = bufferByte s a :=
  bufferByte_input_congr h (lookup_redraw_input s.mem [] h) rfl

theorem bufferByte_completeValid (b : Bool) (s : State) {a : Nat} (h : a < obufBase) :
    bufferByte (completeValid b s) a = bufferByte s a :=
  bufferByte_input_congr h (lookup_redraw_input s.mem [] h) rfl

/-! ### The completions -/

/-- What `complete_ok` can do (R99): with room it writes the result, else it faults. -/
theorem completeOk_next {out : List Byte} {s t : State} (h : completeOk out s = .next t) :
    out.length ≤ s.cfg.obufMax ∧
    t = { redrawOutput out s with olen := BitVec.ofNat 8 out.length, status := statusOk } := by
  unfold completeOk at h
  split at h
  · exact ⟨‹_›, (Host.Outcome.next.inj h).symm⟩
  · cases h

/-- What a completion can do (R92). -/
theorem complete_next {c : Completion} {s t : State} (h : complete c s = .next t) :
    (∃ out, c = .ok out ∧ out.length ≤ s.cfg.obufMax ∧
      t = { redrawOutput out s with olen := BitVec.ofNat 8 out.length, status := statusOk }) ∨
    (∃ e, c = .err e ∧ t = completeErr e s) ∨
    (∃ b, c = .verdict b ∧ t = completeValid b s) := by
  cases c with
  | ok out =>
    obtain ⟨h1, h2⟩ := completeOk_next h
    exact .inl ⟨out, rfl, h1, h2⟩
  | err e => exact .inr (.inl ⟨e, rfl, (Host.Outcome.next.inj h).symm⟩)
  | verdict b => exact .inr (.inr ⟨b, rfl, (Host.Outcome.next.inj h).symm⟩)

/-- A completion never refuses. -/
theorem complete_not_refused (c : Completion) (s : State) (r : Refusal) :
    complete c s ≠ .refused r := by
  cases c <;> simp only [complete, completeOk] <;> try split
  all_goals (intro h; cases h)

/-- A completion redraws OBUF with some result and writes OLEN and STATUS, nothing else (R103). -/
theorem complete_frame {c : Completion} {s t : State} (h : complete c s = .next t) :
    ∃ out olen status, out.length ≤ s.cfg.obufMax ∧ olen = BitVec.ofNat 8 out.length ∧
      t = { redrawOutput out s with olen := olen, status := status } := by
  rcases complete_next h with ⟨out, rfl, hle, rfl⟩ | ⟨e, rfl, rfl⟩ | ⟨b, rfl, rfl⟩
  · exact ⟨out, _, _, hle, rfl, rfl⟩
  · exact ⟨[], _, _, Nat.zero_le _, rfl, rfl⟩
  · exact ⟨[], _, _, Nat.zero_le _, rfl, rfl⟩

/-- A result that fits OBUF and 8 bits is read back whole (R99, R19). -/
theorem hasOutput_of_redraw {out : List Byte} (s : State) (hlen : out.length ≤ 255) :
    hasOutput { redrawOutput out s with olen := BitVec.ofNat 8 out.length, status := statusOk } out := by
  refine ⟨rfl, by simp; omega, ?_⟩
  refine List.ext_getElem (by simp) fun k h1 h2 => ?_
  have hk : Memory.lookup (Memory.below s.mem obufBase ++ cellsFrom obufBase out) (obufBase + k)
      = some out[k] := by
    rw [lookup_redraw_output _ _ (by omega)]
    simp
  rw [bufferBytes_getElem]
  simp [bufferByte, hk]

/-- `complete_ok` under a well-formed configuration. -/
theorem complete_ok_of_fits {out : List Byte} {s : State} (hwf : s.cfg.wf)
    (h : out.length ≤ s.cfg.obufMax) :
    ∃ t, complete (.ok out) s = .next t ∧ hasOutput t out := by
  refine ⟨{ redrawOutput out s with olen := BitVec.ofNat 8 out.length, status := statusOk },
    by simp [complete, completeOk, h], hasOutput_of_redraw s ?_⟩
  have := hwf.2.2.2.2
  omega

end Sys2Proof.Machine
end

