-- ==== Sys2Proof/Laws/Commands.lean ====
section
/-! SUPPORT. The frame of the commands: what the two contracts can answer, the symbol scan, and that
every command is one completion. -/

namespace Sys2Proof.Machine

/-! ### The symbol scan -/

/-- The scan succeeds exactly when every character has a value (R94). -/
theorem decodeAll_eq_some {dec : Byte → Option Nat} {chars : List Byte} {v : List Nat} :
    decodeAll dec chars = some v ↔ spells dec chars v := by
  induction chars generalizing v with
  | nil => cases v <;> simp [decodeAll, spells]
  | cons b rest ih =>
    cases v with
    | nil => simp only [decodeAll, spells]; split <;> simp
    | cons x xs =>
      have ih' := @ih xs
      simp only [spells] at ih' ⊢
      simp only [decodeAll, List.map_cons, List.cons.injEq]
      rw [← ih']
      rcases dec b with _ | y <;> rcases decodeAll dec rest with _ | ys <;> simp

theorem decodeAll_eq_none {dec : Byte → Option Nat} {chars : List Byte} :
    decodeAll dec chars = none ↔ ∃ b ∈ chars, dec b = none := by
  induction chars with
  | nil => simp [decodeAll]
  | cons b rest ih =>
    simp only [decodeAll, List.mem_cons, exists_eq_or_imp, ← ih]
    rcases dec b with _ | y <;> rcases decodeAll dec rest with _ | ys <;> simp

theorem spells_length {dec : Byte → Option Nat} {chars : List Byte} {v : List Nat}
    (h : spells dec chars v) : v.length = chars.length := by
  simpa using (congrArg List.length h).symm

theorem spells_append {dec : Byte → Option Nat} {a b : List Byte} {v w : List Nat}
    (ha : spells dec a v) (hb : spells dec b w) : spells dec (a ++ b) (v ++ w) := by
  simp only [spells, List.map_append] at *
  rw [ha, hb]

/-- The scan with a check character of its own. -/
theorem decodeWithCheck_concat (dec decCheck : Byte → Option Nat) (chars : List Byte) (b : Byte) :
    decodeWithCheck dec decCheck (chars ++ [b]) =
      match decCheck b, decodeAll dec chars with
      | some check, some payload => some (payload, check)
      | _, _ => none := by
  cases h1 : decCheck b <;> cases h2 : decodeAll dec chars <;>
    simp [decodeWithCheck, List.getLast?_append, h1, h2]

@[simp] theorem decodeWithCheck_nil (dec decCheck : Byte → Option Nat) :
    decodeWithCheck dec decCheck [] = none := rfl

/-! ### The two contracts -/

theorem strict_cases (tooLong : Bool) (rule : List Byte → Except ErrorCode (List Byte)) (s : State) :
    (tooLong = true ∧ strict tooLong rule s = .err .length) ∨
    (tooLong = false ∧ (∃ out, rule (operand s) = .ok out ∧ strict tooLong rule s = .ok out)) ∨
    (tooLong = false ∧ ∃ e, rule (operand s) = .error e ∧ strict tooLong rule s = .err e) := by
  cases tooLong
  · simp only [strict]
    rcases rule (operand s) with e | out <;> simp
  · simp [strict]

theorem permissive_eq (tooLong : Bool) (rule : List Byte → Bool) (s : State) :
    permissive tooLong rule s = .verdict (!tooLong && rule (operand s)) := by
  cases tooLong <;> simp [permissive]

/-! ### Every command -/

/-- How command `i` completes on the operands of `s`: every meaning is this completion. -/
theorem exec_eq_complete (i : Instr) (s : State) : ∃ c, exec i s = complete c s := by
  cases i
  case luhn10C => exact ⟨_, rfl⟩
  case luhn10V => exact ⟨_, rfl⟩
  case luhn36C => exact ⟨_, rfl⟩
  case luhn36V => exact ⟨_, rfl⟩
  case gs1C => exact ⟨_, rfl⟩
  case gs1V => exact ⟨_, rfl⟩
  case wmod11CL => exact ⟨_, rfl⟩
  case wmod11VL => exact ⟨_, rfl⟩
  case wmod11CR => exact ⟨_, rfl⟩
  case wmod11VR => exact ⟨_, rfl⟩
  case dammC => exact ⟨_, rfl⟩
  case dammV => exact ⟨_, rfl⟩
  case verhC => exact ⟨_, rfl⟩
  case verhV => exact ⟨_, rfl⟩
  case iso97C => exact ⟨_, rfl⟩
  case iso97V => exact ⟨_, rfl⟩
  case iso1110C => exact ⟨_, rfl⟩
  case iso1110V => exact ⟨_, rfl⟩
  case iso112C => exact ⟨_, rfl⟩
  case iso112V => exact ⟨_, rfl⟩
  case iso3736C => exact ⟨_, rfl⟩
  case iso3736V => exact ⟨_, rfl⟩
  case b58cEnc => exact ⟨_, rfl⟩
  case b58cDec => exact ⟨_, rfl⟩

/-- A permissive command always ends in a verdict (R97). -/
theorem exec_permissive {i : Instr} (hi : i ∈ permissiveCommands) (s : State) :
    ∃ b, exec i s = .next (completeValid b s) := by
  have key : ∀ tooLong rule, ∃ b, complete (permissive tooLong rule s) s = .next (completeValid b s) :=
    fun tooLong rule => ⟨_, by rw [permissive_eq]; rfl⟩
  simp only [permissiveCommands, validateCommands, List.map_cons, List.map_nil, List.mem_cons,
    List.not_mem_nil, or_false] at hi
  rcases hi with rfl | rfl | rfl | rfl | rfl | rfl | rfl | rfl | rfl | rfl | rfl
  all_goals exact key _ _

/-- A strict command ends in a success or an error (R96). -/
theorem exec_strict {i : Instr} (hi : i ∈ strictCommands) (s : State) :
    (∃ out, exec i s = completeOk out s) ∨ ∃ e, exec i s = .next (completeErr e s) := by
  have key : ∀ tooLong rule, (∃ out, complete (strict tooLong rule s) s = completeOk out s) ∨
      ∃ e, complete (strict tooLong rule s) s = .next (completeErr e s) := by
    intro tooLong rule
    rcases strict_cases tooLong rule s with ⟨_, h⟩ | ⟨_, out, _, h⟩ | ⟨_, e, _, h⟩
    · exact .inr ⟨_, by rw [h]; rfl⟩
    · exact .inl ⟨out, by rw [h]; rfl⟩
    · exact .inr ⟨e, by rw [h]; rfl⟩
  simp only [strictCommands, computeCommands, List.map_cons, List.map_nil, List.cons_append,
    List.nil_append, List.mem_cons, List.not_mem_nil, or_false] at hi
  rcases hi with rfl | rfl | rfl | rfl | rfl | rfl | rfl | rfl | rfl | rfl | rfl | rfl | rfl
  all_goals exact key _ _

end Sys2Proof.Machine
end

