-- ==== Sys2Proof/Laws/Base58.lean ====
section
/-! SUPPORT. The Base58Check codec: its loops are the base conversions of the library, how long its
results are, and that the two conversions undo each other. -/

namespace Sys2Proof.Machine

/-! ### The loops are base conversions -/

/-- The accumulation of R194 and R198 is the number of the digits. -/
theorem positional_eq (base num : Nat) (l : List Nat) :
    positional base num l = num * base ^ l.length + Nat.ofDigits base l.reverse := by
  induction l generalizing num with
  | nil => simp [positional]
  | cons d rest ih =>
    simp only [positional, ih, List.length_cons, List.reverse_cons, Nat.ofDigits_append,
      List.length_reverse, Nat.ofDigits_singleton]
    ring

theorem digitLoop_eq {base : Nat} (hb : 2 ≤ base) (fuel num : Nat) (h : num ≤ fuel) :
    digitLoop base fuel num = Nat.digits base num := by
  induction fuel generalizing num with
  | zero => obtain rfl : num = 0 := by omega
            simp [digitLoop]
  | succ n ih =>
    by_cases h0 : num = 0
    · simp [digitLoop, h0]
    · have hlt : num / base < num := Nat.div_lt_self (by omega) (by omega)
      have hle : num / base ≤ n := by omega
      rw [digitLoop, if_neg h0, ih _ hle]
      exact (Nat.digits_of_two_le_of_pos hb (by omega)).symm

/-- The digit loop of R194 and R198 gives the digits of the number, most significant first. -/
theorem digits_eq {base : Nat} (hb : 2 ≤ base) (num : Nat) :
    digits base num = (Nat.digits base num).reverse := by
  rw [digits, digitLoop_eq hb num num le_rfl]

theorem digits_lt {base : Nat} (hb : 2 ≤ base) {num d : Nat} (h : d ∈ digits base num) : d < base := by
  rw [digits_eq hb, List.mem_reverse] at h
  exact Nat.digits_lt_base (by omega) h

/-- The first digit is not 0. -/
theorem digits_head_ne_zero {base : Nat} (hb : 2 ≤ base) (num : Nat) :
    (digits base num).head? ≠ some 0 := by
  rw [digits_eq hb, List.head?_reverse]
  by_cases h0 : num = 0
  · simp [h0]
  · have hne := Nat.digits_ne_nil_iff_ne_zero (b := base) |>.mpr h0
    rw [List.getLast?_eq_some_getLast hne]
    intro h
    exact Nat.getLast_digit_ne_zero base h0 (Option.some.inj h)

/-- The digits stand for the number. -/
theorem ofDigits_digits_reverse {base : Nat} (hb : 2 ≤ base) (num : Nat) :
    Nat.ofDigits base (digits base num).reverse = num := by
  rw [digits_eq hb, List.reverse_reverse, Nat.ofDigits_digits]

/-! ### Leading zeros -/

theorem leadingZeros_eq (l : List Nat) : leadingZeros l = (l.takeWhile fun d => d == 0).length := by
  induction l with
  | nil => rfl
  | cons d rest ih =>
    by_cases h : d = 0
    · simp [leadingZeros, h, ih]
    · simp [leadingZeros, h]

/-- Every list is its leading zeros and a rest that does not begin with 0. -/
theorem leadingZeros_split (l : List Nat) :
    ∃ rest, l = List.replicate (leadingZeros l) 0 ++ rest ∧ rest.head? ≠ some 0 := by
  induction l with
  | nil => exact ⟨[], by simp [leadingZeros]⟩
  | cons d l ih =>
    by_cases h : d = 0
    · obtain ⟨rest, h1, h2⟩ := ih
      refine ⟨rest, ?_, h2⟩
      subst h
      simp only [leadingZeros, if_true, List.replicate_succ, List.cons_append]
      exact congrArg _ h1
    · exact ⟨d :: l, by simp [leadingZeros, h], by simpa using h⟩

theorem leadingZeros_replicate_append (z : Nat) {rest : List Nat} (h : rest.head? ≠ some 0) :
    leadingZeros (List.replicate z 0 ++ rest) = z := by
  induction z with
  | zero =>
    cases rest with
    | nil => rfl
    | cons d r =>
      have : d ≠ 0 := by simpa using h
      simp [leadingZeros, this]
  | succ z ih => simp [List.replicate_succ, leadingZeros, ih]

/-- Leading zeros do not change the number. -/
theorem ofDigits_replicate_append (base z : Nat) (rest : List Nat) :
    Nat.ofDigits base (List.replicate z 0 ++ rest).reverse = Nat.ofDigits base rest.reverse := by
  induction z with
  | zero => simp
  | succ z ih =>
    simp only [List.replicate_succ, List.cons_append, List.reverse_cons, Nat.ofDigits_append, ih]
    simp

/-- Digits with a first digit other than 0 are the digits of their number. -/
theorem digits_of_canonical {base : Nat} (hb : 2 ≤ base) {l : List Nat} (hd : ∀ d ∈ l, d < base)
    (hh : l.head? ≠ some 0) : digits base (Nat.ofDigits base l.reverse) = l := by
  rw [digits_eq hb, Nat.digits_ofDigits base (by omega) l.reverse
    (fun d hd' => hd d (List.mem_reverse.mp hd'))]
  · simp
  · intro hne
    rw [List.getLast_reverse]
    intro h0
    apply hh
    rw [List.head?_eq_some_head (by simpa using hne), h0]

/-- A list of digits is known from its leading zeros and its number. -/
theorem canonical_split {base : Nat} (hb : 2 ≤ base) {l : List Nat} (hd : ∀ d ∈ l, d < base) :
    l = List.replicate (leadingZeros l) 0 ++ digits base (positional base 0 l) := by
  obtain ⟨rest, h1, h2⟩ := leadingZeros_split l
  have hr : ∀ d ∈ rest, d < base := fun d h => hd d (by rw [h1]; exact List.mem_append_right _ h)
  have hn : positional base 0 l = Nat.ofDigits base rest.reverse := by
    rw [positional_eq, h1, ofDigits_replicate_append]; simp
  rw [hn, digits_of_canonical hb hr h2]
  exact h1

/-! ### Bytes and symbols -/

theorem dec58_enc58 {v : Nat} (h : v < 58) : dec58 (enc58 v) = some v := by
  have key : ∀ v < 58, dec58 (enc58 v) = some v := by decide +kernel
  exact key v h

theorem dec58_some {b : Byte} {v : Nat} (h : dec58 b = some v) : v < 58 ∧ enc58 v = b := by
  have key : ∀ b : Byte, ∀ v ∈ dec58 b, v < 58 ∧ enc58 v = b := by decide +kernel
  exact key b v h

theorem enc58_zero : enc58 0 = 0x31 := by decide +kernel

theorem toNat_mem_lt {data : List Byte} : ∀ d ∈ data.map BitVec.toNat, d < 256 := by
  intro d hd
  obtain ⟨b, _, rfl⟩ := List.mem_map.mp hd
  exact b.isLt

theorem map_ofNat_toNat (data : List Byte) : (data.map BitVec.toNat).map (BitVec.ofNat 8) = data := by
  rw [List.map_map]
  exact (List.map_congr_left fun b _ => by simp).trans (List.map_id data)

/-- The characters of a list of values, read back. -/
theorem spells_enc58 {v : List Nat} (h : ∀ d ∈ v, d < 58) : spells dec58 (v.map enc58) v := by
  simp only [spells, List.map_map]
  exact List.map_congr_left fun d hd => dec58_enc58 (h d hd)

/-- The values of a text, and the text from its values. -/
theorem spells_dec58 {chars : List Byte} {v : List Nat} (h : spells dec58 chars v) :
    (∀ d ∈ v, d < 58) ∧ v.map enc58 = chars := by
  induction chars generalizing v with
  | nil => cases v <;> simp_all [spells]
  | cons b rest ih =>
    cases v with
    | nil => simp [spells] at h
    | cons x xs =>
      simp only [spells, List.map_cons, List.cons.injEq] at h
      obtain ⟨hb, hx⟩ := dec58_some h.1
      obtain ⟨h1, h2⟩ := ih h.2
      refine ⟨?_, by simp [hx, h2]⟩
      intro d hd
      rcases List.mem_cons.mp hd with rfl | hd
      · exact hb
      · exact h1 d hd

/-! ### The text and the data -/

/-- The values of the text of a byte string. -/
def textValues (data : List Byte) : List Nat :=
  List.replicate (leadingZeros (data.map BitVec.toNat)) 0 ++
    digits 58 (positional 256 0 (data.map BitVec.toNat))

theorem textOf_eq (data : List Byte) : textOf data = (textValues data).map enc58 := by
  simp [textOf, textValues]

theorem textValues_lt (data : List Byte) : ∀ d ∈ textValues data, d < 58 := by
  intro d hd
  rcases List.mem_append.mp hd with h | h
  · rw [List.eq_of_mem_replicate h]; omega
  · exact digits_lt (by omega) h

theorem decodeAll_textOf (data : List Byte) : decodeAll dec58 (textOf data) = some (textValues data) := by
  rw [textOf_eq, decodeAll_eq_some]
  exact spells_enc58 (textValues_lt data)

theorem leadingZeros_textValues (data : List Byte) :
    leadingZeros (textValues data) = leadingZeros (data.map BitVec.toNat) :=
  leadingZeros_replicate_append _ (digits_head_ne_zero (by omega) _)

theorem positional_textValues (data : List Byte) :
    positional 58 0 (textValues data) = positional 256 0 (data.map BitVec.toNat) := by
  rw [positional_eq, textValues, ofDigits_replicate_append, ofDigits_digits_reverse (by omega)]
  simp

/-- Reading the text of a byte string back gives the byte string (R202). -/
theorem dataOf_textValues (data : List Byte) : dataOf (textValues data) = data := by
  rw [dataOf, leadingZeros_textValues, positional_textValues]
  have h := canonical_split (base := 256) (by omega) (toNat_mem_lt (data := data))
  calc _ = (List.replicate (leadingZeros (data.map BitVec.toNat)) 0 ++
        digits 256 (positional 256 0 (data.map BitVec.toNat))).map (BitVec.ofNat 8) := by simp
    _ = (data.map BitVec.toNat).map (BitVec.ofNat 8) := by rw [← h]
    _ = data := map_ofNat_toNat data

/-- The bytes of the values of a text. -/
theorem toNat_dataOf (v : List Nat) :
    (dataOf v).map BitVec.toNat = List.replicate (leadingZeros v) 0 ++ digits 256 (positional 58 0 v) := by
  simp only [dataOf, List.map_append, List.map_replicate, List.map_map]
  congr 1
  conv_rhs => rw [← List.map_id (digits 256 (positional 58 0 v))]
  refine List.map_congr_left fun d hd => ?_
  have := digits_lt (by omega) hd
  simp; omega

theorem leadingZeros_dataOf (v : List Nat) :
    leadingZeros ((dataOf v).map BitVec.toNat) = leadingZeros v := by
  rw [toNat_dataOf]
  exact leadingZeros_replicate_append _ (digits_head_ne_zero (by omega) _)

theorem positional_dataOf (v : List Nat) :
    positional 256 0 ((dataOf v).map BitVec.toNat) = positional 58 0 v := by
  rw [positional_eq, toNat_dataOf, ofDigits_replicate_append, ofDigits_digits_reverse (by omega)]
  simp

/-- Writing the byte string of a text's values gives the values (R204). -/
theorem textValues_dataOf {v : List Nat} (h : ∀ d ∈ v, d < 58) : textValues (dataOf v) = v := by
  rw [textValues, leadingZeros_dataOf, positional_dataOf]
  exact (canonical_split (by omega) h).symm

/-! ### Lengths -/

/-- Digits in the larger base are no more than in the smaller one. -/
theorem digits_length_le {num k base : Nat} (hb : 2 ≤ base) (h : num < base ^ k) :
    (digits base num).length ≤ k := by
  rw [digits_eq hb, List.length_reverse]
  exact (Nat.digits_length_le_iff (by omega) num).mpr h

theorem positional_lt {base : Nat} (hb : 2 ≤ base) {l : List Nat} (hd : ∀ d ∈ l, d < base) :
    positional base 0 l < base ^ l.length := by
  rw [positional_eq]
  have := Nat.ofDigits_lt_base_pow_length (b := base) (l := l.reverse) (by omega)
    (fun d h => hd d (List.mem_reverse.mp h))
  simpa using this

/-- 138 / 100 base-58 digits a byte are enough: `256 ^ 100 < 58 ^ 138`. -/
theorem base58_capacity (n : Nat) : 256 ^ n ≤ 58 ^ (n * 138 / 100 + 1) := by
  have h1 : (256 : Nat) ^ 100 ≤ 58 ^ 138 := by norm_num
  have h2 : (256 ^ n) ^ 100 ≤ (58 ^ (n * 138 / 100 + 1)) ^ 100 := by
    calc ((256 : Nat) ^ n) ^ 100 = (256 ^ 100) ^ n := by rw [← pow_mul, ← pow_mul, mul_comm]
      _ ≤ (58 ^ 138) ^ n := Nat.pow_le_pow_left h1 n
      _ = 58 ^ (138 * n) := by rw [← pow_mul]
      _ ≤ 58 ^ ((n * 138 / 100 + 1) * 100) := Nat.pow_le_pow_right (by omega) (by omega)
      _ = _ := by rw [pow_mul]
  exact (Nat.pow_le_pow_iff_left (by omega)).mp h2

/-- How long a text is (R197). -/
theorem textOf_length_le (data : List Byte) :
    (textOf data).length ≤ data.length * 138 / 100 + 1 := by
  obtain ⟨rest, h1, h2⟩ := leadingZeros_split (data.map BitVec.toNat)
  have hlen : data.length = leadingZeros (data.map BitVec.toNat) + rest.length := by
    have := congrArg List.length h1
    simpa using this
  have hr : ∀ d ∈ rest, d < 256 := fun d h =>
    toNat_mem_lt (data := data) d (by rw [h1]; exact List.mem_append_right _ h)
  have hp : positional 256 0 (data.map BitVec.toNat) = positional 256 0 rest := by
    rw [positional_eq, positional_eq, h1, ofDigits_replicate_append]; simp
  have hlt : positional 256 0 rest < 58 ^ (rest.length * 138 / 100 + 1) :=
    lt_of_lt_of_le (positional_lt (by omega) hr) (base58_capacity _)
  have hd := digits_length_le (by omega) hlt
  rw [textOf_eq, List.length_map, textValues, List.length_append, List.length_replicate, hp]
  omega

/-- A text is no shorter than its byte string (R197). -/
theorem length_le_textOf (data : List Byte) : data.length ≤ (textOf data).length := by
  have hd : (digits 256 (positional 256 0 (data.map BitVec.toNat))).length ≤
      (digits 58 (positional 256 0 (data.map BitVec.toNat))).length := by
    refine digits_length_le (by omega) ?_
    have h1 := positional_lt (base := 58) (by omega) (l := digits 58 (positional 256 0 (data.map BitVec.toNat)))
      (fun d h => digits_lt (by omega) h)
    rw [positional_eq, ofDigits_digits_reverse (by omega)] at h1
    simp only [zero_mul, zero_add] at h1
    exact lt_of_lt_of_le h1 (Nat.pow_le_pow_left (by omega) _)
  have hl := congrArg List.length (canonical_split (base := 256) (by omega) (toNat_mem_lt (data := data)))
  simp only [List.length_map, List.length_append, List.length_replicate] at hl
  rw [textOf_eq, List.length_map, textValues, List.length_append, List.length_replicate]
  omega

/-- Decoding never lengthens: a byte string is no longer than a text of it. -/
theorem dataOf_length_le {v : List Nat} (h : ∀ d ∈ v, d < 58) : (dataOf v).length ≤ v.length := by
  have h1 := length_le_textOf (dataOf v)
  rw [textOf_eq, List.length_map, textValues_dataOf h] at h1
  exact h1

/-! ### The hash -/

@[simp] theorem shaDigest_length (h : HashWords) : (shaDigest h).length = 32 := rfl

@[simp] theorem sha256_length (m : List Byte) : (sha256 m).length = 32 := shaDigest_length _

@[simp] theorem suffix_length (p : List Byte) : (suffix p).length = 4 := by simp [suffix]

/-! ### The two rules -/

theorem encode58_ok {p : List Byte} (h : p ≠ []) : encode58 p = .ok (textOf (p ++ suffix p)) := by
  simp [encode58, h]

/-- What B58C.DEC's rule can answer (R198, R199). -/
theorem decode58_ok {text p : List Byte} (h : decode58 text = .ok p) :
    ∃ v, spells dec58 text v ∧ dataOf v = p ++ suffix p := by
  unfold decode58 at h
  split at h
  · cases h
  · split at h
    · cases h
    · rename_i v hv
      unfold stripSuffix at h
      split at h
      · cases h
      · split at h
        · cases h
        · rename_i hs
          refine ⟨v, decodeAll_eq_some.mp hv, ?_⟩
          obtain rfl := Except.ok.inj h
          rw [not_not] at hs
          rw [hs, List.take_append_drop]

theorem stripSuffix_append (p x : List Byte) (hx : x.length = 4) :
    stripSuffix (p ++ x) = if suffix p = x then .ok p else .error .checksum := by
  have hl : (p ++ x).length - 4 = p.length := by simp [hx]
  have hn : ¬ (p ++ x).length < 4 := by simp [hx]
  rw [stripSuffix, if_neg hn, hl, List.take_left, List.drop_left]
  by_cases h : suffix p = x <;> simp [h]

/-- B58C.DEC's rule answers `p` on exactly one text, the one B58C.ENC's rule writes for `p`, the text of the
empty payload included (R202, R204, R201). -/
theorem decode58_eq_ok_iff (chars p : List Byte) :
    decode58 chars = .ok p ↔ chars = textOf (p ++ suffix p) := by
  constructor
  · intro h
    obtain ⟨v, hv, hd⟩ := decode58_ok h
    obtain ⟨hlt, hc⟩ := spells_dec58 hv
    rw [← hd, textOf_eq, textValues_dataOf hlt, hc]
  · rintro rfl
    have hne : textOf (p ++ suffix p) ≠ [] := by
      have := length_le_textOf (p ++ suffix p)
      intro h
      simp [h] at this
    rw [decode58, if_neg hne, decodeAll_textOf]
    simp [dataOf_textValues, stripSuffix_append]

end Sys2Proof.Machine
end

