-- ==== Sys2Proof/Laws/Contracts.lean ====
section
/-! SUPPORT. The contracts of 40_common_operation.md R96 and R97 on an operand that fits, and the ways a
scan fails: what a proof about one checksum command starts from. -/

namespace Sys2Proof.Machine

/-! ### Capacity -/

theorem overCapacity_of_le {s : State} (h : s.ilen.toNat ≤ s.cfg.ibufMax) : overCapacity s = false := by
  simp [overCapacity, h]

theorem overCapacity_of_lt {s : State} (h : s.cfg.ibufMax < s.ilen.toNat) : overCapacity s = true := by
  simp [overCapacity, h]

theorem overWeights_eq_false {s : State} {m : Nat} :
    overWeights s m = false ↔
      s.ilen.toNat ≤ s.cfg.ibufMax ∧ s.wlen.toNat ≤ s.cfg.wbufMax ∧ m ≤ s.wlen.toNat := by
  simp [overWeights, overCapacity, and_assoc]

/-! ### Scans -/

theorem computeWith_of_none {dec : Byte → Option Nat} {chars : List Byte} (out : List Nat → List Byte)
    (h : ∃ b ∈ chars, dec b = none) : computeWith dec out chars = .error .invalidChar := by
  rw [computeWith, decodeAll_eq_none.mpr h]

theorem computeWith_of_spells {dec : Byte → Option Nat} {chars : List Byte} {v : List Nat}
    (out : List Nat → List Byte) (h : spells dec chars v) : computeWith dec out chars = .ok (out v) := by
  rw [computeWith, decodeAll_eq_some.mpr h]

theorem validateWith_of_bad {n : Nat} {dec : Byte → Option Nat} {relation : List Nat → Bool}
    {chars : List Byte} (h : chars.length < n ∨ ∃ b ∈ chars, dec b = none) :
    validateWith n dec relation chars = false := by
  unfold validateWith
  split
  · rfl
  · rcases h with h | h
    · contradiction
    · rw [decodeAll_eq_none.mpr h]

theorem validateWith_eq_true {n : Nat} {dec : Byte → Option Nat} {relation : List Nat → Bool}
    {chars : List Byte} (h : validateWith n dec relation chars = true) :
    n ≤ chars.length ∧ ∃ v, spells dec chars v ∧ relation v = true := by
  unfold validateWith at h
  split at h
  · cases h
  · split at h
    · cases h
    · rename_i v hv
      exact ⟨by omega, v, decodeAll_eq_some.mp hv, h⟩

theorem validateCheckWith_concat {dec decCheck : Byte → Option Nat} {relation : List Nat → Nat → Bool}
    {chars : List Byte} {b : Byte} {v : List Nat} {c : Nat} (h : spells dec chars v)
    (hb : decCheck b = some c) : validateCheckWith dec decCheck relation (chars ++ [b]) = relation v c := by
  simp only [validateCheckWith, decodeWithCheck_concat, decodeAll_eq_some.mpr h, hb]

/-- The operand is too short, or a character has no value at its position. -/
theorem validateCheckWith_of_bad {dec decCheck : Byte → Option Nat} {relation : List Nat → Nat → Bool}
    {chars : List Byte} (h : chars = [] ∨ (∃ b ∈ chars.dropLast, dec b = none) ∨
      ∃ b ∈ chars.getLast?, decCheck b = none) : validateCheckWith dec decCheck relation chars = false := by
  rcases List.eq_nil_or_concat chars with rfl | ⟨l, b, rfl⟩
  · rfl
  · rw [List.concat_eq_append] at *
    rw [validateCheckWith, decodeWithCheck_concat]
    rcases h with h | h | ⟨c, hc, h⟩
    · simp at h
    · simp only [List.dropLast_concat] at h
      rw [decodeAll_eq_none.mpr h]
      rcases decCheck b <;> rfl
    · simp only [List.getLast?_append, List.getLast?_singleton, Option.some_or, Option.mem_some] at hc
      subst hc; rw [h]

/-! ### Spelled operands -/

theorem spells_unique {dec : Byte → Option Nat} {chars : List Byte} {v w : List Nat}
    (h : spells dec chars v) (h' : spells dec chars w) : v = w := by
  have : v.map some = w.map some := by rw [← h, ← h']
  exact List.map_injective_iff.mpr (Option.some_injective _) this

theorem spells_append_inv {dec : Byte → Option Nat} {a b : List Byte} {v : List Nat}
    (h : spells dec (a ++ b) v) : ∃ v1 v2, v = v1 ++ v2 ∧ spells dec a v1 ∧ spells dec b v2 := by
  refine ⟨v.take a.length, v.drop a.length, (List.take_append_drop _ _).symm, ?_, ?_⟩
  · have := congrArg (List.take a.length) h
    simpa [spells, List.map_take] using this
  · have := congrArg (List.drop a.length) h
    simpa [spells, List.map_drop] using this

theorem spells_cons_inv {dec : Byte → Option Nat} {a : Byte} {rest : List Byte} {v : List Nat}
    (h : spells dec (a :: rest) v) : ∃ x w, v = x :: w ∧ dec a = some x ∧ spells dec rest w := by
  cases v with
  | nil => simp [spells] at h
  | cons x w =>
    simp only [spells, List.map_cons, List.cons.injEq] at h
    exact ⟨x, w, rfl, h.1, h.2⟩

theorem spells_singleton {dec : Byte → Option Nat} {b : Byte} {c : Nat} (h : dec b = some c) :
    spells dec [b] [c] := by simp [spells, h]

theorem spells_lt {dec : Byte → Option Nat} {n : Nat} (hd : ∀ b, ∀ x ∈ dec b, x < n) {chars : List Byte}
    {v : List Nat} (h : spells dec chars v) : ∀ x ∈ v, x < n := by
  intro x hx
  have hm : some x ∈ v.map some := List.mem_map_of_mem hx
  rw [← h] at hm
  obtain ⟨b, _, hb⟩ := List.mem_map.mp hm
  exact hd b x hb

/-! ### Outcomes -/

/-- A strict checksum command on an operand that fits and spells values (R96, R99). -/
theorem strict_completes {s : State} {tooLong : Bool} {dec : Byte → Option Nat}
    {out : List Nat → List Byte} {v : List Nat} (hwf : s.cfg.wf) (ht : tooLong = false)
    (h : spells dec (operand s) v) (hl : (out v).length ≤ 4) :
    ∃ t, complete (strict tooLong (computeWith dec out) s) s = .next t ∧ hasOutput t (out v) := by
  subst ht
  have e : strict false (computeWith dec out) s = .ok (out v) := by
    simp [strict, computeWith_of_spells out h]
  have h4 : 4 ≤ s.cfg.obufMax := by have := hwf.1.1; have := hwf.2.2.1; omega
  rw [e]; exact complete_ok_of_fits hwf (by omega)

theorem verdictIs_completeValid {s : State} {b : Bool} {p : Prop} (h : b = true ↔ p) :
    verdictIs (completeValid b s) p := by
  refine ⟨fun hp => ?_, fun hp => ?_, rfl⟩
  · rw [h.mpr hp]; rfl
  · obtain rfl : b = false := by
      cases b
      · rfl
      · exact absurd (h.mp rfl) hp
    rfl

/-- A permissive command on an operand that fits and spells values (R97, R98). -/
theorem permissive_completes {s : State} {tooLong : Bool} {n : Nat} {dec : Byte → Option Nat}
    {relation : List Nat → Bool} {v : List Nat} {p : Prop} (ht : tooLong = false)
    (h : spells dec (operand s) v) (hp : relation v = true ↔ p) :
    ∃ t, complete (permissive tooLong (validateWith n dec relation) s) s = .next t ∧
      verdictIs t (n ≤ s.ilen.toNat ∧ p) := by
  subst ht
  rw [permissive_eq]
  refine ⟨_, rfl, verdictIs_completeValid ?_⟩
  simp only [Bool.not_false, Bool.true_and, validateWith, operand_length, decodeAll_eq_some.mpr h]
  split
  · simp; omega
  · rw [hp]; simp; omega

/-- A permissive command whose check character has a decoder of its own (R77, R97). -/
theorem permissive_check_completes {s : State} {tooLong : Bool} {dec decCheck : Byte → Option Nat}
    {relation : List Nat → Nat → Bool} {v : List Nat} {chars : List Byte} {b : Byte} {c : Nat} {p : Prop}
    (ht : tooLong = false) (ho : operand s = chars ++ [b]) (h : spells dec chars v)
    (hb : decCheck b = some c) (hp : relation v c = true ↔ p) :
    ∃ t, complete (permissive tooLong (validateCheckWith dec decCheck relation) s) s = .next t ∧
      verdictIs t p := by
  subst ht
  rw [permissive_eq, ho, validateCheckWith_concat h hb]
  exact ⟨_, rfl, verdictIs_completeValid (by simpa using hp)⟩

end Sys2Proof.Machine
end

