-- ==== Sys2Proof/Laws/Checksums.lean ====
section
/-! SUPPORT. The loops of the checksum commands and the closed forms of Safety.lean. -/

namespace Sys2Proof.Machine

/-! ### Sums over the places of a list -/

/-- The sum of `f` over the places of a list, place and value. -/
def placeSum (f : Nat → Nat → Nat) (l : List Nat) : Nat :=
  ∑ j ∈ Finset.range l.length, f j (l.getD j 0)

theorem placeSum_nil (f : Nat → Nat → Nat) : placeSum f [] = 0 := by simp [placeSum]

theorem placeSum_cons (f : Nat → Nat → Nat) (x : Nat) (l : List Nat) :
    placeSum f (x :: l) = f 0 x + placeSum (fun j => f (j + 1)) l := by
  simp only [placeSum, List.length_cons, Finset.sum_range_succ']
  simp [add_comm]

theorem placeSum_congr {f g : Nat → Nat → Nat} {l : List Nat} (h : ∀ j, ∀ x ∈ l, f j x = g j x) :
    placeSum f l = placeSum g l := by
  refine Finset.sum_congr rfl fun j hj => h j _ ?_
  have hj := Finset.mem_range.mp hj
  simp [List.getD_eq_getElem?_getD, hj]

theorem fromRight_eq (v : List Nat) {j : Nat} (h : j < v.length) : fromRight v j = v.reverse.getD j 0 := by
  simp only [fromRight, List.getD_eq_getElem?_getD, List.getElem?_reverse h]

theorem sum_fromRight (f : Nat → Nat → Nat) (v : List Nat) :
    ∑ j ∈ Finset.range v.length, f j (fromRight v j) = placeSum f v.reverse := by
  rw [placeSum, List.length_reverse]
  refine Finset.sum_congr rfl fun j hj => ?_
  rw [fromRight_eq v (Finset.mem_range.mp hj)]

/-! ### Luhn (41_weighted_positional.md R111) -/

theorem luhnDouble_eq {n x : Nat} (h : x < n) : luhnDouble n x = 2 * x / n + 2 * x % n := by
  unfold luhnDouble
  split
  · have h1 : 2 * x / n = 1 := by
      rw [Nat.div_eq_iff (by omega)]; omega
    have h2 : 2 * x % n = 2 * x - n := by
      rw [Nat.mod_eq_sub_mod (by omega), Nat.mod_eq_of_lt (by omega)]
    omega
  · rw [Nat.div_eq_of_lt (by omega), Nat.mod_eq_of_lt (by omega)]; omega

theorem luhnLoop_eq (n : Nat) (l : List Nat) (h : ∀ x ∈ l, x < n) : ∀ d : Bool,
    luhnLoop n d l =
      placeSum (fun j x => if j % 2 = (if d then 0 else 1) then 2 * x / n + 2 * x % n else x) l := by
  induction l with
  | nil => intro d; simp [luhnLoop, placeSum_nil]
  | cons x l ih =>
    intro d
    rw [luhnLoop, ih (fun y hy => h y (List.mem_cons_of_mem _ hy)), placeSum_cons,
      luhnDouble_eq (h x (by simp))]
    congr 1
    · cases d <;> simp
    · refine placeSum_congr fun j x _ => ?_
      cases d
      · have : (j % 2 = 0) ↔ ((j + 1) % 2 = 1) := by omega
        simp [this]
      · have : (j % 2 = 1) ↔ ((j + 1) % 2 = 0) := by omega
        simp [this]

theorem luhnSum_eq {n : Nat} {v : List Nat} (h : ∀ x ∈ v, x < n) (d : Bool) :
    luhnSum n v d = luhnTotal n (if d then 0 else 1) v := by
  rw [luhnSum, luhnLoop_eq n _ (fun x hx => h x (List.mem_reverse.mp hx)), ← sum_fromRight]; rfl

theorem complementMod_lt {n sum : Nat} (h : 0 < n) : complementMod n sum < n := Nat.mod_lt _ h

theorem dvd_add_complementMod {n sum : Nat} (h : 0 < n) : n ∣ sum + complementMod n sum := by
  unfold complementMod
  have h1 := Nat.mod_lt sum h
  apply Nat.dvd_of_mod_eq_zero
  rw [Nat.add_mod, Nat.mod_mod]
  by_cases h0 : sum % n = 0
  · simp [h0]
  · rw [Nat.mod_eq_of_lt (show n - sum % n < n by omega),
      show sum % n + (n - sum % n) = n by omega, Nat.mod_self]

/-! ### GS1 (R116) and WMOD11 (R119) -/

theorem gs1Loop_eq (l : List Nat) : ∀ d : Bool,
    gs1Loop (if d then 3 else 1) l =
      placeSum (fun j x => (if j % 2 = (if d then 0 else 1) then 3 else 1) * x) l := by
  induction l with
  | nil => intro d; simp [gs1Loop, placeSum_nil]
  | cons x l ih =>
    intro d
    have hd : (4 - if d = true then 3 else 1) = if !d then 3 else 1 := by cases d <;> rfl
    rw [gs1Loop, placeSum_cons, hd, ih]
    congr 1
    · cases d <;> simp
    · refine placeSum_congr fun j x _ => ?_
      cases d
      · have : (j % 2 = 0) ↔ ((j + 1) % 2 = 1) := by omega
        simp [this]
      · have : (j % 2 = 1) ↔ ((j + 1) % 2 = 0) := by omega
        simp [this]

theorem gs1Loop_eq_total (v : List Nat) : gs1Loop 3 v.reverse = gs1Total 0 v := by
  have h := gs1Loop_eq v.reverse true
  simp only [if_true] at h
  rw [h, gs1Total, sum_fromRight (fun j x => (if j % 2 = 0 then 3 else 1) * x)]

theorem weightedSum_eq (s : State) (l : List Nat) : ∀ base k, l.length ≤ k →
    weightedSum ((bufferBytes s base k).map BitVec.toNat) l =
      placeSum (fun j x => x * (bufferByte s (base + j)).toNat) l := by
  induction l with
  | nil => intro b k _; cases h : (bufferBytes s b k).map BitVec.toNat <;> simp [weightedSum, placeSum_nil]
  | cons x l ih =>
    intro b k hk
    obtain ⟨m, rfl⟩ : ∃ m, k = m + 1 := ⟨k - 1, by simp at hk; omega⟩
    have e : bufferBytes s b (m + 1) = bufferByte s b :: bufferBytes s (b + 1) m := by
      simp only [bufferBytes, List.range_succ_eq_map, List.map_cons, List.map_map, add_zero]
      congr 1
      refine List.map_congr_left fun j _ => ?_
      simp only [Function.comp]; congr 1; omega
    rw [e, List.map_cons, weightedSum, ih _ _ (by simpa using hk), placeSum_cons]
    simp only [add_zero]
    congr 1
    refine placeSum_congr fun j x _ => ?_
    congr 3; omega

theorem weightedSum_left (s : State) (v : List Nat) {k : Nat} (h : v.length ≤ k) :
    weightedSum (weights s k) v = weightedLeft s v := by
  rw [weights, weightedSum_eq s v _ _ h]; rfl

theorem weightedSum_right (s : State) (v : List Nat) {k : Nat} (h : v.length ≤ k) :
    weightedSum (weights s k) v.reverse = weightedRight s v := by
  rw [weights, weightedSum_eq s _ _ _ (by simpa using h), ← sum_fromRight]; rfl

/-! ### Damm (42_damm.md R140) and Verhoeff (43_verhoeff.md R150) -/

theorem dammTable_eq : ∀ c < 10, ∀ d < 10, tableEntry dammTable c d = dammEntry c d ∧ dammEntry c d < 10 := by
  decide +kernel

theorem dammLoop_eq (v : List Nat) (h : ∀ x ∈ v, x < 10) : ∀ c < 10,
    dammLoop c v = v.foldl dammEntry c ∧ v.foldl dammEntry c < 10 := by
  induction v with
  | nil => intro c hc; exact ⟨rfl, hc⟩
  | cons x v ih =>
    intro c hc
    have hx := dammTable_eq c hc x (h x (by simp))
    rw [dammLoop, hx.1, List.foldl_cons]
    exact ih (fun y hy => h y (List.mem_cons_of_mem _ hy)) _ hx.2

theorem verhD_eq : ∀ a < 10, ∀ b < 10, tableEntry verhD a b = dihedral a b ∧ dihedral a b < 10 := by
  decide +kernel

theorem verhP_eq : ∀ r < 8, ∀ x < 10, tableEntry verhP r x = verhStep^[r] x ∧ verhStep^[r] x < 10 := by
  decide +kernel

theorem dihedral_assoc : ∀ a < 10, ∀ b < 10, ∀ c < 10,
    dihedral (dihedral a b) c = dihedral a (dihedral b c) := by decide +kernel

/-- The product of R156 over the values from the right, from `c` on. -/
def verhFrom (l : List Nat) (off c : Nat) : Nat :=
  (List.range l.length).foldl (fun c j => dihedral c (verhStep^[(j + off) % 8] (l.getD j 0))) c

theorem foldl_congr_mem {α : Type} {f g : α → Nat → α} (l : List Nat) (h : ∀ c, ∀ j ∈ l, f c j = g c j) :
    ∀ c, l.foldl f c = l.foldl g c := by
  induction l with
  | nil => intro _; rfl
  | cons x l ih =>
    intro c
    rw [List.foldl_cons, List.foldl_cons, h c x (by simp), ih fun c j hj => h c j (List.mem_cons_of_mem _ hj)]

theorem verhFrom_cons (x : Nat) (l : List Nat) (off c : Nat) :
    verhFrom (x :: l) off c = verhFrom l (off + 1) (dihedral c (verhStep^[off % 8] x)) := by
  unfold verhFrom
  rw [List.length_cons, List.range_succ_eq_map, List.foldl_cons, List.foldl_map]
  simp only [zero_add, List.getD_cons_zero, List.getD_cons_succ]
  refine foldl_congr_mem _ (fun c j _ => ?_) _
  rw [show Nat.succ j + off = j + (off + 1) by omega]

theorem verhProduct_eq (v : List Nat) (off : Nat) : verhProduct v off = verhFrom v.reverse off 0 := by
  unfold verhProduct verhFrom
  rw [List.length_reverse]
  refine foldl_congr_mem _ (fun c j hj => ?_) _
  rw [fromRight_eq v (List.mem_range.mp hj)]

theorem verhLoop_eq (l : List Nat) (h : ∀ x ∈ l, x < 10) : ∀ c off, c < 10 →
    verhLoop c off l = verhFrom l off c ∧ verhFrom l off c < 10 := by
  induction l with
  | nil => intro c off hc; exact ⟨rfl, hc⟩
  | cons x l ih =>
    intro c off hc
    have hp := verhP_eq (off % 8) (Nat.mod_lt _ (by omega)) x (h x (by simp))
    have hd := verhD_eq c hc _ hp.2
    rw [verhLoop, verhFrom_cons, hp.1, hd.1]
    exact ih (fun y hy => h y (List.mem_cons_of_mem _ hy)) _ _ hd.2

theorem verhFold_eq (v : List Nat) (h : ∀ x ∈ v, x < 10) (off : Nat) :
    verhFold v off = verhProduct v off ∧ verhProduct v off < 10 := by
  have := verhLoop_eq v.reverse (fun x hx => h x (List.mem_reverse.mp hx)) 0 off (by omega)
  rw [verhProduct_eq]; exact this

/-! ### ISO 7064 (44_iso7064.md) -/

theorem mod97Loop_eq (v : List Nat) : ∀ r,
    mod97Loop r v = if v = [] then r else (r * 10 ^ v.length + decimal v) % 97 := by
  induction v with
  | nil => intro r; rfl
  | cons x v ih =>
    intro r
    have e : decimal (x :: v) = x * 10 ^ v.length + decimal v := by
      simp [decimal, Nat.ofDigits_append]; ring
    rw [mod97Loop, ih]
    by_cases h : v = []
    · subst h; simp [decimal]
    · simp only [h, if_false, reduceCtorEq, List.length_cons, e]
      rw [show r * 10 ^ (v.length + 1) + (x * 10 ^ v.length + decimal v) =
        (r * 10 + x) * 10 ^ v.length + decimal v by ring]
      conv_rhs => rw [Nat.add_mod, Nat.mul_mod]
      conv_lhs => rw [Nat.add_mod, Nat.mul_mod, Nat.mod_mod]

theorem decimal_append_two (v : List Nat) (a b : Nat) :
    decimal (v ++ [a, b]) = 100 * decimal v + (10 * a + b) := by
  simp [decimal, Nat.ofDigits_cons]; ring

theorem iso1110Loop_eq (v : List Nat) : ∀ c, iso1110Loop c v = v.foldl iso1110Next c := by
  induction v with
  | nil => intro c; rfl
  | cons x v ih => intro c; rw [iso1110Loop, ih]; rfl

theorem pureLoop_eq (m r : Nat) (v : List Nat) : ∀ sum,
    pureLoop m r sum v % m = (sum * r ^ v.length + pureTotal r v) % m := by
  induction v with
  | nil => intro sum; simp [pureLoop, pureTotal]
  | cons x v ih =>
    intro sum
    have e : pureTotal r (x :: v) = x * r ^ (v.length + 1) + pureTotal r v := by
      simp only [pureTotal, List.length_cons, Finset.sum_range_succ']
      simp; ring
    rw [pureLoop, ih, e, List.length_cons,
      show sum * r ^ (v.length + 1) + (x * r ^ (v.length + 1) + pureTotal r v) =
        ((sum + x) * r) * r ^ v.length + pureTotal r v by ring]
    conv_rhs => rw [Nat.add_mod, Nat.mul_mod]
    conv_lhs => rw [Nat.add_mod, Nat.mul_mod, Nat.mod_mod]

theorem pureRun_eq {m r : Nat} (v : List Nat) (hm : 0 < m) : pureRun v m r = pureTotal r v % m := by
  have hlt : ∀ (v : List Nat), ∀ s < m, pureLoop m r s v < m := by
    intro v
    induction v with
    | nil => intro s h; exact h
    | cons x v ih => intro s _; exact ih _ (Nat.mod_lt _ hm)
  have h := pureLoop_eq m r v 0
  rw [Nat.mod_eq_of_lt (hlt v 0 hm)] at h
  rw [pureRun, h]; simp

theorem hybridLoop_eq (v : List Nat) : ∀ p, hybridLoop p v = v.foldl hybridNext p := by
  induction v with
  | nil => intro p; rfl
  | cons x v ih => intro p; rw [hybridLoop, ih]; rfl

theorem foldl_hybridNext_lt (v : List Nat) : ∀ p < 37, v.foldl hybridNext p < 37 := by
  induction v with
  | nil => intro p h; exact h
  | cons x v ih => intro p _; exact ih _ (Nat.mod_lt _ (by omega))

theorem foldl_iso1110Next_lt (v : List Nat) : ∀ p < 11, v.foldl iso1110Next p < 11 := by
  induction v with
  | nil => intro p h; exact h
  | cons x v ih => intro p _; exact ih _ (lt_trans (Nat.mod_lt _ (by omega)) (by omega))

end Sys2Proof.Machine
end

