-- ==== Sys2Proof/Laws/PerInstr.lean ====
section
/-! SUPPORT. The families of per-command statements: `RoundTrip`, about the encoding of each command. -/

namespace Sys2Proof.Laws

/-- The decoder reads a command back from its byte, whose reserved bits are 0 (30_encoding.md R60, R62). -/
def RoundTrip.Statement (i : Instr) : Prop := decode (encode i) = .ok i ∧ rsvField (encode i) = 0

theorem RoundTrip.luhn10C : RoundTrip.Statement .luhn10C := ⟨rfl, rfl⟩
theorem RoundTrip.luhn10V : RoundTrip.Statement .luhn10V := ⟨rfl, rfl⟩
theorem RoundTrip.luhn36C : RoundTrip.Statement .luhn36C := ⟨rfl, rfl⟩
theorem RoundTrip.luhn36V : RoundTrip.Statement .luhn36V := ⟨rfl, rfl⟩
theorem RoundTrip.gs1C : RoundTrip.Statement .gs1C := ⟨rfl, rfl⟩
theorem RoundTrip.gs1V : RoundTrip.Statement .gs1V := ⟨rfl, rfl⟩
theorem RoundTrip.wmod11CL : RoundTrip.Statement .wmod11CL := ⟨rfl, rfl⟩
theorem RoundTrip.wmod11VL : RoundTrip.Statement .wmod11VL := ⟨rfl, rfl⟩
theorem RoundTrip.wmod11CR : RoundTrip.Statement .wmod11CR := ⟨rfl, rfl⟩
theorem RoundTrip.wmod11VR : RoundTrip.Statement .wmod11VR := ⟨rfl, rfl⟩
theorem RoundTrip.dammC : RoundTrip.Statement .dammC := ⟨rfl, rfl⟩
theorem RoundTrip.dammV : RoundTrip.Statement .dammV := ⟨rfl, rfl⟩
theorem RoundTrip.verhC : RoundTrip.Statement .verhC := ⟨rfl, rfl⟩
theorem RoundTrip.verhV : RoundTrip.Statement .verhV := ⟨rfl, rfl⟩
theorem RoundTrip.iso97C : RoundTrip.Statement .iso97C := ⟨rfl, rfl⟩
theorem RoundTrip.iso97V : RoundTrip.Statement .iso97V := ⟨rfl, rfl⟩
theorem RoundTrip.iso1110C : RoundTrip.Statement .iso1110C := ⟨rfl, rfl⟩
theorem RoundTrip.iso1110V : RoundTrip.Statement .iso1110V := ⟨rfl, rfl⟩
theorem RoundTrip.iso112C : RoundTrip.Statement .iso112C := ⟨rfl, rfl⟩
theorem RoundTrip.iso112V : RoundTrip.Statement .iso112V := ⟨rfl, rfl⟩
theorem RoundTrip.iso3736C : RoundTrip.Statement .iso3736C := ⟨rfl, rfl⟩
theorem RoundTrip.iso3736V : RoundTrip.Statement .iso3736V := ⟨rfl, rfl⟩
theorem RoundTrip.b58cEnc : RoundTrip.Statement .b58cEnc := ⟨rfl, rfl⟩
theorem RoundTrip.b58cDec : RoundTrip.Statement .b58cDec := ⟨rfl, rfl⟩

end Sys2Proof.Laws
end

