-- ==== Sys2Proof/Laws/Port.lean ====
section
/-! SUPPORT. The register port: where an address lies, and what each host access can do. -/

namespace Sys2Proof.Machine

/-! ### The address map -/

theorem locate_ibuf {c : Config} {a : PortAddr} {k : Nat} (hwf : c.wf) (ha : a.toNat = 0x100 + k)
    (hk : k < c.ibufMax) : locate c a = .ibuf k := by
  have := hwf.1.2
  have e : a.toNat - 0x100 = k := by omega
  unfold locate
  dsimp only [olenAddr, ibufBase, wbufBase, obufBase]
  iterate 5 rw [if_neg (by omega)]
  rw [if_pos (by omega), e]

theorem locate_wbuf {c : Config} {a : PortAddr} {k : Nat} (hwf : c.wf) (ha : a.toNat = 0x200 + k)
    (hk : k < c.wbufMax) : locate c a = .wbuf k := by
  have := hwf.2.1
  have e : a.toNat - 0x200 = k := by omega
  unfold locate
  dsimp only [olenAddr, ibufBase, wbufBase, obufBase]
  iterate 6 rw [if_neg (by omega)]
  rw [if_pos (by omega), e]

theorem locate_obuf {c : Config} {a : PortAddr} {k : Nat} (ha : a.toNat = 0x300 + k)
    (hk : k < c.obufMax) : locate c a = .obuf k := by
  have e : a.toNat - 0x300 = k := by omega
  unfold locate
  dsimp only [olenAddr, ibufBase, wbufBase, obufBase]
  iterate 7 rw [if_neg (by omega)]
  rw [if_pos (by omega), e]

/-- What an address inside a buffer says of its number (R42). -/
theorem locate_buffer {c : Config} {a : PortAddr} {k : Nat} :
    (locate c a = .ibuf k → a.toNat = 0x100 + k ∧ a.toNat < 0x200 ∧ k < c.ibufMax) ∧
    (locate c a = .wbuf k → a.toNat = 0x200 + k ∧ a.toNat < 0x300 ∧ k < c.wbufMax) := by
  unfold locate
  dsimp only [olenAddr, ibufBase, wbufBase, obufBase]
  constructor <;> intro h <;> split_ifs at h <;> injection h <;> omega

/-! ### Host accesses -/

/-- A host read changes the read log and the draw counter only (R43). -/
theorem hostRead_eq (a : PortAddr) (s : State) :
    ∃ n, hostRead a s = { s with returned := (a.toNat, readByte s a) :: s.returned, busyReads := n } :=
  ⟨_, rfl⟩

/-- A write in flight is ignored (R50). -/
theorem hostWrite_busy {s : State} (h : busy s = true) (a : PortAddr) (v : Byte) :
    hostWrite a v s = s := by simp [hostWrite, h]

/-- What a host write can do (R42, R44, R50). -/
theorem hostWrite_cases (a : PortAddr) (v : Byte) (s : State) :
    hostWrite a v s = s ∨
    (busy s = false ∧
      (hostWrite a v s = startCommand v s ∨
       hostWrite a v s = { s with ilen := v } ∨
       hostWrite a v s = { s with wlen := v } ∨
       ∃ b, b < obufBase ∧ cellExists s.cfg b ∧
         hostWrite a v s = { s with mem := Memory.store s.mem b v })) := by
  unfold hostWrite
  split
  · exact .inl rfl
  · rename_i hb
    have hb : busy s = false := by simpa using hb
    cases hl : locate s.cfg a
    case cmd => exact .inr ⟨hb, .inl rfl⟩
    case ilen => exact .inr ⟨hb, .inr (.inl rfl)⟩
    case wlen => exact .inr ⟨hb, .inr (.inr (.inl rfl))⟩
    case ibuf k =>
      have hk := locate_buffer.1 hl
      exact .inr ⟨hb, .inr (.inr (.inr ⟨ibufBase + k, by simp only [ibufBase, obufBase]; omega,
        .inl (by omega), rfl⟩))⟩
    case wbuf k =>
      have hk := locate_buffer.2 hl
      exact .inr ⟨hb, .inr (.inr (.inr ⟨wbufBase + k, by simp only [wbufBase, obufBase]; omega,
        .inr (.inl (by omega)), rfl⟩))⟩
    all_goals exact .inl rfl

end Sys2Proof.Machine
end

