-- ==== Sys2Proof/Laws/Turns.lean ====
section
/-! SUPPORT. What a turn and a step can do, once. -/

namespace Sys2Proof.Machine

/-- What the unit's turn can do (10_state.md R24, 40_common_operation.md R92, R93, 60 R238). -/
theorem unitTurn_next {s t : State} (h : unitTurn s = .next t) :
    (busy s = false ∧ t = s) ∨
    (busy s = true ∧ (∃ e, decode s.cmd = .error e) ∧ t = completeErr .illegalCmd s) ∨
    (busy s = true ∧ ∃ i, decode s.cmd = .ok i ∧ exec i s = .next t) := by
  unfold unitTurn at h
  split at h
  · rename_i hb
    cases hd : decode s.cmd with
    | error e =>
      rw [hd] at h
      exact .inr (.inl ⟨hb, ⟨e, rfl⟩, (Host.Outcome.next.inj h).symm⟩)
    | ok i =>
      rw [hd] at h
      exact .inr (.inr ⟨hb, i, rfl, h⟩)
  · rename_i hb
    exact .inl ⟨by simpa using hb, (Host.Outcome.next.inj h).symm⟩

/-- The state in which the turn at the head of the schedule is taken. -/
def afterHead (s : State) : State := { s with schedule := s.schedule.tail }

/-- What a step can do (00_scope.md R8): one host access, or the unit's turn. -/
theorem step_next {s t : State} (h : step s = .next t) :
    s.cfg.wf ∧
    ((∃ access rest, s.schedule = .host access :: rest ∧ t = hostAccess access (afterHead s)) ∨
     ((s.schedule = [] ∨ s.schedule.head? = some .unit) ∧ unitTurn (afterHead s) = .next t)) := by
  unfold step nextTurn at h
  split at h
  · rename_i hwf
    refine ⟨hwf, ?_⟩
    rcases hs : s.schedule with _ | ⟨turn, rest⟩
    · rw [hs] at h
      refine .inr ⟨.inl rfl, ?_⟩
      have : afterHead s = s := by cases s; simp_all [afterHead]
      rw [this]; exact h
    · rw [hs] at h
      have hrest : afterHead s = { s with schedule := rest } := by simp [afterHead, hs]
      cases turn with
      | host access =>
        refine .inl ⟨access, rest, rfl, ?_⟩
        rw [hrest]; exact (Host.Outcome.next.inj h).symm
      | unit =>
        refine .inr ⟨.inr rfl, ?_⟩
        rw [hrest]; exact h
  · cases h

/-- A host access at the head of the schedule is taken. -/
theorem step_host {s : State} {access : HostAccess} {rest : List Turn} (hwf : s.cfg.wf)
    (hs : s.schedule = .host access :: rest) :
    step s = .next (hostAccess access { s with schedule := rest }) := by
  unfold step nextTurn
  rw [if_pos hwf, hs]; rfl

/-- The unit's turn is taken when it is at the head of the schedule or the schedule is empty. -/
theorem step_unit {s : State} (hwf : s.cfg.wf)
    (hs : s.schedule = [] ∨ s.schedule.head? = some .unit) :
    step s = unitTurn (afterHead s) := by
  unfold step nextTurn
  rw [if_pos hwf]
  rcases hl : s.schedule with _ | ⟨turn, rest⟩
  · have : afterHead s = s := by cases s; simp_all [afterHead]
    rw [this]
  · rcases hs with hs | hs
    · rw [hl] at hs; cases hs
    · rw [hl] at hs
      obtain rfl : turn = .unit := by simpa using hs
      simp only [afterHead, hl, List.tail_cons]; rfl

/-! ### Runs -/

/-- The first step of a run of any machine. -/
theorem run_succ (M : Host.Core) (n : Nat) {s t : M.State} (h : M.step s = .next t) :
    M.run (n + 1) s = M.run n t := by
  rw [Host.Core.run, h]

/-- A run that gets somewhere can be cut after its first steps. -/
theorem run_add (M : Host.Core) (m n : Nat) {s t : M.State} (h : M.run m s = .next t) :
    M.run (m + n) s = M.run n t := by
  induction m generalizing s with
  | zero =>
    obtain rfl : s = t := Host.Outcome.next.inj h
    rw [Nat.zero_add]
  | succ m ih =>
    rw [Host.Core.run] at h
    cases hs : M.step s with
    | next u =>
      rw [hs] at h
      rw [Nat.add_right_comm, run_succ M _ hs, ih h]
    | fault r => rw [hs] at h; cases h
    | refused r => rw [hs] at h; cases h

/-- The first step of a run of the unit and its host. -/
theorem run_succ_of_next {s t : State} (n : Nat) (h : step s = .next t) :
    Host.Core.run Sys2Proof.core (n + 1) s = Host.Core.run Sys2Proof.core n t :=
  run_succ Sys2Proof.core n h

end Sys2Proof.Machine
end

