-- ==== Sys2Proof/Tests/Slice0.lean ====
section
/-! SUPPORT. Tests: the checks of WellFormed, the words of 30_encoding.md R62 written out bit by bit, two
vectors of 95_test_vectors.md for each command, the hash values of 46_sha256.md R219, and for every
statement with hypotheses a witness that meets them all. -/

namespace Sys2Proof.Tests

open Sys2Proof.Machine

set_option Elab.async false

/-! ## Helpers -/

/-- The characters of a string as ASCII bytes. -/
def text (x : String) : List Byte := x.toList.map ascii

/-- The state after reset with `chars` loaded into IBUF and `w` into WBUF (30_encoding.md R81). -/
def benchBytes (chars w : List Byte) : State :=
  { State.reset with
    ilen := BitVec.ofNat 8 chars.length
    wlen := BitVec.ofNat 8 w.length
    mem := cellsFrom ibufBase chars ++ cellsFrom wbufBase w }

/-- The same from a string. -/
def bench (chars : String) (w : List Byte) : State := benchBytes (text chars) w

/-- The command ends with this STATUS and this result. -/
def completes (i : Instr) (s : State) (status : Byte) (out : List Byte) : Prop :=
  ∃ t, exec i s = .next t ∧ t.status = status ∧ resultBytes t = out

/-- The same, evaluated. -/
def completesBool (i : Instr) (s : State) (status : Byte) (out : List Byte) : Bool :=
  match exec i s with
  | .next t => decide (t.status = status ∧ resultBytes t = out)
  | _ => false

theorem completes_of {i : Instr} {s : State} {status : Byte} {out : List Byte}
    (h : completesBool i s status out = true) : completes i s status out := by
  unfold completesBool at h
  split at h
  · rename_i t ht
    obtain ⟨h1, h2⟩ := of_decide_eq_true h
    exact ⟨t, ht, h1, h2⟩
  · cases h

/-- The turns still to come. -/
def withTurns (s : State) (ts : List Turn) : State := { s with schedule := ts }

/-- Command `i` in flight on `chars`. -/
def inFlight (i : Instr) (chars : String) (ts : List Turn) : State :=
  { bench chars [] with cmd := encode i, status := 0x01, schedule := ts }

/-! ## WellFormed: one ill-formed configuration for each check of 00_scope.md R6 -/

theorem test_defaults_wf : Config.defaults.wf := by decide

theorem test_ibuf_too_small_refused : ¬ Config.ibufInRange { Config.defaults with ibufMax := 3 } := by decide

theorem test_ibuf_too_large_refused : ¬ Config.ibufInRange { Config.defaults with ibufMax := 256 } := by
  decide

theorem test_wbuf_too_large_refused : ¬ Config.wbufInRange { Config.defaults with wbufMax := 256 } := by
  decide

theorem test_obuf_below_input_refused : ¬ Config.obufCoversInput { Config.defaults with obufMax := 127 } := by
  decide

theorem test_obuf_below_text_refused : ¬ Config.obufCoversText { Config.defaults with obufMax := 182 } := by
  decide

theorem test_obuf_too_large_refused : ¬ Config.obufInRange { Config.defaults with obufMax := 256 } := by
  decide

theorem test_smallest_config_wf : Config.wf { ibufMax := 4, wbufMax := 0, obufMax := 12, iso3736 := .pure } := by
  decide

/-! ## Decode: every word of 30_encoding.md R62 in bits, RSV DIR SCHEME MODE -/

theorem test_decode_luhn10C : decode 0b00000010 = .ok .luhn10C := by decide
theorem test_decode_luhn10V : decode 0b00000011 = .ok .luhn10V := by decide
theorem test_decode_luhn36C : decode 0b00000100 = .ok .luhn36C := by decide
theorem test_decode_luhn36V : decode 0b00000101 = .ok .luhn36V := by decide
theorem test_decode_gs1C : decode 0b00000110 = .ok .gs1C := by decide
theorem test_decode_gs1V : decode 0b00000111 = .ok .gs1V := by decide
theorem test_decode_wmod11CL : decode 0b00001000 = .ok .wmod11CL := by decide
theorem test_decode_wmod11VL : decode 0b00001001 = .ok .wmod11VL := by decide
theorem test_decode_wmod11CR : decode 0b00101000 = .ok .wmod11CR := by decide
theorem test_decode_wmod11VR : decode 0b00101001 = .ok .wmod11VR := by decide
theorem test_decode_dammC : decode 0b00001010 = .ok .dammC := by decide
theorem test_decode_dammV : decode 0b00001011 = .ok .dammV := by decide
theorem test_decode_verhC : decode 0b00001100 = .ok .verhC := by decide
theorem test_decode_verhV : decode 0b00001101 = .ok .verhV := by decide
theorem test_decode_iso97C : decode 0b00001110 = .ok .iso97C := by decide
theorem test_decode_iso97V : decode 0b00001111 = .ok .iso97V := by decide
theorem test_decode_iso1110C : decode 0b00010000 = .ok .iso1110C := by decide
theorem test_decode_iso1110V : decode 0b00010001 = .ok .iso1110V := by decide
theorem test_decode_iso112C : decode 0b00010010 = .ok .iso112C := by decide
theorem test_decode_iso112V : decode 0b00010011 = .ok .iso112V := by decide
theorem test_decode_iso3736C : decode 0b00010100 = .ok .iso3736C := by decide
theorem test_decode_iso3736V : decode 0b00010101 = .ok .iso3736V := by decide
theorem test_decode_b58cEnc : decode 0b00010110 = .ok .b58cEnc := by decide
theorem test_decode_b58cDec : decode 0b00010111 = .ok .b58cDec := by decide

/-- R64: a byte for each clause. -/
theorem test_decode_illegal :
    decode 0b00000000 = .error .reservedScheme ∧ decode 0b00011000 = .error .reservedScheme ∧
    decode 0b00100010 = .error .directionNotAllowed ∧ decode 0b01000010 = .error .reservedBits ∧
    decode 0b10000010 = .error .reservedBits := by decide

theorem test_table_word : decodeTableWord 8 0b00101001 = some .wmod11VR ∧ decodeTableWord 8 0x18 = none := by
  decide

/-- A placed word runs in the very next step: DAMM.C "572" gives "4" (T4). -/
theorem test_withFetchWord :
    (match step ((bench "572" []).withFetchWord 8 0x0A) with
      | .next t => decide (t.cmd = 0x0A ∧ t.status = 0x02 ∧ resultBytes t = text "4")
      | _ => false) = true := by decide +kernel

/-! ## The commands: vectors of 95_test_vectors.md, named by their id there -/

/-- L1. -/
theorem test_luhn10C_check : completes .luhn10C (bench "7992739871" []) 0x02 (text "3") :=
  completes_of (by decide +kernel)

/-- L13. -/
theorem test_luhn10C_bad_char : completes .luhn10C (bench "12a4" []) 0x1A (text "") :=
  completes_of (by decide +kernel)

/-- S1. -/
theorem test_luhn10V_valid : completes .luhn10V (bench "79927398713" []) 0x06 (text "") :=
  completes_of (by decide +kernel)

/-- S2. -/
theorem test_luhn10V_wrong : completes .luhn10V (bench "79927398714" []) 0x02 (text "") :=
  completes_of (by decide +kernel)

/-- M2. -/
theorem test_luhn36C_check : completes .luhn36C (bench "abc123" []) 0x02 (text "I") :=
  completes_of (by decide +kernel)

/-- M7. -/
theorem test_luhn36C_carry : completes .luhn36C (bench "I" []) 0x02 (text "Z") :=
  completes_of (by decide +kernel)

/-- M4. -/
theorem test_luhn36V_valid : completes .luhn36V (bench "abc123i" []) 0x06 (text "") :=
  completes_of (by decide +kernel)

/-- M5. -/
theorem test_luhn36V_wrong : completes .luhn36V (bench "ABC123J" []) 0x02 (text "") :=
  completes_of (by decide +kernel)

/-- G1. -/
theorem test_gs1C_check : completes .gs1C (bench "629104150021" []) 0x02 (text "3") :=
  completes_of (by decide +kernel)

/-- G6. -/
theorem test_gs1C_odd_length : completes .gs1C (bench "7351353" []) 0x02 (text "7") :=
  completes_of (by decide +kernel)

/-- G5. -/
theorem test_gs1V_valid : completes .gs1V (bench "4006381333931" []) 0x06 (text "") :=
  completes_of (by decide +kernel)

/-- G15. -/
theorem test_gs1V_x_is_no_digit : completes .gs1V (bench "629104150021X" []) 0x02 (text "") :=
  completes_of (by decide +kernel)

/-- W5. -/
theorem test_wmod11CL_check :
    completes .wmod11CL (bench "080442957" [1, 2, 3, 4, 5, 6, 7, 8, 9]) 0x02 (text "X") :=
  completes_of (by decide +kernel)

/-- W19. -/
theorem test_wmod11CL_length_first : completes .wmod11CL (bench "1a" [1]) 0x6A (text "") :=
  completes_of (by decide +kernel)

/-- W6. -/
theorem test_wmod11VL_valid :
    completes .wmod11VL (bench "080442957X" [1, 2, 3, 4, 5, 6, 7, 8, 9]) 0x06 (text "") :=
  completes_of (by decide +kernel)

/-- W14. -/
theorem test_wmod11VL_surplus_weight : completes .wmod11VL (bench "125" [1, 2, 9]) 0x06 (text "") :=
  completes_of (by decide +kernel)

/-- W4. -/
theorem test_wmod11CR_check :
    completes .wmod11CR (bench "030640615" [2, 3, 4, 5, 6, 7, 8, 9, 10]) 0x02 (text "9") :=
  completes_of (by decide +kernel)

/-- W9. -/
theorem test_wmod11CR_order : completes .wmod11CR (bench "12" [1, 2]) 0x02 (text "4") :=
  completes_of (by decide +kernel)

/-- W20. -/
theorem test_wmod11VR_valid :
    completes .wmod11VR (bench "0306406152" [9, 8, 7, 6, 5, 4, 3, 2, 1]) 0x06 (text "") :=
  completes_of (by decide +kernel)

/-- P2 read from the right. -/
theorem test_wmod11VR_left_weights :
    completes .wmod11VR (bench "0306406152" [1, 2, 3, 4, 5, 6, 7, 8, 9]) 0x02 (text "") :=
  completes_of (by decide +kernel)

/-- DA1. -/
theorem test_dammC_check : completes .dammC (bench "572" []) 0x02 (text "4") :=
  completes_of (by decide +kernel)

/-- DA11. -/
theorem test_dammC_row_is_accumulator : completes .dammC (bench "90" []) 0x02 (text "4") :=
  completes_of (by decide +kernel)

/-- DA2. -/
theorem test_dammV_valid : completes .dammV (bench "5724" []) 0x06 (text "") :=
  completes_of (by decide +kernel)

/-- DA3. -/
theorem test_dammV_swap : completes .dammV (bench "5274" []) 0x02 (text "") :=
  completes_of (by decide +kernel)

/-- VE14. -/
theorem test_verhC_check : completes .verhC (bench "1234567890123456789" []) 0x02 (text "5") :=
  completes_of (by decide +kernel)

/-- VE11. -/
theorem test_verhC_zero : completes .verhC (bench "0" []) 0x02 (text "4") :=
  completes_of (by decide +kernel)

/-- VE2. -/
theorem test_verhV_valid : completes .verhV (bench "2363" []) 0x06 (text "") :=
  completes_of (by decide +kernel)

/-- VE4. -/
theorem test_verhV_swap : completes .verhV (bench "3263" []) 0x02 (text "") :=
  completes_of (by decide +kernel)

/-- S3. -/
theorem test_iso97C_check :
    completes .iso97C (bench "32142829123456987654321611" []) 0x02 (text "82") :=
  completes_of (by decide +kernel)

/-- T7. -/
theorem test_iso97C_leading_zero : completes .iso97C (bench "96" []) 0x02 (text "04") :=
  completes_of (by decide +kernel)

/-- S4. -/
theorem test_iso97V_valid :
    completes .iso97V (bench "3214282912345698765432161182" []) 0x06 (text "") :=
  completes_of (by decide +kernel)

/-- I97-7. -/
theorem test_iso97V_one_digit : completes .iso97V (bench "1" []) 0x02 (text "") :=
  completes_of (by decide +kernel)

/-- I10-1. -/
theorem test_iso1110C_check : completes .iso1110C (bench "0794" []) 0x02 (text "5") :=
  completes_of (by decide +kernel)

/-- I10-7. -/
theorem test_iso1110C_zero_branch : completes .iso1110C (bench "0" []) 0x02 (text "2") :=
  completes_of (by decide +kernel)

/-- I10-2. -/
theorem test_iso1110V_valid : completes .iso1110V (bench "07945" []) 0x06 (text "") :=
  completes_of (by decide +kernel)

/-- I10-3. -/
theorem test_iso1110V_wrong : completes .iso1110V (bench "07946" []) 0x02 (text "") :=
  completes_of (by decide +kernel)

/-- I2-3. -/
theorem test_iso112C_check : completes .iso112C (bench "079" []) 0x02 (text "X") :=
  completes_of (by decide +kernel)

/-- I2-13. -/
theorem test_iso112C_bad_char : completes .iso112C (bench "07X" []) 0x1A (text "") :=
  completes_of (by decide +kernel)

/-- I2-4. -/
theorem test_iso112V_valid : completes .iso112V (bench "079X" []) 0x06 (text "") :=
  completes_of (by decide +kernel)

/-- I2-5. -/
theorem test_iso112V_lower_x : completes .iso112V (bench "079x" []) 0x02 (text "") :=
  completes_of (by decide +kernel)

/-- I36-5. -/
theorem test_iso3736C_asterisk : completes .iso3736C (bench "Z" []) 0x02 (text "*") :=
  completes_of (by decide +kernel)

/-- I36-6. -/
theorem test_iso3736V_valid : completes .iso3736V (bench "Z*" []) 0x06 (text "") :=
  completes_of (by decide +kernel)

/-- B14. -/
theorem test_b58cEnc_text :
    completes .b58cEnc (bench "hello world" []) 0x02 (text "3vQB7B6MrGQZaxCuFg4oh") :=
  completes_of (by decide +kernel)

/-- B5. -/
theorem test_b58cEnc_empty : completes .b58cEnc (bench "" []) 0x2A (text "") :=
  completes_of (by decide +kernel)

/-- B15. -/
theorem test_b58cDec_payload :
    completes .b58cDec (bench "3vQB7B6MrGQZaxCuFg4oh" []) 0x02 (text "hello world") :=
  completes_of (by decide +kernel)

/-- B11. -/
theorem test_b58cDec_checksum : completes .b58cDec (bench "12edB6q" []) 0x5A (text "") :=
  completes_of (by decide +kernel)

/-- 92 D22: HYBRID gives "M" on the operand of I36-1. -/
theorem test_iso3736C_hybrid :
    completes .iso3736C { bench "A12425GABC1234002" [] with cfg := { Config.defaults with iso3736 := .hybrid } }
      0x02 (text "M") := completes_of (by decide +kernel)

/-- 92 D22: HYBRID accepts that character. -/
theorem test_iso3736V_hybrid :
    completes .iso3736V { bench "A12425GABC1234002M" [] with cfg := { Config.defaults with iso3736 := .hybrid } }
      0x06 [] := completes_of (by decide +kernel)

/-- 46 R219: SHA256("abc"), first and last byte, and the suffix of the empty string (95 section 2.7). -/
theorem test_sha256_abc : (sha256 (text "abc")).take 4 = [0xba, 0x78, 0x16, 0xbf] ∧
    (sha256 (text "abc")).drop 28 = [0xf2, 0x00, 0x15, 0xad] := by decide +kernel

theorem test_suffix_empty : suffix [] = [0x5d, 0xf6, 0xe0, 0xe2] := by decide +kernel

/-- 45_base58check.md R201, R204: the one text that B58C.DEC accepts and B58C.ENC never writes. -/
theorem test_text_of_empty_payload : textOf (suffix []) = text "3QJmnh" := by decide +kernel

/-! ## Witnesses -/

/-- 30_encoding.md R71 to R75 and 45 R192 at both ends of their ranges, and the bytes beside them. -/
theorem witness_SymbolDecodersInvertEncoders :
    dec10 0x30 = some 0 ∧ dec10 0x39 = some 9 ∧ dec58 0x31 = some 0 ∧ dec58 0x7A = some 57 ∧
    dec36 0x41 = some 10 ∧ dec36 0x5A = some 35 ∧ dec36 0x61 = some 10 ∧ dec36 0x7A = some 35 ∧
    dec11 0x58 = some 10 ∧ dec11 0x78 = none ∧ dec37 0x2A = some 36 ∧
    (∀ b ∈ ([0x2F, 0x3A, 0x40, 0x5B, 0x60, 0x7B] : List Byte), dec36 b = none) ∧
    (∀ b ∈ ([0x30, 0x49, 0x4F, 0x6C] : List Byte), dec58 b = none) := by decide +kernel

/-- 45_base58check.md R191: DEC58 of the alphabet, character by character as printed, counts 0 to 57. -/
theorem test_alphabet58 :
    (text "123456789ABCDEFGHJKLMNPQRSTUVWXYZabcdefghijkmnopqrstuvwxyz").map dec58 =
      (List.range 58).map some := by decide +kernel

/-- Both clauses: an empty schedule, and the unit's turn first. -/
theorem witness_StepRunsTheCommandInFlight :
    (inFlight .dammC "572" []).cfg.wf ∧ (inFlight .dammC "572" []).schedule = [] ∧
    busy (inFlight .dammC "572" []) = true ∧ decode (inFlight .dammC "572" []).cmd = .ok .dammC ∧
    (inFlight .dammC "572" [.unit, .host .reset]).schedule.head? = some .unit := by decide +kernel

theorem witness_UnitWaitsOutsideAFlight :
    (bench "572" []).cfg.wf ∧ (bench "572" []).schedule = [] ∧ busy (bench "572" []) = false ∧
    (withTurns (bench "572" []) [.unit]).schedule.head? = some .unit := by decide +kernel

theorem witness_IllegalByteCompletesWithIllegalCmd :
    (bench "572" []).cfg.wf ∧ busy (bench "572" []) = false ∧
    (withTurns (bench "572" []) [.host (.write 0x000 0x22), .unit]).schedule =
      .host (.write 0x000 0x22) :: .unit :: [] ∧
    decode 0x22 = .error .directionNotAllowed ∧ decode 0xFF = .error .reservedBits := by decide +kernel

/-- A state in which LUHN10.V has found "0" valid, and a write to IBUF comes next. -/
def doneState : State :=
  { bench "0" [] with cmd := 0x03, status := 0x06, schedule := [.host (.write 0x101 0x31)] }

theorem witness_StepKeepsInvariant : Inv doneState ∧ ∃ t, step doneState = .next t := by
  refine ⟨⟨by decide +kernel, by decide +kernel, by decide +kernel,
    .inr (.inr ⟨by decide +kernel, fun _ => rfl, ?_⟩), ⟨by decide +kernel, ?_⟩⟩, _, step_host (by decide +kernel) rfl⟩
  · intro i _ h
    exact absurd h (by decide +kernel)
  · intro a ha
    have hne : a ≠ 0x100 := by simp only [obufBase] at ha; omega
    have hlt : ¬ a < obufBase + 0 := by omega
    simp only [doneState, bench, benchBytes, text, cellsFrom]
    simp [cellsFrom, ascii, hne]
    exact ha

theorem witness_StepStopsOnlyOnIllFormedConfiguration :
    State.reset.cfg.wf ∧
    ¬ ({ State.reset with cfg := { Config.defaults with obufMax := 64 } } : State).cfg.wf := by decide +kernel

theorem witness_ResetClearsEveryPhase :
    (inFlight .dammC "572" [.host .reset]).cfg.wf ∧
    (inFlight .dammC "572" [.host .reset]).schedule = .host .reset :: [] ∧
    busy (inFlight .dammC "572" [.host .reset]) = true := by decide +kernel

/-- The first and the last address of each range of 20_memory.md R42 with the default capacities. -/
def mapBoundaries : List (PortAddr × Location) :=
  [(0x000, .cmd), (0x001, .status), (0x002, .ilen), (0x003, .wlen), (0x004, .olen), (0x005, .reserved),
   (0x0FF, .reserved), (0x100, .ibuf 0), (0x17F, .ibuf 127), (0x180, .reserved), (0x1FF, .reserved),
   (0x200, .wbuf 0), (0x27F, .wbuf 127), (0x280, .reserved), (0x2FF, .reserved), (0x300, .obuf 0),
   (0x3BF, .obuf 191), (0x3C0, .reserved), (0x3FF, .reserved)]

/-- The map at every boundary: one clause of a port statement for each address. -/
theorem test_map_boundaries : ∀ p ∈ mapBoundaries, locate Config.defaults p.1 = p.2 := by decide +kernel

/-- An idle unit about to be read at every boundary address. -/
theorem witness_IdleReadReturnsTheMapEntry : ∀ p ∈ mapBoundaries,
    (withTurns (bench "572" []) [.host (.read p.1)]).cfg.wf ∧
    busy (withTurns (bench "572" []) [.host (.read p.1)]) = false ∧
    (withTurns (bench "572" []) [.host (.read p.1)]).schedule = .host (.read p.1) :: [] := by decide +kernel

/-- A busy unit about to be read at every boundary address. -/
theorem witness_BusyReadReturnsFrozenOrFree : ∀ p ∈ mapBoundaries,
    (inFlight .dammC "572" [.host (.read p.1)]).cfg.wf ∧
    (inFlight .dammC "572" [.host (.read p.1)]).status = 0x01 ∧
    (inFlight .dammC "572" [.host (.read p.1)]).schedule = .host (.read p.1) :: [] := by decide +kernel

/-- The boundary addresses that are reserved or read-only, read and written. -/
theorem witness_ReservedAndReadOnlyAddresses :
    (∀ a ∈ ([0x005, 0x0FF, 0x180, 0x1FF, 0x280, 0x2FF, 0x3C0, 0x3FF] : List PortAddr),
      ((0x005 ≤ a.toNat ∧ a.toNat ≤ 0x0FF) ∨ (0x100 + 128 ≤ a.toNat ∧ a.toNat ≤ 0x1FF) ∨
        (0x200 + 128 ≤ a.toNat ∧ a.toNat ≤ 0x2FF) ∨ 0x300 + 192 ≤ a.toNat) ∧
      (withTurns State.reset [.host (.read a)]).schedule = .host (.read a) :: []) ∧
    (∀ a ∈ ([0x001, 0x004, 0x300, 0x3BF] : List PortAddr),
      (a.toNat = 0x001 ∨ a.toNat = 0x004 ∨ (0x300 ≤ a.toNat ∧ a.toNat < 0x300 + 192)) ∧
      (withTurns State.reset [.host (.write a 0x55)]).schedule = .host (.write a 0x55) :: []) ∧
    State.reset.cfg.wf := by decide +kernel

theorem witness_BusyWriteIsIgnored :
    (inFlight .dammC "572" [.host (.write 0x000 0x02)]).cfg.wf ∧
    busy (inFlight .dammC "572" [.host (.write 0x000 0x02)]) = true ∧
    (inFlight .dammC "572" [.host (.write 0x000 0x02)]).schedule = .host (.write 0x000 0x02) :: [] := by decide +kernel

/-- ILEN, WLEN, and both ends of IBUF and WBUF. -/
theorem witness_IdleWriteStores :
    ∀ a ∈ ([0x002, 0x003, 0x100, 0x17F, 0x200, 0x27F] : List PortAddr),
      (withTurns State.reset [.host (.write a 0x55)]).cfg.wf ∧
      busy (withTurns State.reset [.host (.write a 0x55)]) = false ∧
      (withTurns State.reset [.host (.write a 0x55)]).schedule = .host (.write a 0x55) :: [] ∧
      (a.toNat = 0x002 ∨ a.toNat = 0x003 ∨ a.toNat = 0x100 + 0 ∨ a.toNat = 0x100 + 127 ∨
        a.toNat = 0x200 + 0 ∨ a.toNat = 0x200 + 127) := by decide +kernel

theorem witness_CommandStart :
    (withTurns (bench "572" []) [.host (.write 0x000 0x0A)]).cfg.wf ∧
    busy (withTurns (bench "572" []) [.host (.write 0x000 0x0A)]) = false ∧
    (withTurns (bench "572" []) [.host (.write 0x000 0x0A)]).schedule = .host (.write 0x000 0x0A) :: [] := by
  decide +kernel

/-- The longest result OBUF holds, and none. -/
theorem witness_CompletionsWriteResultAndStatus :
    State.reset.cfg.wf ∧ (List.replicate 192 (0xFF : Byte)).length ≤ State.reset.cfg.obufMax ∧
    ([] : List Byte).length ≤ State.reset.cfg.obufMax := by decide +kernel

theorem witness_CommandsLeaveOperandsUntouched :
    (bench "572" []).cfg.wf ∧ completes .dammC (bench "572" []) 0x02 (text "4") :=
  ⟨by decide +kernel, completes_of (by decide +kernel)⟩

theorem witness_EveryCommandCompletes : State.reset.cfg.wf := by decide +kernel

/-- Each way not to be valid: too long, too short, a bad payload character, a bad check character. -/
theorem witness_PermissiveCommandsGiveVerdicts :
    (Instr.luhn10V, dec10, dec10) ∈ validateCommands ∧ (Instr.iso97V, dec10, dec10) ∈ validateCommands ∧
    ({ State.reset with ilen := 129 } : State).cfg.ibufMax < ({ State.reset with ilen := 129 } : State).ilen.toNat ∧
    (bench "1" []).ilen.toNat < 2 ∧ (bench "" []).ilen.toNat < 1 ∧
    (∃ b ∈ (operand (bench "a1" [])).dropLast, dec10 b = none) ∧
    (∃ b ∈ (operand (bench "1a" [])).getLast?, dec10 b = none) := by
  refine ⟨by simp [validateCommands], by simp [validateCommands], ?_⟩
  decide +kernel

/-- A final asterisk under HYBRID (92 D22). -/
theorem witness_PermissiveCommandsGiveVerdicts_hybrid :
    ({ bench "Z*" [] with cfg := { Config.defaults with iso3736 := .hybrid } } : State).cfg.iso3736 = .hybrid ∧
    (∃ b ∈ (operand { bench "Z*" [] with cfg := { Config.defaults with iso3736 := .hybrid } }).getLast?,
      dec36 b = none) := by decide +kernel

/-- A strict, a weighted and the two other commands with a bad character. -/
theorem witness_InvalidCharacterOutcomes :
    (Instr.luhn10C, dec10) ∈ computeCommands ∧ (Instr.wmod11CL, dec10) ∈ computeCommands ∧
    Instr.wmod11CL ∈ weightCommands ∧
    (bench "1a" [1, 2]).ilen.toNat ≤ (bench "1a" [1, 2]).cfg.ibufMax ∧
    (bench "1a" [1, 2]).wlen.toNat ≤ (bench "1a" [1, 2]).cfg.wbufMax ∧
    (bench "1a" [1, 2]).ilen.toNat ≤ (bench "1a" [1, 2]).wlen.toNat ∧
    (∃ b ∈ operand (bench "1a" [1, 2]), dec10 b = none) ∧ (∃ b ∈ operand (bench "0" []), dec58 b = none) ∧
    (Instr.iso112V, dec10, dec11) ∈ validateCommands ∧
    operand (bench "079x" []) = text "079" ++ [0x78] ∧ dec11 0x78 = none := by
  refine ⟨by simp [computeCommands], by simp [computeCommands], by decide +kernel, by decide +kernel,
    by decide +kernel, by decide +kernel,
    by decide +kernel, by decide +kernel, by simp [validateCommands], by decide +kernel, by decide +kernel⟩

/-- One byte over each capacity. -/
theorem witness_CapacityCheckComesFirst :
    Instr.b58cEnc ∈ strictCommands ∧ Instr.luhn10V ∈ permissiveCommands ∧
    ({ State.reset with ilen := 129 } : State).cfg.ibufMax < ({ State.reset with ilen := 129 } : State).ilen.toNat ∧
    ({ State.reset with wlen := 129 } : State).cfg.wbufMax < ({ State.reset with wlen := 129 } : State).wlen.toNat ∧
    (bench "123" [1, 2]).wlen.toNat < (bench "123" [1, 2]).ilen.toNat ∧
    (bench "1235" [1, 2]).wlen.toNat + 1 < (bench "1235" [1, 2]).ilen.toNat := by
  refine ⟨by simp [strictCommands], by simp [permissiveCommands, validateCommands], ?_⟩
  decide +kernel

/-- Two states with the same operand, one after reset and one after another command. -/
theorem witness_CommandsArePureFunctions :
    sameOperands .dammC (bench "572" []) { bench "572" [] with cmd := 0x16, status := 0x02, redraws := 7 } ∧
    completes .dammC (bench "572" []) 0x02 (text "4") :=
  ⟨⟨rfl, rfl, fun _ => rfl, fun h => absurd h (by decide +kernel)⟩, completes_of (by decide +kernel)⟩

/-- The same for a weighted command. -/
theorem witness_CommandsArePureFunctions_weights :
    sameOperands .wmod11CL (bench "12" [1, 2]) { bench "12" [1, 2] with cmd := 0x16 } ∧
    completes .wmod11CL (bench "12" [1, 2]) 0x02 (text "5") :=
  ⟨⟨rfl, rfl, fun _ => rfl, fun _ => ⟨rfl, fun _ => rfl⟩⟩, completes_of (by decide +kernel)⟩

theorem witness_EmptyOperandResults :
    State.reset.cfg.wf ∧ State.reset.ilen = 0 ∧ State.reset.wlen.toNat ≤ State.reset.cfg.wbufMax ∧
    State.reset.cfg.iso3736 = .pure := by decide +kernel

/-- DAMM.C in flight while the host reads OLEN and writes CMD. -/
theorem witness_FlightIsUndisturbed :
    (inFlight .dammC "572" [.host (.read 0x004), .host (.write 0x000 0x02), .unit]).cfg.wf ∧
    busy (inFlight .dammC "572" [.host (.read 0x004), .host (.write 0x000 0x02), .unit]) = true ∧
    decode (inFlight .dammC "572" [.host (.read 0x004), .host (.write 0x000 0x02), .unit]).cmd = .ok .dammC ∧
    (∀ a ∈ [HostAccess.read 0x004, .write 0x000 0x02], a ≠ .reset) ∧
    (inFlight .dammC "572" [.host (.read 0x004), .host (.write 0x000 0x02), .unit]).schedule =
      [HostAccess.read 0x004, .write 0x000 0x02].map Turn.host ++ .unit :: [] ∧
    completes .dammC (inFlight .dammC "572" [.host (.read 0x004), .host (.write 0x000 0x02), .unit]) 0x02
      (text "4") :=
  ⟨by decide +kernel, by decide +kernel, by decide +kernel, by decide +kernel, rfl, completes_of (by decide +kernel)⟩

/-- The host about to CALL DAMM.C on "572" with two polls. -/
def callState : State :=
  withTurns State.reset ((loadInput (text "572") ++ [issue .dammC]).map Turn.host ++
    (List.replicate 2 (Turn.host (.read 0x001)) ++ .unit :: []))

theorem witness_CallDeliversTheCommandResult :
    callState.cfg.wf ∧ busy callState = false ∧ (text "572").length ≤ callState.cfg.ibufMax ∧
    callState.schedule = (loadInput (text "572") ++ [issue .dammC]).map Turn.host ++
      (List.replicate 2 (Turn.host (.read 0x001)) ++ .unit :: []) ∧
    (bench "572" []).cfg = callState.cfg ∧ operand (bench "572" []) = text "572" ∧
    (Instr.dammC ∈ weightCommands → sameWeights callState (bench "572" [])) ∧
    completes .dammC (bench "572" []) 0x02 (text "4") :=
  ⟨by decide +kernel, by decide +kernel, by decide +kernel, rfl, rfl, by decide +kernel,
    fun h => absurd h (by decide +kernel), completes_of (by decide +kernel)⟩

/-- The second clause: the whole CALL, whose result has one byte. -/
theorem witness_CallDeliversTheCommandResult_whole :
    (withTurns State.reset (callTurns .dammC (text "572") 2 1 ++ [])).schedule =
      callTurns .dammC (text "572") 2 1 ++ [] ∧
    ∃ r, exec .dammC (bench "572" []) = .next r ∧ r.olen.toNat = 1 := by
  refine ⟨rfl, ?_⟩
  obtain ⟨t, ht, _, ho⟩ : completes .dammC (bench "572" []) 0x02 (text "4") := completes_of (by decide +kernel)
  have h := congrArg List.length ho
  simp [resultBytes, bufferBytes, text] at h
  exact ⟨t, ht, h⟩


/-- The operand "572" spells 5, 7, 2 in both alphabets, in a unit with the default parameters. -/
theorem digits572 :
    (bench "572" []).cfg.wf ∧ (bench "572" []).ilen.toNat ≤ (bench "572" []).cfg.ibufMax ∧
    spells dec10 (operand (bench "572" [])) [5, 7, 2] ∧ spells dec36 (operand (bench "572" [])) [5, 7, 2] := by
  simp only [spells]; decide +kernel

/-- The operand "572" is "57" and a check character; "079X" is "079" and the check character of 10. -/
theorem checked572 :
    operand (bench "572" []) = text "57" ++ [0x32] ∧ spells dec36 (text "57") [5, 7] ∧
    dec36 0x32 = some 2 ∧ dec37 0x32 = some 2 ∧
    (bench "079X" []).ilen.toNat ≤ (bench "079X" []).cfg.ibufMax ∧
    operand (bench "079X" []) = text "079" ++ [0x58] ∧ spells dec10 (text "079") [0, 7, 9] ∧
    dec11 0x58 = some 10 := by
  simp only [spells]; decide +kernel

theorem witness_LuhnComputeCompletesTheSum :
    (bench "572" []).cfg.wf ∧
    (bench "572" []).ilen.toNat ≤ (bench "572" []).cfg.ibufMax ∧
    spells dec10 (operand (bench "572" [])) [5, 7, 2] ∧
    spells dec36 (operand (bench "572" [])) [5, 7, 2] :=
  ⟨digits572.1, digits572.2.1, digits572.2.2.1, digits572.2.2.2⟩

theorem witness_LuhnValidateChecksTheSum :
    (bench "572" []).ilen.toNat ≤ (bench "572" []).cfg.ibufMax ∧
    spells dec10 (operand (bench "572" [])) [5, 7, 2] ∧
    spells dec36 (operand (bench "572" [])) [5, 7, 2] :=
  ⟨digits572.2.1, digits572.2.2.1, digits572.2.2.2⟩

theorem witness_Gs1SumsAreMultiplesOfTen :
    (bench "572" []).cfg.wf ∧
    (bench "572" []).ilen.toNat ≤ (bench "572" []).cfg.ibufMax ∧
    spells dec10 (operand (bench "572" [])) [5, 7, 2] :=
  ⟨digits572.1, digits572.2.1, digits572.2.2.1⟩

/-- As many weights as payload digits. -/
theorem witness_WeightedComputeIsTheRemainder :
    (bench "572" [1, 2, 3]).cfg.wf ∧ (bench "572" [1, 2, 3]).ilen.toNat ≤ (bench "572" [1, 2, 3]).cfg.ibufMax ∧
    (bench "572" [1, 2, 3]).wlen.toNat ≤ (bench "572" [1, 2, 3]).cfg.wbufMax ∧
    (bench "572" [1, 2, 3]).ilen.toNat ≤ (bench "572" [1, 2, 3]).wlen.toNat ∧
    spells dec10 (operand (bench "572" [1, 2, 3])) [5, 7, 2] := by
  simp only [spells]; decide +kernel

/-- One weight fewer than characters. -/
theorem witness_WeightedValidateComparesTheRemainder :
    (bench "572" [1, 2]).ilen.toNat ≤ (bench "572" [1, 2]).cfg.ibufMax ∧
    (bench "572" [1, 2]).wlen.toNat ≤ (bench "572" [1, 2]).cfg.wbufMax ∧
    (bench "572" [1, 2]).ilen.toNat ≤ (bench "572" [1, 2]).wlen.toNat + 1 ∧
    operand (bench "572" [1, 2]) = text "57" ++ [0x32] ∧ spells dec10 (text "57") [5, 7] ∧
    dec11 0x32 = some 2 := by
  simp only [spells]; decide +kernel

theorem witness_DammComputeIsTheFold :
    (bench "572" []).cfg.wf ∧
    (bench "572" []).ilen.toNat ≤ (bench "572" []).cfg.ibufMax ∧
    spells dec10 (operand (bench "572" [])) [5, 7, 2] :=
  ⟨digits572.1, digits572.2.1, digits572.2.2.1⟩

theorem witness_DammValidateFoldsToZero :
    (bench "572" []).ilen.toNat ≤ (bench "572" []).cfg.ibufMax ∧
    spells dec10 (operand (bench "572" [])) [5, 7, 2] :=
  ⟨digits572.2.1, digits572.2.2.1⟩

/-- "5724" is valid; one digit changed, and two digits swapped. -/
theorem witness_DammDetectsErrors :
    (0x32 : Byte) ≠ 0x33 ∧ (0x37 : Byte) ≠ 0x32 ∧ completes .dammV (bench "5724" []) 0x06 [] ∧
    operand (bench "5724" []) = text "57" ++ 0x32 :: text "4" ∧
    operand (bench "5734" []) = text "57" ++ 0x33 :: text "4" ∧
    operand (bench "5724" []) = text "5" ++ 0x37 :: 0x32 :: text "4" ∧
    operand (bench "5274" []) = text "5" ++ 0x32 :: 0x37 :: text "4" :=
  ⟨by decide +kernel, by decide +kernel, completes_of (by decide +kernel), by decide +kernel, by decide +kernel,
    by decide +kernel, by decide +kernel⟩

theorem witness_VerhoeffComputeInvertsTheProduct :
    (bench "572" []).cfg.wf ∧
    (bench "572" []).ilen.toNat ≤ (bench "572" []).cfg.ibufMax ∧
    spells dec10 (operand (bench "572" [])) [5, 7, 2] :=
  ⟨digits572.1, digits572.2.1, digits572.2.2.1⟩

theorem witness_VerhoeffValidateProductIsIdentity :
    (bench "572" []).ilen.toNat ≤ (bench "572" []).cfg.ibufMax ∧
    spells dec10 (operand (bench "572" [])) [5, 7, 2] :=
  ⟨digits572.2.1, digits572.2.2.1⟩

/-- "2363" is valid; one digit changed, and two digits swapped. -/
theorem witness_VerhoeffDetectsErrors :
    (0x33 : Byte) ≠ 0x30 ∧ (0x32 : Byte) ≠ 0x33 ∧ completes .verhV (bench "2363" []) 0x06 [] ∧
    operand (bench "2363" []) = text "236" ++ 0x33 :: text "" ∧
    operand (bench "2360" []) = text "236" ++ 0x30 :: text "" ∧
    operand (bench "2363" []) = text "" ++ 0x32 :: 0x33 :: text "63" ∧
    operand (bench "3263" []) = text "" ++ 0x33 :: 0x32 :: text "63" :=
  ⟨by decide +kernel, by decide +kernel, completes_of (by decide +kernel), by decide +kernel, by decide +kernel,
    by decide +kernel, by decide +kernel⟩

theorem witness_Iso97ComputeMakesRemainderOne :
    (bench "572" []).cfg.wf ∧
    (bench "572" []).ilen.toNat ≤ (bench "572" []).cfg.ibufMax ∧
    spells dec10 (operand (bench "572" [])) [5, 7, 2] :=
  ⟨digits572.1, digits572.2.1, digits572.2.2.1⟩

theorem witness_Iso97ValidateRemainderIsOne :
    (bench "572" []).ilen.toNat ≤ (bench "572" []).cfg.ibufMax ∧
    spells dec10 (operand (bench "572" [])) [5, 7, 2] :=
  ⟨digits572.2.1, digits572.2.2.1⟩

/-- The computed pair "98" of the payload "0", and its alias "01". -/
theorem witness_Iso97AcceptedPairs :
    (bench "0" []).cfg.wf ∧ (bench "0" []).ilen.toNat ≤ (bench "0" []).cfg.ibufMax ∧
    spells dec10 (operand (bench "0" [])) [0] ∧
    (bench "098" []).ilen.toNat ≤ (bench "098" []).cfg.ibufMax ∧
    operand (bench "098" []) = operand (bench "0" []) ++ [enc10 9, enc10 8] ∧
    operand (bench "001" []) = operand (bench "0" []) ++ [enc10 0, enc10 1] := by
  simp only [spells]; decide +kernel

theorem witness_Iso1110RecurrenceEndsAtOne :
    (bench "572" []).cfg.wf ∧
    (bench "572" []).ilen.toNat ≤ (bench "572" []).cfg.ibufMax ∧
    spells dec10 (operand (bench "572" [])) [5, 7, 2] :=
  ⟨digits572.1, digits572.2.1, digits572.2.2.1⟩

theorem witness_Iso112ComputeSolvesTheCongruence :
    (bench "572" []).cfg.wf ∧
    (bench "572" []).ilen.toNat ≤ (bench "572" []).cfg.ibufMax ∧
    spells dec10 (operand (bench "572" [])) [5, 7, 2] :=
  ⟨digits572.1, digits572.2.1, digits572.2.2.1⟩

theorem witness_Iso112ValidateChecksTheCongruence :
    (bench "079X" []).ilen.toNat ≤ (bench "079X" []).cfg.ibufMax ∧
    operand (bench "079X" []) = text "079" ++ [0x58] ∧ spells dec10 (text "079") [0, 7, 9] ∧
    dec11 0x58 = some 10 := checked572.2.2.2.2

theorem witness_Iso3736PureComputeSolvesTheCongruence :
    (bench "572" []).cfg.wf ∧ (bench "572" []).cfg.iso3736 = .pure ∧
    (bench "572" []).ilen.toNat ≤ (bench "572" []).cfg.ibufMax ∧
    spells dec36 (operand (bench "572" [])) [5, 7, 2] :=
  ⟨digits572.1, rfl, digits572.2.1, digits572.2.2.2⟩

theorem witness_Iso3736PureValidateChecksTheCongruence :
    (bench "572" []).cfg.iso3736 = .pure ∧ (bench "572" []).ilen.toNat ≤ (bench "572" []).cfg.ibufMax ∧
    operand (bench "572" []) = text "57" ++ [0x32] ∧ spells dec36 (text "57") [5, 7] ∧
    dec37 0x32 = some 2 :=
  ⟨rfl, digits572.2.1, checked572.1, checked572.2.1, checked572.2.2.2.1⟩

/-- A unit with the HYBRID reading. -/
def hybridBench : State := { bench "572" [] with cfg := { Config.defaults with iso3736 := .hybrid } }

theorem witness_Iso3736HybridSolvesTheCongruence :
    hybridBench.cfg.wf ∧ hybridBench.cfg.iso3736 = .hybrid ∧
    hybridBench.ilen.toNat ≤ hybridBench.cfg.ibufMax ∧ spells dec36 (operand hybridBench) [5, 7, 2] ∧
    operand hybridBench = text "57" ++ [0x32] ∧ spells dec36 (text "57") [5, 7] ∧ dec36 0x32 = some 2 :=
  ⟨by decide +kernel, rfl, by decide +kernel, digits572.2.2.2, checked572.1, checked572.2.1, checked572.2.2.1⟩

/-- "572" and "4" for DAMM, and a weighted pair. -/
theorem witness_ComputeThenValidateIsValid :
    (Instr.dammC, Instr.dammV) ∈ schemePairs ∧ (bench "572" []).cfg.wf ∧
    completes .dammC (bench "572" []) 0x02 (text "4") ∧ (bench "5724" []).cfg = (bench "572" []).cfg ∧
    (Instr.dammC ∈ weightCommands → sameWeights (bench "572" []) (bench "5724" [])) ∧
    operand (bench "5724" []) = operand (bench "572" []) ++ text "4" ∧
    (bench "5724" []).ilen.toNat ≤ (bench "5724" []).cfg.ibufMax :=
  ⟨by simp [schemePairs], by decide +kernel, completes_of (by decide +kernel), by decide +kernel,
    fun h => absurd h (by decide +kernel), by decide +kernel, by decide +kernel⟩

theorem witness_ComputeThenValidateIsValid_weights :
    (Instr.wmod11CL, Instr.wmod11VL) ∈ schemePairs ∧ completes .wmod11CL (bench "12" [1, 2]) 0x02 (text "5") ∧
    sameWeights (bench "12" [1, 2]) (bench "125" [1, 2]) ∧
    operand (bench "125" [1, 2]) = operand (bench "12" [1, 2]) ++ text "5" :=
  ⟨by simp [schemePairs], completes_of (by decide +kernel), ⟨rfl, fun _ => by decide +kernel⟩,
    by decide +kernel⟩

/-- One payload with two check characters of one value. -/
theorem witness_AtMostOneCheckValue :
    (Instr.luhn36V, dec36, dec36) ∈ validateCommands ∧ (bench "ABC123i" []).cfg = (bench "ABC123I" []).cfg ∧
    (Instr.luhn36V ∈ weightCommands → sameWeights (bench "ABC123I" []) (bench "ABC123i" [])) ∧
    operand (bench "ABC123I" []) = text "ABC123" ++ [0x49] ∧
    operand (bench "ABC123i" []) = text "ABC123" ++ [0x69] ∧
    completes .luhn36V (bench "ABC123I" []) 0x06 [] ∧ completes .luhn36V (bench "ABC123i" []) 0x06 [] :=
  ⟨by simp [validateCommands], by decide +kernel, fun h => absurd h (by decide +kernel), by decide +kernel,
    by decide +kernel, completes_of (by decide +kernel), completes_of (by decide +kernel)⟩

/-- The empty message, and the lengths on either side of the second block. -/
theorem witness_ShaPaddingAndDigestLength :
    8 * ([] : List Byte).length < 2 ^ 64 ∧ 8 * (List.replicate 55 (0x61 : Byte)).length < 2 ^ 64 ∧
    8 * (List.replicate 56 (0x61 : Byte)).length < 2 ^ 64 := by decide +kernel

theorem witness_EncodeWritesBase58OfPayloadAndSuffix :
    (bench "a" []).cfg.wf ∧ (bench "a" []).ilen.toNat ≤ (bench "a" []).cfg.ibufMax ∧
    1 ≤ (bench "a" []).ilen.toNat := by decide +kernel

/-- The shortest payload and the longest. -/
theorem witness_EncodedLengthBounds :
    (bench "a" []).cfg.wf ∧ 1 ≤ (bench "a" []).ilen.toNat ∧
    ({ State.reset with ilen := 128 } : State).ilen.toNat ≤ ({ State.reset with ilen := 128 } : State).cfg.ibufMax ∧
    1 ≤ ({ State.reset with ilen := 128 } : State).ilen.toNat := by decide +kernel

/-- Three bytes; four bytes with a wrong suffix; four bytes that are the suffix of the empty payload. -/
theorem witness_DecodeChecksLengthThenSuffix :
    (bench "111" []).cfg.wf ∧ (bench "111" []).ilen.toNat ≤ (bench "111" []).cfg.ibufMax ∧
    1 ≤ (bench "111" []).ilen.toNat ∧
    (spells dec58 (operand (bench "111" [])) [0, 0, 0] ∧
      bytesValue [0, 0, 0] = Nat.ofDigits 58 [0, 0, 0].reverse ∧
      leadingCount 0x00 [0, 0, 0] = leadingCount 0x31 (operand (bench "111" []))) ∧
    (spells dec58 (operand (bench "1111" [])) [0, 0, 0, 0] ∧
      bytesValue [0, 0, 0, 0] = Nat.ofDigits 58 [0, 0, 0, 0].reverse ∧
      leadingCount 0x00 [0, 0, 0, 0] = leadingCount 0x31 (operand (bench "1111" [])) ∧
      suffix [] ≠ [0, 0, 0, 0]) ∧
    (spells dec58 (operand (bench "3QJmnh" [])) [2, 23, 17, 44, 45, 40] ∧
      bytesValue [0x5d, 0xf6, 0xe0, 0xe2] = Nat.ofDigits 58 [2, 23, 17, 44, 45, 40].reverse ∧
      leadingCount 0x00 [0x5d, 0xf6, 0xe0, 0xe2] = leadingCount 0x31 (operand (bench "3QJmnh" [])) ∧
      suffix [] = [0x5d, 0xf6, 0xe0, 0xe2]) := by
  simp only [spells]; decide +kernel

theorem witness_EncodeThenDecodeReturnsPayload :
    (benchBytes [0x00] []).cfg.wf ∧ completes .b58cEnc (benchBytes [0x00] []) 0x02 (text "1Wh4bh") ∧
    (bench "1Wh4bh" []).cfg.wf ∧ operand (bench "1Wh4bh" []) = text "1Wh4bh" ∧
    (bench "1Wh4bh" []).ilen.toNat ≤ (bench "1Wh4bh" []).cfg.ibufMax :=
  ⟨by decide +kernel, completes_of (by decide +kernel), by decide +kernel, by decide +kernel, by decide +kernel⟩

theorem witness_DecodeThenEncodeReturnsText :
    (bench "1Wh4bh" []).cfg.wf ∧ completes .b58cDec (bench "1Wh4bh" []) 0x02 [0x00] ∧
    (benchBytes [0x00] []).cfg.wf ∧ operand (benchBytes [0x00] []) = [0x00] ∧
    (benchBytes [0x00] []).ilen.toNat ≤ (benchBytes [0x00] []).cfg.ibufMax :=
  ⟨by decide +kernel, completes_of (by decide +kernel), by decide +kernel, by decide +kernel, by decide +kernel⟩

end Sys2Proof.Tests
end

/-! PROOFS. 00_scope.md: a command is a pure function of its operands (R9), and MOD 37-36 under the
HYBRID parameter (R6, 92 D22). -/

namespace Sys2Proof.Machine

/-! ### Reading the result back -/

/-- The first bytes of a buffer sequence are the shorter sequence from the same address. -/
theorem bufferBytes_take (s : State) (base : Nat) {m n : Nat} (h : m ≤ n) :
    (bufferBytes s base n).take m = bufferBytes s base m := by
  simp only [bufferBytes, ← List.map_take, List.take_range, Nat.min_eq_left h]

/-- A byte of the result is read back from OBUF (R99), whatever the unit held before. -/
theorem bufferByte_redraw_output {out : List Byte} (s : State) {k : Nat} (h : k < out.length) :
    bufferByte (redrawOutput out s) (obufBase + k) = out[k] := by
  have hk : Memory.lookup (redrawOutput out s).mem (obufBase + k) = some out[k] := by
    rw [redrawOutput_mem, lookup_redraw_output _ _ (by omega)]
    simp
  simp only [bufferByte, hk]

/-- The result bytes after a redraw are the first OLEN bytes of the new result. -/
theorem resultBytes_redraw {out : List Byte} (s : State) {olen : Byte} (status : Byte)
    (h : olen.toNat ≤ out.length) :
    resultBytes { redrawOutput out s with olen := olen, status := status } =
      out.take olen.toNat := by
  refine List.ext_getElem (by simp [resultBytes, h]) fun k h1 h2 => ?_
  have hk : k < out.length := by simp at h2; omega
  simp only [resultBytes, bufferBytes_getElem, List.getElem_take]
  exact bufferByte_redraw_output s hk

/-- An OLEN of 0 means that there are no result bytes. -/
theorem resultBytes_of_olen_eq_zero {t : State} (h : t.olen = 0) : resultBytes t = [] := by
  simp [resultBytes, bufferBytes, h]

/-! ### A completion shows nothing of the state but OBUF_MAX -/

/-- One completion from two states with the same parameters shows the same STATUS, OLEN and result
(R99 to R101). -/
theorem complete_congr {c : Completion} {s s' t : State} (hcfg : s'.cfg = s.cfg)
    (h : complete c s = .next t) :
    ∃ t', complete c s' = .next t' ∧ t'.status = t.status ∧ t'.olen = t.olen ∧
      resultBytes t' = resultBytes t := by
  rcases complete_next h with ⟨out, rfl, hfits, rfl⟩ | ⟨e, rfl, rfl⟩ | ⟨b, rfl, rfl⟩
  · have holen : (BitVec.ofNat 8 out.length).toNat ≤ out.length := by
      simpa using Nat.mod_le out.length 256
    refine ⟨_, if_pos (hcfg ▸ hfits), rfl, rfl, ?_⟩
    rw [resultBytes_redraw s' _ holen, resultBytes_redraw s _ holen]
  · exact ⟨completeErr e s', rfl, rfl, rfl, (resultBytes_of_olen_eq_zero rfl).trans
      (resultBytes_of_olen_eq_zero rfl).symm⟩
  · exact ⟨completeValid b s', rfl, rfl, rfl, (resultBytes_of_olen_eq_zero rfl).trans
      (resultBytes_of_olen_eq_zero rfl).symm⟩

/-! ### The contracts read the operands alone -/

theorem overCapacity_eq_false {s : State} :
    overCapacity s = false ↔ s.ilen.toNat ≤ s.cfg.ibufMax := by
  simp [overCapacity]

theorem overCapacity_congr {s s' : State} (hcfg : s'.cfg = s.cfg) (hilen : s'.ilen = s.ilen) :
    overCapacity s' = overCapacity s := by
  rw [overCapacity, overCapacity, hcfg, hilen]

theorem overWeights_congr {s s' : State} (hcfg : s'.cfg = s.cfg) (hilen : s'.ilen = s.ilen)
    (hwlen : s'.wlen = s.wlen) (m : Nat) : overWeights s' m = overWeights s m := by
  rw [overWeights, overWeights, overCapacity_congr hcfg hilen, hcfg, hwlen]

/-- A strict command reads the operand only when it fits (R93, R96). -/
theorem strict_congr {s s' : State} {tooLong : Bool}
    {rule rule' : List Byte → Except ErrorCode (List Byte)}
    (h : tooLong = false → rule' (operand s') = rule (operand s)) :
    strict tooLong rule' s' = strict tooLong rule s := by
  cases tooLong with
  | true => rfl
  | false => simp only [strict, h rfl]

/-- A permissive command reads the operand only when it fits (R93, R97). -/
theorem permissive_congr {s s' : State} {tooLong : Bool} {rule rule' : List Byte → Bool}
    (h : tooLong = false → rule' (operand s') = rule (operand s)) :
    permissive tooLong rule' s' = permissive tooLong rule s := by
  cases tooLong with
  | true => rfl
  | false => simp only [permissive, h rfl]

/-- States with the same weights agree on the first `m` of them, as long as WLEN names as many and
fits WBUF. -/
theorem weights_congr {s s' : State} (h : sameWeights s s') (hfits : s.wlen.toNat ≤ s.cfg.wbufMax)
    {m : Nat} (hm : m ≤ s.wlen.toNat) : weights s' m = weights s m := by
  obtain ⟨-, hbytes⟩ := h
  rw [weights, weights, ← bufferBytes_take s' wbufBase hm, hbytes hfits, bufferBytes_take s _ hm]

/-- WMOD11.C reads ILEN, the operand and the weights (R120, R121). -/
theorem wmod11Compute_congr (rightToLeft : Bool) {s s' : State} (hcfg : s'.cfg = s.cfg)
    (hilen : s'.ilen = s.ilen) (hop : s.ilen.toNat ≤ s.cfg.ibufMax → operand s' = operand s)
    (hw : sameWeights s s') : wmod11Compute rightToLeft s' = wmod11Compute rightToLeft s := by
  rw [wmod11Compute, wmod11Compute, hilen, overWeights_congr hcfg hilen hw.1]
  refine strict_congr fun hfits => ?_
  obtain ⟨hi, hwlen, hm⟩ := overWeights_eq_false.mp hfits
  rw [hop hi, weights_congr hw hwlen hm]

/-- WMOD11.V reads ILEN, the operand and the weights (R120, R122). -/
theorem wmod11Validate_congr (rightToLeft : Bool) {s s' : State} (hcfg : s'.cfg = s.cfg)
    (hilen : s'.ilen = s.ilen) (hop : s.ilen.toNat ≤ s.cfg.ibufMax → operand s' = operand s)
    (hw : sameWeights s s') : wmod11Validate rightToLeft s' = wmod11Validate rightToLeft s := by
  rw [wmod11Validate, wmod11Validate, hilen, overWeights_congr hcfg hilen hw.1]
  refine permissive_congr fun hfits => ?_
  obtain ⟨hi, hwlen, hm⟩ := overWeights_eq_false.mp hfits
  rw [hop hi, weights_congr hw hwlen hm]

/-! ### Every command -/

/-- From states with the same operands a command ends in the same completion (R9, R92). -/
theorem exec_completion_of_sameOperands {i : Instr} {s s' : State} (h : sameOperands i s s') :
    ∃ c, exec i s = complete c s ∧ exec i s' = complete c s' := by
  obtain ⟨hcfg, hilen, hop, hweights⟩ := h
  have strictSame : ∀ rule, strict (overCapacity s') rule s' = strict (overCapacity s) rule s := by
    intro rule
    rw [overCapacity_congr hcfg hilen]
    exact strict_congr fun hfits => by rw [hop (overCapacity_eq_false.mp hfits)]
  have permissiveSame : ∀ rule,
      permissive (overCapacity s') rule s' = permissive (overCapacity s) rule s := by
    intro rule
    rw [overCapacity_congr hcfg hilen]
    exact permissive_congr fun hfits => by rw [hop (overCapacity_eq_false.mp hfits)]
  cases i with
  | luhn10C | luhn36C | gs1C | dammC | verhC | iso97C | iso1110C | iso112C | b58cEnc | b58cDec =>
    exact ⟨_, rfl, congrArg (complete · s') (strictSame _)⟩
  | luhn10V | luhn36V | gs1V | dammV | verhV | iso97V | iso1110V | iso112V =>
    exact ⟨_, rfl, congrArg (complete · s') (permissiveSame _)⟩
  | iso3736C =>
    exact ⟨_, rfl, congrArg (complete · s') ((strictSame _).trans (by rw [hcfg]))⟩
  | iso3736V =>
    exact ⟨_, rfl, congrArg (complete · s') ((permissiveSame _).trans (by rw [hcfg]))⟩
  | wmod11CL | wmod11CR =>
    have hw : sameWeights s s' := hweights (by simp [weightCommands])
    exact ⟨_, rfl, congrArg (complete · s') (wmod11Compute_congr _ hcfg hilen hop hw)⟩
  | wmod11VL | wmod11VR =>
    have hw : sameWeights s s' := hweights (by simp [weightCommands])
    exact ⟨_, rfl, congrArg (complete · s') (wmod11Validate_congr _ hcfg hilen hop hw)⟩

/-- Settles O24: the same operands give the same completion, and a completion shows nothing else of
the state. -/
theorem commandsArePureFunctions : Obligations.CommandsArePureFunctions := by
  intro i s s' t hsame hexec
  obtain ⟨c, hs, hs'⟩ := exec_completion_of_sameOperands hsame
  rw [hs] at hexec
  rw [hs']
  exact complete_congr hsame.1 hexec

/-! ### MOD 37-36 as HYBRID (92 D22) -/

theorem iso3736HybridCheck_lt (v : List Nat) : iso3736HybridCheck v < 36 := Nat.mod_lt _ (by omega)

/-- The check value solves the final congruence, since the recurrence stays at most 36. -/
theorem iso3736HybridCheck_solves (v : List Nat) :
    (v.foldl hybridNext 36 + iso3736HybridCheck v) % 36 = 1 := by
  have hlt := foldl_hybridNext_lt v 36 (by omega)
  rw [iso3736HybridCheck, hybridLoop_eq]
  omega

/-- ISO3736.C under the HYBRID parameter outputs the HYBRID check character. -/
theorem exec_iso3736C_hybrid {s : State} {v : List Nat} (hwf : s.cfg.wf)
    (hvar : s.cfg.iso3736 = .hybrid) (hfits : s.ilen.toNat ≤ s.cfg.ibufMax)
    (hv : spells dec36 (operand s) v) :
    ∃ t, exec .iso3736C s = .next t ∧ hasOutput t [enc36 (iso3736HybridCheck v)] := by
  have harm : exec .iso3736C s =
      complete (strict (overCapacity s) (iso3736Compute s.cfg.iso3736) s) s := rfl
  rw [harm, hvar]
  exact strict_completes hwf (overCapacity_of_le hfits) hv (by simp)

/-- ISO3736.V under the HYBRID parameter decides the final congruence. -/
theorem exec_iso3736V_hybrid {s : State} {chars : List Byte} {b : Byte} {v : List Nat} {c : Nat}
    (hvar : s.cfg.iso3736 = .hybrid) (hfits : s.ilen.toNat ≤ s.cfg.ibufMax)
    (hop : operand s = chars ++ [b]) (hv : spells dec36 chars v) (hb : dec36 b = some c) :
    ∃ t, exec .iso3736V s = .next t ∧ verdictIs t ((v.foldl hybridNext 36 + c) % 36 = 1) := by
  have harm : exec .iso3736V s =
      complete (permissive (overCapacity s) (iso3736Validate s.cfg.iso3736) s) s := rfl
  rw [harm, hvar]
  exact permissive_check_completes (overCapacity_of_le hfits) hop hv hb
    (by rw [hybridLoop_eq, decide_eq_true_iff])

/-- Settles O49: the computed value is below 36 and solves the congruence, and the value of the last
character is checked against the same recurrence. -/
theorem iso3736HybridSolvesTheCongruence : Obligations.Iso3736HybridSolvesTheCongruence := by
  intro s hwf hvar hfits
  refine ⟨fun v hv => ?_, fun chars b v c hop hv hb => ?_⟩
  · obtain ⟨t, hexec, hout⟩ := exec_iso3736C_hybrid hwf hvar hfits hv
    exact ⟨t, _, hexec, hout, iso3736HybridCheck_lt v, iso3736HybridCheck_solves v⟩
  · exact exec_iso3736V_hybrid hvar hfits hop hv hb

end Sys2Proof.Machine

/-! PROOFS. 10_state.md: the unit waits outside a flight (R24), and the invariant of the unit (R13, R16,
R19, R23, R42, R233) holds after reset and is kept by every step. -/

namespace Sys2Proof.Machine

/-! ### Waiting -/

/-- With nothing in flight the unit's turn does nothing (R24). -/
theorem unitTurn_of_idle {s : State} (h : busy s = false) : unitTurn s = .next s := by
  simp [unitTurn, h]

/-- Settles O6: the unit's turn is taken off the schedule, and an idle unit does nothing with it. -/
theorem unitWaitsOutsideAFlight : Obligations.UnitWaitsOutsideAFlight := by
  intro s hwf hturn hidle
  have hidle' : busy (afterHead s) = false := hidle
  rw [step_unit hwf hturn, unitTurn_of_idle hidle']
  rfl

/-! ### What the invariant reads, and how a new OBUF meets it -/

/-- The invariant reads CMD, STATUS, OLEN, the memory and the parameters, and nothing else. -/
theorem inv_congr {s t : State} (hcmd : t.cmd = s.cmd) (hstatus : t.status = s.status)
    (holen : t.olen = s.olen) (hmem : t.mem = s.mem) (hcfg : t.cfg = s.cfg) (h : Inv s) : Inv t := by
  simpa only [Inv, memoryOk, phaseOk, outputOk, hcmd, hstatus, holen, hmem, hcfg] using h

theorem obufInRange_of_inv {s : State} (h : Inv s) : s.cfg.obufInRange := by
  obtain ⟨⟨-, -, -, -, hobuf⟩, -⟩ := h
  exact hobuf

/-- Registers at 0x00 and no written cell meet the invariant (R25, R260). -/
theorem inv_of_cleared {t : State} (hwf : t.cfg.wf) (hcmd : t.cmd = 0x00) (hstatus : t.status = 0x00)
    (holen : t.olen = 0) (hmem : t.mem = []) : Inv t := by
  refine ⟨hwf, ⟨?_, ?_⟩, ?_, .inl ⟨hstatus, hcmd, holen⟩, ?_, fun a ha => ?_⟩
  · rw [hmem]; exact List.Pairwise.nil
  · simp [hmem]
  · rw [hstatus]; decide
  · simp [holen]
  · simpa [hmem, holen] using ha

/-- Settles O9: the state after reset is such a state, and the default parameters meet R6. -/
theorem resetMeetsInvariant : Obligations.ResetMeetsInvariant :=
  inv_of_cleared (by decide) rfl rfl rfl rfl

/-- A redraw of OBUF keeps the memory canonical and lists only bytes that exist, if the result fits. -/
theorem memoryOk_redraw {s t : State} {out : List Byte} (h : memoryOk s)
    (hfits : out.length ≤ s.cfg.obufMax) (hcfg : t.cfg = s.cfg)
    (hmem : t.mem = Memory.below s.mem obufBase ++ cellsFrom obufBase out) : memoryOk t := by
  obtain ⟨hwf, hexists⟩ := h
  refine ⟨hmem ▸ redraw_wf obufBase out hwf, fun c hc => ?_⟩
  rw [hmem] at hc
  rw [hcfg]
  rcases List.mem_append.mp hc with hold | hnew
  · exact hexists c (mem_below.mp hold).1
  · obtain ⟨hlow, hhigh⟩ := mem_cellsFrom hnew
    exact .inr (.inr ⟨hlow, by omega⟩)

/-- After a redraw with OLEN its length, the listed bytes of OBUF are those of the result (R19). -/
theorem outputOk_redraw {s t : State} {out : List Byte} (hfits : out.length ≤ s.cfg.obufMax)
    (hcfg : t.cfg = s.cfg) (holen : t.olen.toNat = out.length)
    (hmem : t.mem = Memory.below s.mem obufBase ++ cellsFrom obufBase out) : outputOk t := by
  refine ⟨by rw [holen, hcfg]; exact hfits, fun a ha => ?_⟩
  rw [hmem, lookup_redraw_output _ _ ha, holen, isSome_getElem?]
  omega

/-- A redraw of OBUF with OLEN its length meets the invariant, if STATUS fits CMD and OLEN. -/
theorem inv_redraw {s t : State} {out : List Byte} (h : Inv s) (hfits : out.length ≤ s.cfg.obufMax)
    (hcfg : t.cfg = s.cfg) (holen : t.olen.toNat = out.length)
    (hmem : t.mem = Memory.below s.mem obufBase ++ cellsFrom obufBase out)
    (hlegal : t.status ∈ legalStatuses) (hphase : phaseOk t) : Inv t := by
  obtain ⟨hwf, hmemory, -⟩ := h
  exact ⟨hcfg ▸ hwf, memoryOk_redraw hmemory hfits hcfg hmem, hlegal, hphase,
    outputOk_redraw hfits hcfg holen hmem⟩

/-! ### The completions each command can have (R16, R233) -/

/-- A rule's answer that R16 and R233 allow command `i`. -/
def answerAllowed (i : Instr) : Except ErrorCode (List Byte) → Prop
  | .ok out => olenAllowed i out.length
  | .error e => statusErr e ∈ completionStatuses i

/-- A completion that R16 and R233 allow command `i`. -/
def completionAllowed (i : Instr) : Completion → Prop
  | .ok out => olenAllowed i out.length
  | .err e => statusErr e ∈ completionStatuses i
  | .verdict valid => statusVerdict valid ∈ completionStatuses i ∧ olenAllowed i 0

/-- A checksum rule answers its check characters, or E_INVALID_CHAR (R94). -/
theorem computeWith_allowed {i : Instr} {dec : Byte → Option Nat} {out : List Nat → List Byte}
    (hbad : statusErr .invalidChar ∈ completionStatuses i) (hlen : ∀ v, olenAllowed i (out v).length)
    (chars : List Byte) : answerAllowed i (computeWith dec out chars) := by
  unfold computeWith
  cases decodeAll dec chars with
  | none => exact hbad
  | some v => exact hlen v

/-- ISO3736.C answers one character or E_INVALID_CHAR, under either variant (R170, 92 D22). -/
theorem iso3736Compute_allowed (variant : Iso3736Variant) (chars : List Byte) :
    answerAllowed .iso3736C (iso3736Compute variant chars) := by
  cases variant with
  | pure | hybrid =>
    refine computeWith_allowed (by decide) ?_ chars
    exact fun _ => rfl

/-- B58C.ENC fails with E_EMPTY only (R194). -/
theorem encode58_allowed (payload : List Byte) : answerAllowed .b58cEnc (encode58 payload) := by
  unfold encode58
  split
  · show statusErr .empty ∈ completionStatuses .b58cEnc
    decide
  · exact trivial

/-- The two checks on the decoded bytes fail with E_TOO_SHORT and E_CHECKSUM (R199). -/
theorem stripSuffix_allowed (data : List Byte) : answerAllowed .b58cDec (stripSuffix data) := by
  unfold stripSuffix
  split
  · show statusErr .tooShort ∈ completionStatuses .b58cDec
    decide
  · split
    · show statusErr .checksum ∈ completionStatuses .b58cDec
      decide
    · exact trivial

/-- B58C.DEC fails with E_EMPTY, E_FORMAT, or as the checks on the decoded bytes do (R198, R199). -/
theorem decode58_allowed (chars : List Byte) : answerAllowed .b58cDec (decode58 chars) := by
  unfold decode58
  split
  · show statusErr .empty ∈ completionStatuses .b58cDec
    decide
  · cases decodeAll dec58 chars with
    | none =>
      show statusErr .format ∈ completionStatuses .b58cDec
      decide
    | some values => exact stripSuffix_allowed (dataOf values)

/-- A strict command completes with E_LENGTH or as its rule answers (R96). -/
theorem strict_allowed {i : Instr} {tooLong : Bool} {rule : List Byte → Except ErrorCode (List Byte)}
    {s : State} (hlength : statusErr .length ∈ completionStatuses i)
    (hrule : answerAllowed i (rule (operand s))) : completionAllowed i (strict tooLong rule s) := by
  rcases strict_cases tooLong rule s with ⟨-, hc⟩ | ⟨-, out, hanswer, hc⟩ | ⟨-, e, hanswer, hc⟩
  · rw [hc]; exact hlength
  · rw [hc]; rw [hanswer] at hrule; exact hrule
  · rw [hc]; rw [hanswer] at hrule; exact hrule

/-- A permissive command completes with either verdict and no output (R97). -/
theorem permissive_allowed {i : Instr} {tooLong : Bool} {rule : List Byte → Bool} {s : State}
    (hverdict : ∀ valid, statusVerdict valid ∈ completionStatuses i) (hlen : olenAllowed i 0) :
    completionAllowed i (permissive tooLong rule s) := by
  rw [permissive_eq]
  exact ⟨hverdict _, hlen⟩

/-- Every command ends in a completion that R16 and R233 allow it. -/
theorem exec_allowed (i : Instr) (s : State) :
    ∃ c, exec i s = complete c s ∧ completionAllowed i c := by
  cases i with
  | luhn10C | luhn36C | gs1C | wmod11CL | wmod11CR | dammC | verhC | iso97C | iso1110C | iso112C =>
    refine ⟨_, rfl, strict_allowed (by decide) (computeWith_allowed (by decide) ?_ _)⟩
    exact fun _ => rfl
  | iso3736C => exact ⟨_, rfl, strict_allowed (by decide) (iso3736Compute_allowed _ _)⟩
  | b58cEnc => exact ⟨_, rfl, strict_allowed (by decide) (encode58_allowed _)⟩
  | b58cDec => exact ⟨_, rfl, strict_allowed (by decide) (decode58_allowed _)⟩
  | luhn10V | luhn36V | gs1V | wmod11VL | wmod11VR | dammV | verhV | iso97V | iso1110V | iso112V
  | iso3736V => exact ⟨_, rfl, permissive_allowed (by decide) rfl⟩

/-! ### The completions keep the invariant -/

/-- Every command can complete with STATUS 0x02 (R233). -/
theorem statusOk_mem_completionStatuses (i : Instr) : statusOk ∈ completionStatuses i := by
  cases i <;> decide

/-- The STATUS values of completion are values of R13. -/
theorem completionStatuses_legal (i : Instr) : ∀ x ∈ completionStatuses i, x ∈ legalStatuses := by
  cases i <;> decide

/-- No error is reported with the STATUS of a success. -/
theorem statusErr_ne_statusOk (e : ErrorCode) : statusErr e ≠ 0x02 := by
  cases e <;> decide

/-- The STATUS values of the byte of a command are those of the command. -/
theorem statusesOfByte_of_decode {b : Byte} {i : Instr} (h : decode b = .ok i) :
    statusesOfByte b = completionStatuses i := by
  rw [statusesOfByte, h]

/-- An illegal byte has the STATUS of E_ILLEGAL_CMD alone. -/
theorem statusesOfByte_of_illegal {b : Byte} {e : DecodeError} (h : decode b = .error e) :
    statusesOfByte b = [0x7A] := by
  rw [statusesOfByte, h]

/-- The DONE phase of a command: a STATUS it can complete with, and OLEN as R16 says. -/
theorem phaseOk_of_completed {t : State} {i : Instr} (hd : decode t.cmd = .ok i)
    (hstatus : t.status ∈ completionStatuses i) (holen : t.status ≠ 0x02 → t.olen = 0)
    (hallowed : t.status = 0x02 → olenAllowed i t.olen.toNat) : phaseOk t := by
  refine .inr (.inr ⟨by rwa [statusesOfByte_of_decode hd], holen, fun j hj => ?_⟩)
  obtain rfl : i = j := Except.ok.inj (hd.symm.trans hj)
  exact hallowed

/-- A completion that the command in CMD is allowed keeps the invariant. -/
theorem complete_keeps_inv {c : Completion} {s t : State} {i : Instr} (h : Inv s)
    (hd : decode s.cmd = .ok i) (hc : completionAllowed i c) (hrun : complete c s = .next t) :
    Inv t := by
  have hlegal := completionStatuses_legal i
  rcases complete_next hrun with ⟨out, rfl, hfits, rfl⟩ | ⟨e, rfl, rfl⟩ | ⟨valid, rfl, rfl⟩
  · have holen : (BitVec.ofNat 8 out.length).toNat = out.length := by
      rw [BitVec.toNat_ofNat]
      have hbyte : s.cfg.obufMax ≤ 255 := obufInRange_of_inv h
      omega
    have hok := statusOk_mem_completionStatuses i
    refine inv_redraw (out := out) h hfits rfl holen rfl (hlegal _ hok)
      (phaseOk_of_completed hd hok (fun hne => absurd rfl hne) fun _ => ?_)
    rw [holen]
    exact hc
  · exact inv_redraw (out := []) h (Nat.zero_le _) rfl rfl rfl (hlegal _ hc)
      (phaseOk_of_completed hd hc (fun _ => rfl) fun heq => absurd heq (statusErr_ne_statusOk e))
  · obtain ⟨hstatus, hnone⟩ := hc
    exact inv_redraw (out := []) h (Nat.zero_le _) rfl rfl rfl (hlegal _ hstatus)
      (phaseOk_of_completed hd hstatus (fun _ => rfl) fun _ => hnone)

/-- An illegal byte completes with E_ILLEGAL_CMD, the one STATUS it has (R64, R233, R238). -/
theorem completeErr_illegal_keeps_inv {s : State} {e : DecodeError} (h : Inv s)
    (hd : decode s.cmd = .error e) : Inv (completeErr .illegalCmd s) := by
  refine inv_redraw (out := []) h (Nat.zero_le _) rfl rfl rfl ?_ (.inr (.inr ⟨?_, fun _ => rfl, ?_⟩))
  · rw [completeErr_status]
    decide
  · rw [completeErr_status, completeErr_cmd, statusesOfByte_of_illegal hd]
    decide
  · intro i hi
    rw [completeErr_cmd, hd] at hi
    cases hi

/-- The unit's turn keeps the invariant. -/
theorem unitTurn_keeps_inv {s t : State} (h : Inv s) (hturn : unitTurn s = .next t) : Inv t := by
  rcases unitTurn_next hturn with ⟨-, rfl⟩ | ⟨-, ⟨e, hd⟩, rfl⟩ | ⟨-, i, hd, hexec⟩
  · exact h
  · exact completeErr_illegal_keeps_inv h hd
  · obtain ⟨c, hc, hallowed⟩ := exec_allowed i s
    exact complete_keeps_inv h hd hallowed (hc ▸ hexec)

/-! ### The host's accesses keep the invariant -/

/-- The start of a command, its STATUS that of BUSY and no result left (R90, 92 D6). -/
theorem startCommand_keeps_inv (v : Byte) {s : State} (h : Inv s) : Inv (startCommand v s) :=
  inv_redraw (out := []) h (Nat.zero_le _) rfl rfl rfl
    (by rw [startCommand_status]; decide) (.inr (.inl ⟨rfl, rfl⟩))

/-- A store below OBUF in a byte that exists keeps the invariant. -/
theorem store_keeps_inv {s : State} {a : Nat} (b : Byte) (h : Inv s) (ha : a < obufBase)
    (hcell : cellExists s.cfg a) : Inv { s with mem := Memory.store s.mem a b } := by
  obtain ⟨hwf, ⟨hmem, hexists⟩, hlegal, hphase, hfits, houtput⟩ := h
  refine ⟨hwf, ⟨store_wf a b hmem, fun c hc => ?_⟩, hlegal, hphase, hfits, fun a' ha' => ?_⟩
  · rcases mem_store hc with rfl | hold
    · exact hcell
    · exact hexists c hold
  · have hne : a' ≠ a := by omega
    show (Memory.lookup (Memory.store s.mem a b) a').isSome ↔ _
    rw [lookup_store_other s.mem b hne]
    exact houtput a' ha'

/-- A host write keeps the invariant. -/
theorem hostWrite_keeps_inv (a : PortAddr) (v : Byte) {s : State} (h : Inv s) :
    Inv (hostWrite a v s) := by
  rcases hostWrite_cases a v s with hw | ⟨-, hw | hw | hw | ⟨b, hb, hcell, hw⟩⟩
  · rwa [hw]
  · rw [hw]; exact startCommand_keeps_inv v h
  · rw [hw]; exact inv_congr rfl rfl rfl rfl rfl h
  · rw [hw]; exact inv_congr rfl rfl rfl rfl rfl h
  · rw [hw]; exact store_keeps_inv v h hb hcell

/-- Every host access keeps the invariant. -/
theorem hostAccess_keeps_inv (access : HostAccess) {s : State} (h : Inv s) :
    Inv (hostAccess access s) := by
  cases access with
  | write a v => exact hostWrite_keeps_inv a v h
  | read a => exact inv_congr rfl rfl rfl rfl rfl h
  | reset => exact inv_of_cleared h.1 rfl rfl rfl rfl

/-- Settles O8: a step is one host access or the unit's turn, and each keeps the invariant. -/
theorem stepKeepsInvariant : Obligations.StepKeepsInvariant := by
  intro s t h hstep
  have hhead : Inv (afterHead s) := inv_congr rfl rfl rfl rfl rfl h
  obtain ⟨-, ⟨access, rest, -, rfl⟩ | ⟨-, hturn⟩⟩ := step_next hstep
  · exact hostAccess_keeps_inv access hhead
  · exact unitTurn_keeps_inv hhead hturn

end Sys2Proof.Machine

/-! PROOFS. 20_memory.md: the register port, address by address. What a host read returns outside a
flight (R42, R43) and in flight (R51), which addresses ignore a write (R44), that every write in flight
is ignored (R50), and what a write outside a flight stores (R42). -/

namespace Sys2Proof.Machine

/-! ### The map's registers and reserved addresses (R42) -/

section AddressMap

variable {c : Config} {a : PortAddr}

theorem locate_cmd (h : a.toNat = 0x000) : locate c a = .cmd := by
  simp [locate, h]

theorem locate_status (h : a.toNat = 0x001) : locate c a = .status := by
  simp [locate, h]

theorem locate_ilen (h : a.toNat = 0x002) : locate c a = .ilen := by
  simp [locate, h]

theorem locate_wlen (h : a.toNat = 0x003) : locate c a = .wlen := by
  simp [locate, h]

theorem locate_olen (h : a.toNat = 0x004) : locate c a = .olen := by
  simp [locate, h]

/-- The rows of R42's table marked reserved: the gap after the registers, and what each buffer leaves of
its 256 addresses. -/
theorem locate_reserved
    (h : (0x005 ≤ a.toNat ∧ a.toNat ≤ 0x0FF) ∨ (0x100 + c.ibufMax ≤ a.toNat ∧ a.toNat ≤ 0x1FF) ∨
      (0x200 + c.wbufMax ≤ a.toNat ∧ a.toNat ≤ 0x2FF) ∨ 0x300 + c.obufMax ≤ a.toNat) :
    locate c a = .reserved := by
  unfold locate
  dsimp only [olenAddr, ibufBase, wbufBase, obufBase]
  iterate 8 rw [if_neg (by omega)]

/-- What an address of the output says of its number (R42). -/
theorem locate_output :
    (locate c a = .olen → a.toNat = 0x004) ∧
    ∀ k, locate c a = .obuf k → k < c.obufMax ∧ a.toNat = 0x300 + k := by
  unfold locate
  dsimp only [olenAddr, ibufBase, wbufBase, obufBase]
  constructor
  · intro h
    split_ifs at h
    assumption
  · intro k h
    split_ifs at h
    injection h
    omega

/-- The addresses of OLEN and OBUF are those whose reads in flight are unspecified (R51). -/
theorem unstable_locate :
    unstable (locate c a) = true ↔ a.toNat = 0x004 ∨ ∃ k < c.obufMax, a.toNat = 0x300 + k := by
  constructor
  · intro h
    cases hl : locate c a with
    | olen => exact .inl (locate_output.1 hl)
    | obuf k => exact .inr ⟨k, locate_output.2 k hl⟩
    | cmd | status | ilen | wlen | ibuf | wbuf | reserved =>
      rw [hl] at h
      cases h
  · rintro (h | ⟨k, hk, h⟩)
    · rw [locate_olen h]; rfl
    · rw [locate_obuf h hk]; rfl

end AddressMap

/-! ### Host reads (R42, R43, R51) -/

/-- Outside a flight every location reads as what it holds (R42). -/
theorem readByte_of_idle {s : State} {a : PortAddr} {l : Location} (hidle : busy s = false)
    (hl : locate s.cfg a = l) : readByte s a = locationByte s l := by
  simp [readByte, hidle, hl]

/-- A location that is not unstable reads as what it holds in any phase (R51). -/
theorem readByte_of_stable {s : State} {a : PortAddr} {l : Location} (hl : locate s.cfg a = l)
    (hstable : unstable l = false) : readByte s a = locationByte s l := by
  simp [readByte, hl, hstable]

/-- OLEN and OBUF read in flight as the free value of this read (R51). -/
theorem readByte_of_free {s : State} {a : PortAddr} (hbusy : busy s = true)
    (hfree : unstable (locate s.cfg a) = true) : readByte s a = Config.busyByte s.busyReads := by
  simp [readByte, hbusy, hfree]

/-- The number of draws after a host read: one more if this read drew (R51). -/
def drawsAfterRead (s : State) (a : PortAddr) : Nat :=
  if busy s && unstable (locate s.cfg a) then s.busyReads + 1 else s.busyReads

theorem drawsAfterRead_of_free {s : State} {a : PortAddr} (hbusy : busy s = true)
    (hfree : unstable (locate s.cfg a) = true) : drawsAfterRead s a = s.busyReads + 1 := by
  simp [drawsAfterRead, hbusy, hfree]

theorem drawsAfterRead_of_idle {s : State} (a : PortAddr) (hidle : busy s = false) :
    drawsAfterRead s a = s.busyReads := by
  simp [drawsAfterRead, hidle]

theorem drawsAfterRead_of_stable {s : State} {a : PortAddr}
    (hstable : unstable (locate s.cfg a) = false) : drawsAfterRead s a = s.busyReads := by
  simp [drawsAfterRead, hstable]

/-- A step that is a host read: its byte is logged, its draw counted, and nothing else changes. -/
theorem step_read {s : State} {a : PortAddr} {rest : List Turn} (hwf : s.cfg.wf)
    (hs : s.schedule = .host (.read a) :: rest) :
    step s = .next { s with
      schedule := rest
      returned := (a.toNat, readByte s a) :: s.returned
      busyReads := drawsAfterRead s a } :=
  step_host hwf hs

/-- A step that is a host read without a draw. -/
theorem step_read_of_no_draw {s : State} {a : PortAddr} {rest : List Turn} (hwf : s.cfg.wf)
    (hs : s.schedule = .host (.read a) :: rest) (hdraws : drawsAfterRead s a = s.busyReads) :
    step s = .next { s with schedule := rest, returned := (a.toNat, readByte s a) :: s.returned } := by
  rw [step_read hwf hs, hdraws]

/-- Settles O12: outside a flight a read draws nothing, and returns what R42's entry holds. -/
theorem idleReadReturnsTheMapEntry : Obligations.IdleReadReturnsTheMapEntry := by
  intro s a rest hwf hidle hs
  refine ⟨readByte s a, step_read_of_no_draw hwf hs (drawsAfterRead_of_idle a hidle), ?_⟩
  have holds {l : Location} (hl : locate s.cfg a = l) : readByte s a = locationByte s l :=
    readByte_of_idle hidle hl
  exact ⟨fun h => holds (locate_cmd h), fun h => holds (locate_status h),
    fun h => holds (locate_ilen h), fun h => holds (locate_wlen h), fun h => holds (locate_olen h),
    fun _ hk h => holds (locate_ibuf hwf h hk), fun _ hk h => holds (locate_wbuf hwf h hk),
    fun _ hk h => holds (locate_obuf h hk)⟩

/-- STATUS 0x01 means that a command is in flight (R13, R90). -/
theorem busy_of_status {s : State} (h : s.status = 0x01) : busy s = true := by
  rw [busy, h]
  decide

/-- Settles O13: in flight the reads of OLEN and OBUF draw, and all others return what is held. -/
theorem busyReadReturnsFrozenOrFree : Obligations.BusyReadReturnsFrozenOrFree := by
  intro s a rest hwf hstatus hs
  have hbusy := busy_of_status hstatus
  have frozen {l : Location} (hl : locate s.cfg a = l) (hstable : unstable l = false) :
      readByte s a = locationByte s l := readByte_of_stable hl hstable
  refine ⟨readByte s a, drawsAfterRead s a, step_read hwf hs,
    fun h => frozen (locate_cmd h) rfl, fun h => (frozen (locate_status h) rfl).trans hstatus,
    fun h => frozen (locate_ilen h) rfl, fun h => frozen (locate_wlen h) rfl,
    fun _ hk h => frozen (locate_ibuf hwf h hk) rfl, fun _ hk h => frozen (locate_wbuf hwf h hk) rfl,
    fun h => ?_, fun h => ?_⟩
  · have hfree := unstable_locate.mpr h
    exact ⟨readByte_of_free hbusy hfree, drawsAfterRead_of_free hbusy hfree⟩
  · exact drawsAfterRead_of_stable (Bool.eq_false_iff.mpr (mt unstable_locate.mp h))

/-! ### Host writes (R42, R44, R50) -/

/-- A step that is a host write. -/
theorem step_write {s : State} {a : PortAddr} {v : Byte} {rest : List Turn} (hwf : s.cfg.wf)
    (hs : s.schedule = .host (.write a v) :: rest) :
    step s = .next (hostWrite a v { s with schedule := rest }) :=
  step_host hwf hs

/-- Settles O15: the busy gate stops the write, whatever its address. -/
theorem busyWriteIsIgnored : Obligations.BusyWriteIsIgnored := by
  intro s a v rest hwf hbusy hs
  rw [step_write hwf hs, hostWrite_busy (s := { s with schedule := rest }) hbusy]

/-- A location that a host write can change (R42, R44). -/
def writable : Location → Bool
  | .cmd | .ilen | .wlen | .ibuf _ | .wbuf _ => true
  | .status | .olen | .obuf _ | .reserved => false

/-- A write to any other location changes nothing, in any phase (R44). -/
theorem hostWrite_of_not_writable {s : State} {a : PortAddr} (v : Byte)
    (h : writable (locate s.cfg a) = false) : hostWrite a v s = s := by
  unfold hostWrite
  split
  · rfl
  · cases hl : locate s.cfg a with
    | status | olen | obuf | reserved => rfl
    | cmd | ilen | wlen | ibuf | wbuf =>
      rw [hl] at h
      cases h

/-- The read-only addresses: STATUS, OLEN and OBUF (R44). -/
theorem not_writable_of_readOnly {c : Config} {a : PortAddr}
    (h : a.toNat = 0x001 ∨ a.toNat = 0x004 ∨ (0x300 ≤ a.toNat ∧ a.toNat < 0x300 + c.obufMax)) :
    writable (locate c a) = false := by
  rcases h with h | h | ⟨hlow, hhigh⟩
  · rw [locate_status h]; rfl
  · rw [locate_olen h]; rfl
  · have ha : a.toNat = 0x300 + (a.toNat - 0x300) := by omega
    rw [locate_obuf ha (by omega)]; rfl

/-- Settles O14: a reserved location holds 0x00 and draws nothing; it and the read-only ones are not
writable. -/
theorem reservedAndReadOnlyAddresses : Obligations.ReservedAndReadOnlyAddresses := by
  intro s a rest hwf reserved readOnly
  refine ⟨fun hres hs => ?_, fun v haddr hs => ?_⟩
  · have hloc : locate s.cfg a = .reserved := locate_reserved hres
    have hbyte : readByte s a = 0x00 := readByte_of_stable hloc rfl
    rw [step_read_of_no_draw hwf hs (drawsAfterRead_of_stable (by rw [hloc]; rfl)), hbyte]
  · have hignored : writable (locate s.cfg a) = false := by
      rcases haddr with hres | hro
      · rw [locate_reserved hres]; rfl
      · exact not_writable_of_readOnly hro
    rw [step_write hwf hs, hostWrite_of_not_writable (s := { s with schedule := rest }) v hignored]

/-- A write to ILEN outside a flight (10_state.md R14). -/
theorem hostWrite_ilen {s : State} {a : PortAddr} (v : Byte) (hidle : busy s = false)
    (h : a.toNat = 0x002) : hostWrite a v s = { s with ilen := v } := by
  simp [hostWrite, hidle, locate_ilen h]

/-- A write to WLEN outside a flight (10_state.md R15). -/
theorem hostWrite_wlen {s : State} {a : PortAddr} (v : Byte) (hidle : busy s = false)
    (h : a.toNat = 0x003) : hostWrite a v s = { s with wlen := v } := by
  simp [hostWrite, hidle, locate_wlen h]

/-- A write to a byte of IBUF or WBUF outside a flight stores it at its port address (10_state.md R17,
R18). -/
theorem hostWrite_buffer {s : State} {a : PortAddr} (v : Byte) (hwf : s.cfg.wf)
    (hidle : busy s = false)
    (h : (∃ k < s.cfg.ibufMax, a.toNat = 0x100 + k) ∨ (∃ k < s.cfg.wbufMax, a.toNat = 0x200 + k)) :
    hostWrite a v s = { s with mem := Memory.store s.mem a.toNat v } := by
  rcases h with ⟨k, hk, ha⟩ | ⟨k, hk, ha⟩
  · simp [hostWrite, hidle, locate_ibuf hwf ha hk, ha]
  · simp [hostWrite, hidle, locate_wbuf hwf ha hk, ha]

/-- A stored byte is read back. -/
theorem bufferByte_store_same (s : State) (a : Nat) (v : Byte) :
    bufferByte { s with mem := Memory.store s.mem a v } a = v := by
  simp [bufferByte]

/-- A store leaves every other buffer byte as it was, written or not. -/
theorem bufferByte_store_other (s : State) {a a' : Nat} (v : Byte) (h : a' ≠ a) :
    bufferByte { s with mem := Memory.store s.mem a v } a' = bufferByte s a' := by
  simp [bufferByte, lookup_store_other s.mem v h]

/-- Settles O16: ILEN and WLEN take the byte, and a store in IBUF or WBUF is seen at its address alone. -/
theorem idleWriteStores : Obligations.IdleWriteStores := by
  intro s a v rest hwf hidle hs
  have hidle' : busy { s with schedule := rest } = false := hidle
  rw [step_write hwf hs]
  refine ⟨fun h => ?_, fun h => ?_, fun h => ?_⟩
  · rw [hostWrite_ilen v hidle' h]
  · rw [hostWrite_wlen v hidle' h]
  · rw [hostWrite_buffer (s := { s with schedule := rest }) v hwf hidle' h]
    exact ⟨_, rfl, rfl, bufferByte_store_same _ _ v, fun a' hne => bufferByte_store_other _ v hne⟩

end Sys2Proof.Machine

/-! PROOFS. 30_encoding.md: the command byte (R60 to R64), the alphabets (R71 to R76, 45_base58check.md
R191, R192), and the host's CALL (R81), step by step from the loading of the operand to the last byte of
the result. -/

namespace Sys2Proof

/-! ### The fields of CMD8 (R60) -/

theorem rsvField_eq (b : Byte) : rsvField b = b.toNat / 64 := by
  have := b.isLt
  rw [rsvField, BitVec.extractLsb'_toNat, Nat.shiftRight_eq_div_pow]
  omega

theorem dirField_toNat (b : Byte) : (dirField b).toNat = b.toNat / 32 % 2 :=
  Nat.toNat_testBit b.toNat 5

theorem schemeField_eq (b : Byte) : schemeField b = b.toNat / 2 % 16 := by
  rw [schemeField, BitVec.extractLsb'_toNat, Nat.shiftRight_eq_div_pow]

theorem modeField_toNat (b : Byte) : (modeField b).toNat = b.toNat % 2 := by
  have := Nat.toNat_testBit b.toNat 0
  rwa [pow_zero, Nat.div_one] at this

/-! ### What the decoder accepts (R61 to R63) -/

/-- The decoder accepts a byte when RSV is 0, SCHEME has a name, and the scheme has the direction. -/
theorem decode_eq_ok_iff {b : Byte} {i : Instr} :
    decode b = .ok i ↔ rsvField b = 0 ∧ ∃ scheme, schemeOf (schemeField b) = some scheme ∧
      commandOf scheme (dirField b) (modeField b) = some i := by
  unfold decode
  split
  · simp [*]
  · cases schemeOf (schemeField b) with
    | none => simp
    | some scheme => cases hc : commandOf scheme (dirField b) (modeField b) <;> simp_all

/-- The SCHEME value of a scheme (R61). -/
def Scheme.number : Scheme → Nat
  | .luhn10 => 1
  | .luhn36 => 2
  | .gs1 => 3
  | .wmod11 => 4
  | .damm => 5
  | .verh => 6
  | .iso97 => 7
  | .iso1110 => 8
  | .iso112 => 9
  | .iso3736 => 10
  | .b58c => 11

theorem schemeOf_eq_some_iff {n : Nat} {scheme : Scheme} :
    schemeOf n = some scheme ↔ n = scheme.number := by
  constructor
  · intro h
    unfold schemeOf at h
    split at h <;> cases h <;> rfl
  · rintro rfl
    cases scheme <;> rfl

/-- The table of commands puts each command at its own SCHEME, DIR and MODE (R62). -/
theorem fields_of_commandOf {scheme : Scheme} {dir mode : Bool} {i : Instr}
    (h : commandOf scheme dir mode = some i) :
    schemeNumber i = scheme.number ∧ dirNumber i = dir.toNat ∧ modeNumber i = mode.toNat := by
  unfold commandOf at h
  split at h <;> cases h <;> exact ⟨rfl, rfl, rfl⟩

theorem decode_encode (i : Instr) : decode (encode i) = .ok i := by
  cases i <;> rfl

/-- A byte is put together from its fields, and those of an accepted byte are its command's. -/
theorem encode_of_decode {i : Instr} {b : Byte} (h : decode b = .ok i) : encode i = b := by
  obtain ⟨hrsv, scheme, hs, hc⟩ := decode_eq_ok_iff.mp h
  obtain ⟨hscheme, hdir, hmode⟩ := fields_of_commandOf hc
  rw [rsvField_eq] at hrsv
  rw [← schemeOf_eq_some_iff.mp hs, schemeField_eq] at hscheme
  rw [dirField_toNat] at hdir
  rw [modeField_toNat] at hmode
  apply BitVec.eq_of_toNat_eq
  rw [encode, BitVec.toNat_ofNat]
  omega

/-- Settles O2: an accepted byte is put together from its command's fields, and each command's byte
decodes to it. -/
theorem decodeEncodeAgree : Obligations.DecodeEncodeAgree :=
  fun i _ => ⟨encode_of_decode, fun h => h ▸ decode_encode i⟩

/-- Settles O1: the encoder gives the byte of each row, and decoding agrees with it. -/
theorem tableBytesAreTheCommands : Obligations.TableBytesAreTheCommands := by
  intro p hp
  have hbyte : encode p.2 = p.1 := by
    revert p
    decide
  exact ⟨(decodeEncodeAgree p.2 p.1).mpr hbyte, hbyte⟩

/-! ### What it refuses (R64) -/

theorem schemeOf_eq_none_iff {n : Nat} : schemeOf n = none ↔ n = 0 ∨ 12 ≤ n := by
  unfold schemeOf
  split
  iterate 11 · simp
  · simp only [imp_false, true_iff] at *
    omega

/-- Only WMOD11 has the direction DIR = 1 (R63). -/
theorem commandOf_eq_none_iff {scheme : Scheme} {dir mode : Bool} :
    commandOf scheme dir mode = none ↔ dir = true ∧ scheme ≠ .wmod11 := by
  cases scheme <;> cases dir <;> cases mode <;> decide

/-- The three clauses of R64: reserved bits, a reserved scheme, a direction the scheme does not have. -/
theorem decode_eq_error_iff {b : Byte} :
    (∃ e, decode b = .error e) ↔ rsvField b ≠ 0 ∨ (schemeField b = 0 ∨ 12 ≤ schemeField b) ∨
      (dirField b = true ∧ schemeField b ≠ 4) := by
  have hwmod11 : schemeOf (schemeField b) = some .wmod11 ↔ schemeField b = 4 := schemeOf_eq_some_iff
  rw [← schemeOf_eq_none_iff, ne_eq (schemeField b), ← hwmod11]
  unfold decode
  split
  · simp [*]
  · cases schemeOf (schemeField b) with
    | none => simp
    | some scheme =>
      have := @commandOf_eq_none_iff scheme (dirField b) (modeField b)
      cases hc : commandOf scheme (dirField b) (modeField b) <;> simp_all

/-- Settles O3: R64's ranges are its three clauses, read off the number of the byte. -/
theorem illegalBytesAreTheListedOnes : Obligations.IllegalBytesAreTheListedOnes := by
  intro b
  have hlt := b.isLt
  have hdir : dirField b = true ↔ b.toNat / 32 % 2 = 1 := by
    rw [← dirField_toNat, Bool.toNat_eq_one]
  rw [decode_eq_error_iff, rsvField_eq, schemeField_eq, hdir]
  omega

end Sys2Proof

namespace Sys2Proof.Machine

/-! ### The decoders, byte by byte (R71 to R76, 45 R192) -/

theorem dec10_eq_some_iff {b : Byte} {v : Nat} : dec10 b = some v ↔ v < 10 ∧ b.toNat = 0x30 + v := by
  unfold dec10
  split <;> simp <;> omega

theorem dec36_eq_some_iff {b : Byte} {v : Nat} : dec36 b = some v ↔
    (v < 10 ∧ b.toNat = 0x30 + v) ∨
    (10 ≤ v ∧ v < 36 ∧ (b.toNat = 0x41 + (v - 10) ∨ b.toNat = 0x61 + (v - 10))) := by
  unfold dec36
  split_ifs <;> simp <;> omega

/-- A byte equals a character of the alphabet exactly when its number is that character's code. -/
theorem eq_ascii_iff {b : Byte} {c : Char} {n : Nat} (h : (ascii c).toNat = n) :
    b = ascii c ↔ b.toNat = n := by
  rw [← h, BitVec.toNat_inj]

theorem dec11_eq_some_iff {b : Byte} {v : Nat} : dec11 b = some v ↔
    (v < 10 ∧ b.toNat = 0x30 + v) ∨ (v = 10 ∧ b.toNat = 0x58) := by
  have hX : b = ascii 'X' ↔ b.toNat = 0x58 := eq_ascii_iff rfl
  simp only [dec11, hX]
  split
  · simp; omega
  · rw [dec10_eq_some_iff]; omega

theorem dec37_eq_some_iff {b : Byte} {v : Nat} : dec37 b = some v ↔
    (v = 36 ∧ b.toNat = 0x2A) ∨ dec36 b = some v := by
  have hstar : b = ascii '*' ↔ b.toNat = 0x2A := eq_ascii_iff rfl
  simp only [dec37, hstar]
  split
  · rw [dec36_eq_some_iff]; simp; omega
  · simp [*]

/-! ### The encoders -/

theorem enc10_toNat {v : Nat} (h : v < 10) : (enc10 v).toNat = 0x30 + v := by
  rw [enc10, BitVec.toNat_ofNat]
  omega

/-- ALPHA36 lists the digits, then the capital letters (R73). -/
theorem enc36_toNat : ∀ v < 36, (enc36 v).toNat = if v < 10 then 0x30 + v else 0x41 + (v - 10) := by
  decide

theorem enc11_of_lt {v : Nat} (h : v < 10) : enc11 v = enc10 v := if_neg (by omega)

theorem enc36_of_lt {v : Nat} (h : v < 10) : enc36 v = enc10 v := by
  apply BitVec.eq_of_toNat_eq
  rw [enc10_toNat h, enc36_toNat v (by omega), if_pos h]

theorem enc37_of_lt {v : Nat} (h : v < 36) : enc37 v = enc36 v := if_neg (by omega)

/-- ALPHA58 in its runs of consecutive codes: it leaves out 0, I, O and l (45 R191). -/
theorem enc58_toNat : ∀ v < 58, (enc58 v).toNat =
    if v ≤ 8 then 0x31 + v else if v ≤ 16 then 0x41 + (v - 9) else if v ≤ 21 then 0x4A + (v - 17)
    else if v ≤ 32 then 0x50 + (v - 22) else if v ≤ 43 then 0x61 + (v - 33) else 0x6D + (v - 44) := by
  decide

/-! ### Each reads the other back -/

theorem dec10_enc10 {v : Nat} (h : v < 10) : dec10 (enc10 v) = some v :=
  dec10_eq_some_iff.mpr ⟨h, enc10_toNat h⟩

theorem enc10_of_dec10 {b : Byte} {v : Nat} (h : dec10 b = some v) : v < 10 ∧ enc10 v = b := by
  obtain ⟨hv, hb⟩ := dec10_eq_some_iff.mp h
  exact ⟨hv, BitVec.eq_of_toNat_eq ((enc10_toNat hv).trans hb.symm)⟩

theorem dec36_enc36 {v : Nat} (h : v < 36) : dec36 (enc36 v) = some v := by
  rw [dec36_eq_some_iff, enc36_toNat v h]
  split <;> omega

theorem dec11_enc11 {v : Nat} (h : v < 11) : dec11 (enc11 v) = some v := by
  rcases Nat.lt_succ_iff_lt_or_eq.mp h with hlt | rfl
  · rw [enc11_of_lt hlt]
    exact dec11_eq_some_iff.mpr (.inl ⟨hlt, enc10_toNat hlt⟩)
  · rfl

theorem dec37_enc37 {v : Nat} (h : v < 37) : dec37 (enc37 v) = some v := by
  rcases Nat.lt_succ_iff_lt_or_eq.mp h with hlt | rfl
  · rw [enc37_of_lt hlt]
    exact dec37_eq_some_iff.mpr (.inr (dec36_enc36 hlt))
  · rfl

/-- DEC58 reads a byte as the place where ALPHA58 has it, which gives its bytes run by run. -/
theorem dec58_eq_some_iff_enc58 {b : Byte} {v : Nat} : dec58 b = some v ↔ v < 58 ∧ enc58 v = b :=
  ⟨dec58_some, fun ⟨hv, hb⟩ => hb ▸ dec58_enc58 hv⟩

theorem dec58_eq_some_iff {b : Byte} {v : Nat} : dec58 b = some v ↔
    (v ≤ 8 ∧ b.toNat = 0x31 + v) ∨ (9 ≤ v ∧ v ≤ 16 ∧ b.toNat = 0x41 + (v - 9)) ∨
    (17 ≤ v ∧ v ≤ 21 ∧ b.toNat = 0x4A + (v - 17)) ∨ (22 ≤ v ∧ v ≤ 32 ∧ b.toNat = 0x50 + (v - 22)) ∨
    (33 ≤ v ∧ v ≤ 43 ∧ b.toNat = 0x61 + (v - 33)) ∨ (44 ≤ v ∧ v ≤ 57 ∧ b.toNat = 0x6D + (v - 44)) := by
  rw [dec58_eq_some_iff_enc58]
  by_cases hv : v < 58
  · rw [← BitVec.toNat_inj, enc58_toNat v hv]
    split_ifs <;> omega
  · omega

/-- Settles O4: the decoders by their bytes, the encoders by theirs, and each pair's inverse law. -/
theorem symbolDecodersInvertEncoders : Obligations.SymbolDecodersInvertEncoders := by
  refine ⟨fun _ _ => dec10_eq_some_iff, fun _ _ => dec36_eq_some_iff, fun _ _ => dec11_eq_some_iff,
    fun _ _ => dec37_eq_some_iff, fun _ _ => dec58_eq_some_iff,
    fun v hv => ⟨enc10_toNat hv, enc11_of_lt hv, enc36_of_lt hv⟩, fun v hv => ?_,
    fun _ => enc37_of_lt, rfl, rfl, fun _ => dec10_enc10, fun _ => dec36_enc36, fun _ => dec11_enc11,
    fun _ => dec37_enc37, fun _ => dec58_enc58, fun _ _ => enc10_of_dec10, fun _ _ => dec58_some⟩
  rw [enc36_toNat (10 + v) (by omega), if_neg (by omega), Nat.add_sub_cancel_left]

/-! ### LDI: the operand that stands in the unit after loading (R81, 20_memory.md R47) -/

/-- The memory after the bytes of `chars` are stored one by one from address `a` on. -/
def storeBytes (m : Memory) : (a : Nat) → (chars : List Byte) → Memory
  | _, [] => m
  | a, b :: rest => storeBytes (Memory.store m a b) (a + 1) rest

theorem lookup_storeBytes_of_outside {a a' : Nat} {chars : List Byte} (m : Memory)
    (h : a' < a ∨ a + chars.length ≤ a') :
    Memory.lookup (storeBytes m a chars) a' = Memory.lookup m a' := by
  induction chars generalizing m a with
  | nil => rfl
  | cons b rest ih =>
    rw [List.length_cons] at h
    rw [storeBytes, ih _ (by omega), lookup_store_other _ _ (by omega)]

theorem lookup_storeBytes (m : Memory) (a : Nat) (chars : List Byte) {k : Nat}
    (h : k < chars.length) : Memory.lookup (storeBytes m a chars) (a + k) = some chars[k] := by
  induction chars generalizing m a k with
  | nil => cases h
  | cons b rest ih =>
    rw [storeBytes]
    cases k with
    | zero => rw [lookup_storeBytes_of_outside _ (by omega), Nat.add_zero, lookup_store_same]; rfl
    | succ k =>
      have hk := ih (Memory.store m a b) (a + 1) (Nat.lt_of_succ_lt_succ h)
      rwa [Nat.add_right_comm] at hk

/-- The unit with `chars` loaded: ILEN is its length and IBUF begins with its bytes. -/
def loaded (s : State) (chars : List Byte) : State :=
  { s with ilen := BitVec.ofNat 8 chars.length, mem := storeBytes s.mem ibufBase chars }

theorem loaded_ilen {chars : List Byte} (s : State) (h : chars.length ≤ 255) :
    (loaded s chars).ilen.toNat = chars.length := by
  rw [loaded, BitVec.toNat_ofNat]
  omega

theorem operand_loaded {chars : List Byte} (s : State) (h : chars.length ≤ 255) :
    operand (loaded s chars) = chars := by
  refine List.ext_getElem ((operand_length _).trans (loaded_ilen s h)) fun k hk hk' => ?_
  have hlookup : Memory.lookup (loaded s chars).mem (ibufBase + k) = some chars[k] :=
    lookup_storeBytes s.mem ibufBase chars hk'
  exact (bufferBytes_getElem _ _ _ k hk).trans (by rw [bufferByte, hlookup])

/-- Loading an operand that fits IBUF leaves WBUF alone. -/
theorem bufferByte_loaded_weight {chars : List Byte} (s : State) (h : chars.length ≤ 255) (k : Nat) :
    bufferByte (loaded s chars) (wbufBase + k) = bufferByte s (wbufBase + k) := by
  have hlookup : Memory.lookup (loaded s chars).mem (wbufBase + k) = Memory.lookup s.mem (wbufBase + k) :=
    lookup_storeBytes_of_outside s.mem (.inr (by simp only [ibufBase, wbufBase]; omega))
  rw [bufferByte, hlookup]
  rfl

section Writes

variable {s : State} {a : PortAddr} {v : Byte} {rest : List Turn}

/-- A step that is a write to ILEN outside a flight. -/
theorem step_write_ilen (hwf : s.cfg.wf) (hidle : busy s = false) (ha : a.toNat = 0x002)
    (hs : s.schedule = .host (.write a v) :: rest) :
    step s = .next { s with schedule := rest, ilen := v } :=
  (step_write hwf hs).trans (congrArg _ (hostWrite_ilen v hidle ha))

/-- A step that is a write to a byte of IBUF outside a flight. -/
theorem step_write_ibuf (hwf : s.cfg.wf) (hidle : busy s = false) {base : Nat}
    (hlow : ibufBase ≤ base) (hhigh : base < ibufBase + s.cfg.ibufMax)
    (hs : s.schedule = .host (.write (BitVec.ofNat 10 base) v) :: rest) :
    step s = .next { s with schedule := rest, mem := Memory.store s.mem base v } := by
  have haddr : (BitVec.ofNat 10 base).toNat = base := by
    obtain ⟨⟨-, hibuf⟩, -⟩ := hwf
    simp only [ibufBase] at hlow hhigh
    rw [BitVec.toNat_ofNat]
    omega
  have hcell : ∃ k < s.cfg.ibufMax, (BitVec.ofNat 10 base).toNat = 0x100 + k :=
    ⟨base - ibufBase, by omega, by simp only [ibufBase] at *; omega⟩
  have hwrite := hostWrite_buffer (s := { s with schedule := rest }) v hwf hidle (.inl hcell)
  rw [haddr] at hwrite
  exact (step_write hwf hs).trans (congrArg _ hwrite)

/-- A step that is a write to CMD outside a flight starts the command (R90). -/
theorem step_write_cmd (hwf : s.cfg.wf) (hidle : busy s = false) (ha : a.toNat = 0x000)
    (hs : s.schedule = .host (.write a v) :: rest) :
    step s = .next (startCommand v { s with schedule := rest }) := by
  have hidle' : busy { s with schedule := rest } = false := hidle
  rw [step_write hwf hs, hostWrite, hidle', locate_cmd ha]
  rfl

end Writes

/-- The writes of a byte sequence to IBUF outside a flight, one step each. -/
theorem run_writeBytes {chars : List Byte} {base : Nat} {s : State} {rest : List Turn}
    (hwf : s.cfg.wf) (hidle : busy s = false) (hbase : ibufBase ≤ base)
    (hfits : base + chars.length ≤ ibufBase + s.cfg.ibufMax)
    (hs : s.schedule = (writeBytes base chars).map Turn.host ++ rest) :
    Host.Core.run Sys2Proof.core chars.length s =
      .next { s with schedule := rest, mem := storeBytes s.mem base chars } := by
  induction chars generalizing base s with
  | nil =>
    obtain rfl : s.schedule = rest := hs
    rfl
  | cons b chars ih =>
    rw [List.length_cons] at hfits
    rw [List.length_cons, run_succ_of_next _ (step_write_ibuf hwf hidle hbase (by omega) hs)]
    exact ih hwf hidle (by omega) (by dsimp only; omega) rfl

/-- LDI outside a flight. -/
theorem run_loadInput {chars : List Byte} {s : State} {rest : List Turn} (hwf : s.cfg.wf)
    (hidle : busy s = false) (hfits : chars.length ≤ s.cfg.ibufMax)
    (hs : s.schedule = (loadInput chars).map Turn.host ++ rest) :
    Host.Core.run Sys2Proof.core (chars.length + 1) s =
      .next { loaded s chars with schedule := rest } := by
  rw [run_succ_of_next _ (step_write_ilen hwf hidle rfl hs)]
  exact run_writeBytes hwf hidle (le_refl _) (by dsimp only; omega) rfl

/-! ### Runs of host reads (20_memory.md R43) -/

/-- Host reads that draw nothing leave the unit as it is, and the log takes the byte each address had
at the beginning. -/
theorem run_reads {addrs : List PortAddr} {s : State} {rest : List Turn} (hwf : s.cfg.wf)
    (hdraws : ∀ a ∈ addrs, drawsAfterRead s a = s.busyReads)
    (hs : s.schedule = addrs.map (fun a => Turn.host (.read a)) ++ rest) :
    Host.Core.run Sys2Proof.core addrs.length s = .next { s with
      schedule := rest
      returned := (addrs.map fun a => (a.toNat, readByte s a)).reverse ++ s.returned } := by
  induction addrs generalizing s with
  | nil =>
    obtain rfl : s.schedule = rest := hs
    rfl
  | cons a addrs ih =>
    obtain ⟨hnow, hlater⟩ := List.forall_mem_cons.mp hdraws
    rw [List.length_cons, run_succ_of_next _ (step_read_of_no_draw hwf hs hnow), List.map_cons,
      List.reverse_cons, List.append_assoc]
    exact ih hwf hlater rfl

/-- Polling STATUS in flight returns 0x01 each time (R13, R81). -/
theorem run_polls {polls : Nat} {s : State} {rest : List Turn} (hwf : s.cfg.wf)
    (hstatus : s.status = 0x01)
    (hs : s.schedule = List.replicate polls (Turn.host (.read 0x001)) ++ rest) :
    Host.Core.run Sys2Proof.core polls s = .next { s with
      schedule := rest
      returned := List.replicate polls (0x001, 0x01) ++ s.returned } := by
  have hloc : locate s.cfg 0x001 = .status := locate_status rfl
  have hbyte : readByte s 0x001 = 0x01 := (readByte_of_stable hloc rfl).trans hstatus
  have hrun := run_reads (addrs := List.replicate polls 0x001) (rest := rest) hwf
    (fun a ha => by
      rw [List.eq_of_mem_replicate ha]
      exact drawsAfterRead_of_stable (by rw [hloc]; rfl))
    (by rwa [List.map_replicate])
  rw [List.length_replicate, List.map_replicate, List.reverse_replicate, hbyte] at hrun
  exact hrun

/-! ### The command from its start to its completion (R90 to R92) -/

/-- The operand reads ILEN and the bytes below OBUF. -/
theorem operand_congr {s t : State} (hilen : t.ilen = s.ilen)
    (hbytes : ∀ a < obufBase, bufferByte t a = bufferByte s a) : operand t = operand s := by
  rw [operand, operand, hilen]
  refine bufferBytes_congr fun k hk => hbytes _ ?_
  have := s.ilen.isLt
  simp only [ibufBase, obufBase]
  omega

/-- The unit in flight with command `i` on the operand `chars`, polled `polls` times, and with the turns
`rest` to come. -/
def polled (s : State) (i : Instr) (chars : List Byte) (polls : Nat) (rest : List Turn) : State :=
  { startCommand (encode i) (loaded s chars) with
    schedule := rest
    returned := List.replicate polls (0x001, 0x01) ++ s.returned }

theorem bufferByte_polled (s : State) (i : Instr) (chars : List Byte) (polls : Nat) (rest : List Turn)
    {a : Nat} (h : a < obufBase) :
    bufferByte (polled s i chars polls rest) a = bufferByte (loaded s chars) a :=
  bufferByte_startCommand (encode i) (loaded s chars) h

/-- The operand in flight is the loaded one. -/
theorem operand_polled {chars : List Byte} (s : State) (i : Instr) (polls : Nat) (rest : List Turn)
    (h : chars.length ≤ 255) : operand (polled s i chars polls rest) = chars := by
  have hsame : operand (polled s i chars polls rest) = operand (loaded s chars) :=
    operand_congr rfl fun _ => bufferByte_polled s i chars polls rest
  rw [hsame, operand_loaded s h]

/-- The weights in flight are those that stood in the unit. -/
theorem sameWeights_polled {chars : List Byte} (s : State) (i : Instr) (polls : Nat) (rest : List Turn)
    (h : chars.length ≤ 255) : sameWeights s (polled s i chars polls rest) := by
  refine ⟨rfl, fun _ => bufferBytes_congr fun k hk => ?_⟩
  have := s.wlen.isLt
  rw [bufferByte_polled s i chars polls rest (by simp only [wbufBase, obufBase]; omega),
    bufferByte_loaded_weight s h]

theorem sameWeights_symm {s s' : State} (hcfg : s'.cfg = s.cfg) (h : sameWeights s s') :
    sameWeights s' s := by
  obtain ⟨hwlen, hbytes⟩ := h
  exact ⟨hwlen.symm, fun hfits => by rw [hwlen, hbytes (by rwa [hwlen, hcfg] at hfits)]⟩

theorem sameWeights_trans {s s' s'' : State} (hcfg : s'.cfg = s.cfg) (h : sameWeights s s')
    (h' : sameWeights s' s'') : sameWeights s s'' := by
  obtain ⟨hwlen, hbytes⟩ := h
  obtain ⟨hwlen', hbytes'⟩ := h'
  refine ⟨hwlen'.trans hwlen, fun hfits => ?_⟩
  rw [← hbytes hfits, ← hwlen]
  exact hbytes' (by rwa [hwlen, hcfg])

/-- The command in flight has the operands of any state with the same parameters, this operand and the
weights that stand in the unit. -/
theorem sameOperands_polled {s u : State} {i : Instr} {chars : List Byte} (polls : Nat)
    (rest : List Turn) (hlen : chars.length ≤ 255) (hcfg : u.cfg = s.cfg) (hop : operand u = chars)
    (hweights : i ∈ weightCommands → sameWeights s u) :
    sameOperands i u (polled s i chars polls rest) := by
  have hop' := operand_polled s i polls rest hlen
  refine ⟨hcfg.symm, ?_, fun _ => hop'.trans hop.symm, fun hi => ?_⟩
  · apply BitVec.eq_of_toNat_eq
    rw [← operand_length, ← operand_length, hop', hop]
  · exact sameWeights_trans hcfg.symm (sameWeights_symm hcfg (hweights hi))
      (sameWeights_polled s i polls rest hlen)

/-- Loading, the mnemonic and the polls of a CALL leave the command in flight. -/
theorem run_polled {s : State} {i : Instr} {chars : List Byte} {polls : Nat} {rest : List Turn}
    (hwf : s.cfg.wf) (hidle : busy s = false) (hfits : chars.length ≤ s.cfg.ibufMax)
    (hs : s.schedule = (loadInput chars ++ [issue i]).map Turn.host ++
      (List.replicate polls (Turn.host (.read 0x001)) ++ rest)) :
    Host.Core.run Sys2Proof.core (chars.length + 2 + polls) s =
      .next (polled s i chars polls rest) := by
  rw [List.map_append, List.append_assoc] at hs
  have hload := run_loadInput hwf hidle hfits hs
  have hissue := step_write_cmd (a := 0x000) (v := encode i)
    (rest := List.replicate polls (Turn.host (.read 0x001)) ++ rest)
    (s := { loaded s chars with schedule := _ }) hwf hidle rfl rfl
  rw [show chars.length + 2 + polls = (chars.length + 1) + (polls + 1) by omega,
    run_add _ _ _ hload]
  exact (run_succ_of_next polls hissue).trans (run_polls hwf rfl rfl)

/-- The unit's turn completes the command in flight. -/
theorem step_polled {s : State} (i : Instr) (chars : List Byte) (polls : Nat) (rest : List Turn)
    (hwf : s.cfg.wf) :
    step (polled s i chars polls (.unit :: rest)) = exec i (polled s i chars polls rest) := by
  have hbusy : busy (afterHead (polled s i chars polls (.unit :: rest))) = true := busy_of_status rfl
  have hcmd : (afterHead (polled s i chars polls (.unit :: rest))).cmd = encode i := rfl
  refine (step_unit (s := polled s i chars polls (.unit :: rest)) hwf (.inr rfl)).trans ?_
  rw [unitTurn, hbusy, hcmd, decode_encode]
  rfl

/-- A command redraws OBUF with a result that fits and writes OLEN and STATUS, nothing else (R103). -/
theorem exec_frame {i : Instr} {s t : State} (h : exec i s = .next t) :
    ∃ out olen status, out.length ≤ s.cfg.obufMax ∧ olen = BitVec.ofNat 8 out.length ∧
      t = { redrawOutput out s with olen := olen, status := status } := by
  obtain ⟨c, hc⟩ := exec_eq_complete i s
  exact complete_frame (hc ▸ h)

/-- No completion leaves BUSY set (R99 to R101). -/
theorem not_busy_of_exec {i : Instr} {s t : State} (h : exec i s = .next t) : busy t = false := by
  obtain ⟨c, hc⟩ := exec_eq_complete i s
  rcases complete_next (hc ▸ h) with ⟨out, -, -, rfl⟩ | ⟨e, -, rfl⟩ | ⟨valid, -, rfl⟩
  · show busyBit statusOk = false
    decide
  · show busyBit (statusErr e) = false
    cases e <;> decide
  · show busyBit (statusVerdict valid) = false
    cases valid <;> decide

theorem operand_of_exec {i : Instr} {s t : State} (h : exec i s = .next t) : operand t = operand s := by
  obtain ⟨out, olen, status, -, -, rfl⟩ := exec_frame h
  exact operand_congr rfl fun _ ha => bufferByte_redraw_input out s ha

theorem olen_le_of_exec {i : Instr} {s t : State} (h : exec i s = .next t) :
    t.olen.toNat ≤ s.cfg.obufMax := by
  obtain ⟨out, olen, status, hfits, rfl, rfl⟩ := exec_frame h
  rw [BitVec.toNat_ofNat]
  exact (Nat.mod_le _ _).trans hfits

/-! ### RDO: the result read back (R81) -/

/-- What a CALL reads after the unit's turn for a result of `n` bytes: STATUS at the end of WAIT and once
more, OLEN, and the result. -/
def resultAddrs (n : Nat) : List PortAddr :=
  0x001 :: 0x001 :: 0x004 :: (List.range n).map fun k => BitVec.ofNat 10 (obufBase + k)

/-- A CALL's turns up to the polls, the unit's turn, and the reads after it. -/
theorem callTurns_eq (i : Instr) (chars : List Byte) (polls n : Nat) :
    callTurns i chars polls n = (loadInput chars ++ [issue i]).map Turn.host ++
      (List.replicate polls (Turn.host (.read 0x001)) ++
        .unit :: (resultAddrs n).map fun a => Turn.host (.read a)) := by
  simp [callTurns, waitTurns, readOutput, resultAddrs, Function.comp_def]

theorem writeBytes_length (chars : List Byte) (a : Nat) : (writeBytes a chars).length = chars.length := by
  induction chars generalizing a with
  | nil => rfl
  | cons b rest ih => rw [writeBytes, List.length_cons, ih, List.length_cons]

theorem callTurns_length (i : Instr) (chars : List Byte) (polls n : Nat) :
    (callTurns i chars polls n).length =
      (chars.length + 2 + polls + 1) + (resultAddrs n).length := by
  simp [callTurns_eq, loadInput, writeBytes_length]
  omega

/-- The cells of the bytes `f 0`, `f 1`, … at the addresses they have. -/
theorem cellsFrom_map_range (f : Nat → Byte) (a n : Nat) :
    cellsFrom a ((List.range n).map f) = (List.range n).map fun k => (a + k, f k) := by
  induction n generalizing a f with
  | zero => rfl
  | succ n ih =>
    rw [List.range_succ_eq_map, List.map_cons, List.map_map, cellsFrom, ih, List.map_cons, List.map_map]
    simp [Function.comp_def, Nat.add_assoc, Nat.add_comm 1]

/-- Outside a flight those reads return STATUS twice, OLEN, and the result bytes at their addresses. -/
theorem read_resultAddrs {t : State} (hidle : busy t = false)
    (hfits : t.olen.toNat ≤ t.cfg.obufMax) :
    ((resultAddrs t.olen.toNat).map fun a => (a.toNat, readByte t a)) =
      (0x001, t.status) :: (0x001, t.status) :: (0x004, t.olen) :: cellsFrom 0x300 (resultBytes t) := by
  have hstatus : readByte t 0x001 = t.status := readByte_of_idle hidle (locate_status rfl)
  have holen : readByte t 0x004 = t.olen := readByte_of_idle hidle (locate_olen rfl)
  have hcell : ∀ k ∈ List.range t.olen.toNat,
      ((BitVec.ofNat 10 (obufBase + k)).toNat, readByte t (BitVec.ofNat 10 (obufBase + k))) =
        (0x300 + k, bufferByte t (obufBase + k)) := by
    intro k hk
    have hk' := List.mem_range.mp hk
    have haddr : (BitVec.ofNat 10 (obufBase + k)).toNat = 0x300 + k := by
      have := t.olen.isLt
      rw [BitVec.toNat_ofNat]
      simp only [obufBase]
      omega
    rw [haddr, readByte_of_idle hidle (locate_obuf haddr (by omega))]
    rfl
  rw [resultBytes, bufferBytes, cellsFrom_map_range, ← List.map_congr_left hcell]
  rw [resultAddrs, List.map_cons, List.map_cons, List.map_cons, List.map_map, hstatus, holen]
  rfl

/-! ### The whole CALL -/

/-- The unit after the unit's turn of a CALL of `i` on `chars` from `s`: it shows what the command made
of its operand in `r`, no command is in flight, and the turns `rest` are to come. -/
structure CallCompleted (s r : State) (i : Instr) (chars : List Byte) (polls : Nat) (rest : List Turn)
    (t : State) : Prop where
  cmd_eq : t.cmd = encode i
  operand_eq : operand t = chars
  status_eq : t.status = r.status
  olen_eq : t.olen = r.olen
  result_eq : resultBytes t = resultBytes r
  schedule_eq : t.schedule = rest
  returned_eq : t.returned = List.replicate polls (0x001, 0x01) ++ s.returned
  cfg_eq : t.cfg = s.cfg
  idle : busy t = false
  fits : t.olen.toNat ≤ t.cfg.obufMax

/-- The completion of the command in flight shows what the command makes of any state with the same
operands (R9). -/
theorem exec_polled {s u r : State} {i : Instr} {chars : List Byte} (polls : Nat) (rest : List Turn)
    (hlen : chars.length ≤ 255) (hcfg : u.cfg = s.cfg) (hop : operand u = chars)
    (hweights : i ∈ weightCommands → sameWeights s u) (hexec : exec i u = .next r) :
    ∃ t, exec i (polled s i chars polls rest) = .next t ∧ CallCompleted s r i chars polls rest t := by
  obtain ⟨t, ht, hstatus, holen, hresult⟩ := commandsArePureFunctions i u _ r
    (sameOperands_polled polls rest hlen hcfg hop hweights) hexec
  have hop' := (operand_of_exec ht).trans (operand_polled s i polls rest hlen)
  have hidle := not_busy_of_exec ht
  have hfits := olen_le_of_exec ht
  obtain ⟨out, olen, status, -, -, rfl⟩ := exec_frame ht
  exact ⟨_, ht, rfl, hop', hstatus, holen, hresult, rfl, rfl, rfl, hidle, hfits⟩

/-- A CALL up to the unit's turn. -/
theorem run_callToCompletion {s u r : State} {i : Instr} {chars : List Byte} {polls : Nat}
    {rest : List Turn} (hwf : s.cfg.wf) (hidle : busy s = false)
    (hfits : chars.length ≤ s.cfg.ibufMax) (hcfg : u.cfg = s.cfg) (hop : operand u = chars)
    (hweights : i ∈ weightCommands → sameWeights s u) (hexec : exec i u = .next r)
    (hs : s.schedule = (loadInput chars ++ [issue i]).map Turn.host ++
      (List.replicate polls (Turn.host (.read 0x001)) ++ .unit :: rest)) :
    ∃ t, Host.Core.run Sys2Proof.core (chars.length + 2 + polls + 1) s = .next t ∧
      CallCompleted s r i chars polls rest t := by
  have hlen : chars.length ≤ 255 := by
    obtain ⟨⟨-, hibuf⟩, -⟩ := hwf
    omega
  obtain ⟨t, ht, hdone⟩ := exec_polled polls rest hlen hcfg hop hweights hexec
  refine ⟨t, ?_, hdone⟩
  rw [run_add _ _ _ (run_polled hwf hidle hfits hs),
    run_succ_of_next _ ((step_polled i chars polls rest hwf).trans ht)]
  rfl

/-- The reads of a CALL after the unit's turn: the unit stays, and the log takes STATUS twice, OLEN and
the result. -/
theorem run_resultAddrs {t : State} {rest : List Turn} (hwf : t.cfg.wf) (hidle : busy t = false)
    (hfits : t.olen.toNat ≤ t.cfg.obufMax)
    (hs : t.schedule = (resultAddrs t.olen.toNat).map (fun a => Turn.host (.read a)) ++ rest) :
    Host.Core.run Sys2Proof.core (resultAddrs t.olen.toNat).length t = .next { t with
      schedule := rest
      returned := (cellsFrom 0x300 (resultBytes t)).reverse ++ (0x004, t.olen) :: (0x001, t.status) ::
        (0x001, t.status) :: t.returned } := by
  have hrun := run_reads hwf (fun a _ => drawsAfterRead_of_idle a hidle) hs
  rw [read_resultAddrs hidle hfits] at hrun
  simpa only [List.reverse_cons, List.append_assoc, List.cons_append, List.nil_append] using hrun

/-- Settles O27: the command in flight completes as on any state with the same operands, and the reads
after the unit's turn return what that completion left. -/
theorem callDeliversTheCommandResult : Obligations.CallDeliversTheCommandResult := by
  intro s u r i chars polls rest hwf hidle hfits hcfg hop hweights hexec
  refine ⟨fun hs => ?_, fun hs => ?_⟩
  · obtain ⟨t, hrun, h⟩ := run_callToCompletion hwf hidle hfits hcfg hop hweights hexec hs
    exact ⟨t, hrun, h.cmd_eq, h.operand_eq, h.status_eq, h.olen_eq, h.result_eq, h.schedule_eq,
      h.returned_eq⟩
  · rw [callTurns_eq, List.append_assoc, List.append_assoc, List.cons_append] at hs
    obtain ⟨t, hrun, h⟩ := run_callToCompletion hwf hidle hfits hcfg hop hweights hexec hs
    have hreads := run_resultAddrs (h.cfg_eq ▸ hwf) h.idle h.fits (h.olen_eq ▸ h.schedule_eq)
    rw [callTurns_length, run_add _ _ _ hrun, ← h.olen_eq, hreads]
    refine ⟨_, rfl, h.cmd_eq, h.operand_eq, h.status_eq, rfl, h.result_eq, rfl, ?_⟩
    rw [← h.result_eq, ← h.status_eq, ← h.returned_eq]

end Sys2Proof.Machine

/-! PROOFS. 40_common_operation.md: the start of a command (R90), the flight that nothing disturbs (R91,
R92), the admission checks (R93), the symbol scan (R94), the two contracts (R96 to R98), the completions
(R99 to R101), what they leave untouched (R103), and that a computed output validates (R102). -/

namespace Sys2Proof.Machine

/-! ### The step in flight and the start (R90, R92) -/

/-- Placing a command puts the unit's turn first, and taking that turn leaves the schedule as it was. -/
theorem afterHead_placeCommand (v : Byte) (s : State) :
    afterHead (placeCommand v s) = { s with cmd := v, status := statusBusy } := by
  have htail : (unitFirst s.schedule).tail = s.schedule := by cases s.schedule <;> rfl
  simp only [afterHead, placeCommand, htail]

theorem unitFirst_isUnit (schedule : List Turn) :
    unitFirst schedule = [] ∨ (unitFirst schedule).head? = some .unit := by
  cases schedule with
  | nil => exact .inl rfl
  | cons => exact .inr rfl

/-- The unit's turn with command `i` in flight is the meaning of `i`. -/
theorem unitTurn_of_decode {s : State} {i : Instr} (hbusy : busy s = true)
    (hd : decode s.cmd = .ok i) : unitTurn s = exec i s := by
  rw [unitTurn, if_pos hbusy, hd]

/-- Settles O5: the unit's turn is taken off the schedule and runs the command CMD decodes to; a placed
byte is in CMD, in flight, with the unit's turn first. -/
theorem stepRunsTheCommandInFlight : Obligations.StepRunsTheCommandInFlight := by
  refine ⟨fun s i hwf hturn hbusy hd => ?_, fun s i hwf => ?_⟩
  · rw [step_unit hwf hturn]
    exact unitTurn_of_decode (s := afterHead s) hbusy hd
  · have hbyte : BitVec.ofNat 8 ((encode i).toNat % 2 ^ 8) = encode i := by
      rw [Nat.mod_eq_of_lt (encode i).isLt, BitVec.ofNat_toNat, BitVec.setWidth_eq]
    rw [State.withFetchWord, hbyte, step_unit (s := placeCommand (encode i) s) hwf
      (unitFirst_isUnit s.schedule), afterHead_placeCommand]
    exact unitTurn_of_decode (busy_of_status rfl) (decode_encode i)

/-- After a redraw no byte of OBUF beyond the new result holds a written value (R19). -/
theorem outputEndsAt_redraw {s t : State} {out : List Byte} {n : Nat}
    (hmem : t.mem = (redrawOutput out s).mem) (hn : out.length ≤ n) : outputEndsAt t n := by
  intro a ha
  rw [hmem, redrawOutput_mem, lookup_redraw_output _ _ (by omega)]
  exact List.getElem?_eq_none (by omega)

/-- Settles O17: the write is the start of the command, which redraws OBUF with nothing. -/
theorem commandStart : Obligations.CommandStart := by
  intro s v rest hwf hidle hs
  exact ⟨_, step_write_cmd hwf hidle rfl hs, rfl, rfl, rfl, rfl, rfl, rfl, rfl, rfl,
    outputEndsAt_redraw (out := []) rfl (Nat.zero_le _),
    fun _ ha => bufferByte_startCommand v { s with schedule := rest } ha⟩

/-! ### The completions (R99 to R101, R103) -/

/-- Settles O18: each completion redraws OBUF with its result, or with nothing. -/
theorem completionsWriteResultAndStatus : Obligations.CompletionsWriteResultAndStatus := by
  intro s hwf
  have hnone {t : State} (hmem : t.mem = (redrawOutput [] s).mem) : outputEndsAt t 0 :=
    outputEndsAt_redraw hmem (le_refl 0)
  refine ⟨fun out hfits => ?_, fun e => ?_, ?_, ?_⟩
  · obtain ⟨-, -, -, -, hobuf⟩ := hwf
    exact ⟨_, if_pos hfits, hasOutput_of_redraw s (hfits.trans hobuf),
      outputEndsAt_redraw rfl (le_refl _)⟩
  · refine ⟨completeErr e s, rfl, rfl, hnone rfl, ?_⟩
    rw [completeErr_status]
    cases e <;> decide
  · exact ⟨completeValid true s, rfl, rfl, hnone rfl, rfl⟩
  · exact ⟨completeValid false s, rfl, rfl, hnone rfl, rfl⟩

/-- Settles O19: a command redraws OBUF with a result of length OLEN and writes OLEN and STATUS. -/
theorem commandsLeaveOperandsUntouched : Obligations.CommandsLeaveOperandsUntouched := by
  intro i s t hwf hexec
  obtain ⟨out, olen, status, hfits, rfl, rfl⟩ := exec_frame hexec
  refine ⟨rfl, rfl, rfl, rfl, rfl, rfl, rfl, rfl, fun a ha => bufferByte_redraw_input out s ha,
    outputEndsAt_redraw rfl ?_⟩
  obtain ⟨-, -, -, -, hobuf⟩ := hwf
  rw [BitVec.toNat_ofNat]
  omega

/-! ### Every command completes (R92, R233) -/

/-- A completion that R233 allows a command leaves one of its STATUS values. -/
theorem status_of_completionAllowed {i : Instr} {c : Completion} {s t : State}
    (hc : completionAllowed i c) (hrun : complete c s = .next t) : t.status ∈ completionStatuses i := by
  rcases complete_next hrun with ⟨out, rfl, -, rfl⟩ | ⟨e, rfl, rfl⟩ | ⟨valid, rfl, rfl⟩
  · exact statusOk_mem_completionStatuses i
  · exact hc
  · exact hc.1

/-- A completion whose result, if it has one, fits OBUF does not fault. -/
theorem complete_next_of_fits {c : Completion} {s : State}
    (h : ∀ out, c = .ok out → out.length ≤ s.cfg.obufMax) : ∃ t, complete c s = .next t := by
  cases c with
  | ok out => exact ⟨_, if_pos (h out rfl)⟩
  | err e => exact ⟨_, rfl⟩
  | verdict valid => exact ⟨_, rfl⟩

/-- A strict command does not fault if every output its rule gives for an operand that fits IBUF fits
OBUF. -/
theorem strict_next_of_fits {rule : List Byte → Except ErrorCode (List Byte)} {s : State}
    (h : ∀ out, (operand s).length ≤ s.cfg.ibufMax → rule (operand s) = .ok out →
      out.length ≤ s.cfg.obufMax) :
    ∃ t, complete (strict (overCapacity s) rule s) s = .next t := by
  refine complete_next_of_fits fun out hout => ?_
  rcases strict_cases (overCapacity s) rule s with
    ⟨-, hc⟩ | ⟨hroom, out', hrule, hc⟩ | ⟨-, e, -, hc⟩
  · cases hc.symm.trans hout
  · obtain rfl : out' = out := Completion.ok.inj (hc.symm.trans hout)
    exact h out' (operand_length s ▸ overCapacity_eq_false.mp hroom) hrule
  · cases hc.symm.trans hout

/-- B58C.ENC's text fits OBUF: the payload has four bytes less than what is converted (R197). -/
theorem encode58_fits {s : State} {out : List Byte} (hwf : s.cfg.wf)
    (hfits : (operand s).length ≤ s.cfg.ibufMax) (h : encode58 (operand s) = .ok out) :
    out.length ≤ s.cfg.obufMax := by
  obtain ⟨-, -, -, htext, -⟩ := hwf
  unfold encode58 at h
  split at h
  · cases h
  · obtain rfl := Except.ok.inj h
    have hlen := textOf_length_le (operand s ++ suffix (operand s))
    rw [List.length_append, suffix_length] at hlen
    omega

/-- B58C.DEC's payload fits OBUF, since it is no longer than its text. -/
theorem decode58_fits {s : State} {out : List Byte} (hwf : s.cfg.wf)
    (hfits : (operand s).length ≤ s.cfg.ibufMax) (h : decode58 (operand s) = .ok out) :
    out.length ≤ s.cfg.obufMax := by
  obtain ⟨-, -, hinput, -, -⟩ := hwf
  have hlen := length_le_textOf (out ++ suffix out)
  rw [← (decode58_eq_ok_iff _ _).mp h, List.length_append] at hlen
  omega

/-- Every command but the two of Base58Check outputs two characters at most (10_state.md R16). -/
theorem olenAllowed_le_two {i : Instr} {n : Nat} (henc : i ≠ .b58cEnc) (hdec : i ≠ .b58cDec)
    (h : olenAllowed i n) : n ≤ 2 := by
  cases i
  case b58cEnc => exact absurd rfl henc
  case b58cDec => exact absurd rfl hdec
  all_goals
    have hn : n = _ := h
    omega

/-- No command faults under parameters that R6 allows. -/
theorem exec_next (i : Instr) {s : State} (hwf : s.cfg.wf) : ∃ t, exec i s = .next t := by
  by_cases henc : i = .b58cEnc
  · subst henc
    exact strict_next_of_fits fun _ => encode58_fits hwf
  by_cases hdec : i = .b58cDec
  · subst hdec
    exact strict_next_of_fits fun _ => decode58_fits hwf
  obtain ⟨c, hc, hallowed⟩ := exec_allowed i s
  rw [hc]
  refine complete_next_of_fits fun out hout => ?_
  subst hout
  have hlen := olenAllowed_le_two henc hdec hallowed
  obtain ⟨⟨hibuf, -⟩, -, hinput, -⟩ := hwf
  omega

/-- Settles O20: no command faults, and each ends in a completion that R233 allows it. -/
theorem everyCommandCompletes : Obligations.EveryCommandCompletes := by
  intro i s hwf
  obtain ⟨t, ht⟩ := exec_next i hwf
  obtain ⟨c, hc, hallowed⟩ := exec_allowed i s
  exact ⟨t, ht, status_of_completionAllowed hallowed (hc ▸ ht)⟩

/-! ### The flight (R91, R92, 20_memory.md R50) -/

/-- The unit with another schedule, read log and count of free reads: the fields no command reads. -/
def withTrace (s : State) (schedule : List Turn) (returned : List Host.Cell) (busyReads : Nat) : State :=
  { s with schedule := schedule, returned := returned, busyReads := busyReads }

/-- A completion does not touch those fields, so it is the same with any others. -/
theorem complete_withTrace {c : Completion} {s u : State} (schedule : List Turn)
    (returned : List Host.Cell) (busyReads : Nat) (h : complete c s = .next u) :
    complete c (withTrace s schedule returned busyReads) =
      .next (withTrace u schedule returned busyReads) := by
  rcases complete_next h with ⟨out, rfl, hfits, rfl⟩ | ⟨e, rfl, rfl⟩ | ⟨valid, rfl, rfl⟩
  · exact if_pos hfits
  · rfl
  · rfl

/-- A command does not read them either: they are none of its operands (00_scope.md R9). -/
theorem exec_withTrace {i : Instr} {s u : State} (schedule : List Turn) (returned : List Host.Cell)
    (busyReads : Nat) (h : exec i s = .next u) :
    exec i (withTrace s schedule returned busyReads) =
      .next (withTrace u schedule returned busyReads) := by
  have hsame : sameOperands i s (withTrace s schedule returned busyReads) :=
    ⟨rfl, rfl, fun _ => rfl, fun _ => ⟨rfl, fun _ => rfl⟩⟩
  obtain ⟨c, hc, hc'⟩ := exec_completion_of_sameOperands hsame
  rw [hc']
  exact complete_withTrace schedule returned busyReads (hc ▸ h)

/-- In flight a read or a write of the host changes no other field (R43, R50). -/
theorem hostAccess_of_busy {access : HostAccess} {s : State} (hbusy : busy s = true)
    (hreset : access ≠ .reset) :
    ∃ returned busyReads, hostAccess access s = withTrace s s.schedule returned busyReads := by
  cases access with
  | write a v => exact ⟨s.returned, s.busyReads, hostWrite_busy hbusy a v⟩
  | read a =>
    obtain ⟨n, hn⟩ := hostRead_eq a s
    exact ⟨_, n, hn⟩
  | reset => exact absurd rfl hreset

/-- Neither does any list of them. -/
theorem run_flight {hs : List HostAccess} {s : State} {rest : List Turn} (hwf : s.cfg.wf)
    (hbusy : busy s = true) (hreset : ∀ a ∈ hs, a ≠ .reset)
    (hsched : s.schedule = hs.map Turn.host ++ rest) :
    ∃ returned busyReads,
      Host.Core.run Sys2Proof.core hs.length s = .next (withTrace s rest returned busyReads) := by
  induction hs generalizing s with
  | nil =>
    obtain rfl : s.schedule = rest := hsched
    exact ⟨s.returned, s.busyReads, rfl⟩
  | cons access hs ih =>
    obtain ⟨hnow, hlater⟩ := List.forall_mem_cons.mp hreset
    have hstep := step_host hwf hsched
    obtain ⟨returned, busyReads, haccess⟩ :=
      hostAccess_of_busy (s := { s with schedule := hs.map Turn.host ++ rest }) hbusy hnow
    obtain ⟨returned', busyReads', hrun⟩ :=
      ih (s := withTrace s (hs.map Turn.host ++ rest) returned busyReads) hwf hbusy hlater rfl
    refine ⟨returned', busyReads', ?_⟩
    rw [List.length_cons, run_succ_of_next _ hstep]
    exact haccess ▸ hrun

/-- Settles O26: the accesses in flight leave the command and its operands, and the unit's turn then
completes that command on them. -/
theorem flightIsUndisturbed : Obligations.FlightIsUndisturbed := by
  intro s u i hs rest hwf hbusy hd hreset hsched hexec
  obtain ⟨returned, busyReads, hrun⟩ := run_flight hwf hbusy hreset hsched
  have hturn : step (withTrace s (.unit :: rest) returned busyReads) =
      exec i (withTrace s rest returned busyReads) :=
    stepRunsTheCommandInFlight.1 (withTrace s (.unit :: rest) returned busyReads) i hwf (.inr rfl)
      hbusy hd
  rw [exec_withTrace rest returned busyReads hexec] at hturn
  refine ⟨withTrace u rest returned busyReads, ?_, rfl⟩
  rw [run_add _ _ _ hrun]
  exact run_succ_of_next 0 hturn

/-! ### The admission checks (R93, 41_weighted_positional.md R120) -/

/-- The admission check of command `i`: its operands do not fit. -/
def exceedsCapacity (i : Instr) (s : State) : Bool :=
  match i with
  | .wmod11CL | .wmod11CR => overWeights s s.ilen.toNat
  | .wmod11VL | .wmod11VR => overWeights s (s.ilen.toNat - 1)
  | .luhn10C | .luhn10V | .luhn36C | .luhn36V | .gs1C | .gs1V | .dammC | .dammV | .verhC | .verhV
  | .iso97C | .iso97V | .iso1110C | .iso1110V | .iso112C | .iso112V | .iso3736C | .iso3736V
  | .b58cEnc | .b58cDec => overCapacity s

theorem overWeights_of_overCapacity {s : State} (m : Nat) (h : overCapacity s = true) :
    overWeights s m = true := by
  simp [overWeights, h]

theorem overWeights_of_weights {s : State} {m : Nat}
    (h : s.cfg.wbufMax < s.wlen.toNat ∨ s.wlen.toNat < m) : overWeights s m = true := by
  rcases h with h | h <;> simp [overWeights, h]

/-- An ILEN over IBUF_MAX fits no command. -/
theorem exceedsCapacity_of_lt (i : Instr) {s : State} (h : s.cfg.ibufMax < s.ilen.toNat) :
    exceedsCapacity i s = true := by
  have hover := overCapacity_of_lt h
  cases i
  case wmod11CL | wmod11CR | wmod11VL | wmod11VR => exact overWeights_of_overCapacity _ hover
  all_goals exact hover

/-- The operands that fit a compute command. -/
theorem exceedsCapacity_compute {i : Instr} {dec : Byte → Option Nat} {s : State}
    (hi : (i, dec) ∈ computeCommands) (hilen : s.ilen.toNat ≤ s.cfg.ibufMax)
    (hweights : i ∈ weightCommands → s.wlen.toNat ≤ s.cfg.wbufMax ∧ s.ilen.toNat ≤ s.wlen.toNat) :
    exceedsCapacity i s = false := by
  cases i
  case wmod11CL | wmod11CR =>
    exact overWeights_eq_false.mpr ⟨hilen, hweights (by simp [weightCommands])⟩
  case wmod11VL | wmod11VR => simp [computeCommands] at hi
  all_goals exact overCapacity_of_le hilen

/-! ### The strict commands (R94, R96) -/

/-- A compute command is a strict one, and its rule answers E_INVALID_CHAR if a character of the operand
has no value. -/
theorem exec_compute {i : Instr} {dec : Byte → Option Nat} (hi : (i, dec) ∈ computeCommands)
    (s : State) :
    ∃ rule, exec i s = complete (strict (exceedsCapacity i s) rule s) s ∧
      ∀ chars, (∃ b ∈ chars, dec b = none) → rule chars = .error .invalidChar := by
  have key {out : List Nat → List Byte} : ∀ chars, (∃ b ∈ chars, dec b = none) →
      computeWith dec out chars = .error .invalidChar := fun _ => computeWith_of_none out
  cases i <;> simp [computeCommands] at hi <;> subst hi
  case iso3736C =>
    refine ⟨_, rfl, ?_⟩
    cases s.cfg.iso3736 <;> exact key
  all_goals exact ⟨_, rfl, key⟩

/-- Every strict command checks that its operands fit before it reads them. -/
theorem exec_strict_admission {i : Instr} (hi : i ∈ strictCommands) (s : State) :
    ∃ rule, exec i s = complete (strict (exceedsCapacity i s) rule s) s := by
  rcases List.mem_append.mp hi with hi | hi
  · obtain ⟨⟨i, dec⟩, hmem, rfl⟩ := List.mem_map.mp hi
    obtain ⟨rule, hrule, -⟩ := exec_compute hmem s
    exact ⟨rule, hrule⟩
  · simp only [List.mem_cons, List.not_mem_nil, or_false] at hi
    rcases hi with rfl | rfl <;> exact ⟨_, rfl⟩

/-- A strict command whose operands do not fit reports E_LENGTH. -/
theorem exec_strict_of_exceeds {i : Instr} {s : State} (hi : i ∈ strictCommands)
    (h : exceedsCapacity i s = true) : ∃ t, exec i s = .next t ∧ failedWith t 0x6A := by
  obtain ⟨rule, hrule⟩ := exec_strict_admission hi s
  rw [hrule, h]
  exact ⟨completeErr .length s, rfl, rfl, rfl⟩

/-- A strict command whose operands fit reports the error of its rule. -/
theorem complete_strict_of_error {rule : List Byte → Except ErrorCode (List Byte)} {s : State}
    {e : ErrorCode} (h : rule (operand s) = .error e) :
    complete (strict false rule s) s = .next (completeErr e s) := by
  simp only [strict, Bool.false_eq_true, if_false, h]
  rfl

/-- B58C.DEC's rule answers E_FORMAT if a character of the text has no value (R94, R198). -/
theorem decode58_of_none {chars : List Byte} (h : ∃ b ∈ chars, dec58 b = none) :
    decode58 chars = .error .format := by
  have hne : chars ≠ [] := by
    rintro rfl
    simp at h
  rw [decode58, if_neg hne, decodeAll_eq_none.mpr h]

/-! ### The permissive commands (R94, R97, R98) -/

/-- An operand that is too short, or has a character without a value at its position (R77, R98). -/
def malformed (minLen : Nat) (dec decCheck : Byte → Option Nat) (chars : List Byte) : Prop :=
  chars.length < minLen ∨ (∃ b ∈ chars.dropLast, dec b = none) ∨
    ∃ b ∈ chars.getLast?, decCheck b = none

theorem validateWith_of_malformed {n : Nat} {dec : Byte → Option Nat} {relation : List Nat → Bool}
    {chars : List Byte} (h : malformed n dec dec chars) : validateWith n dec relation chars = false := by
  refine validateWith_of_bad ?_
  rcases h with h | ⟨b, hb, hnone⟩ | ⟨b, hb, hnone⟩
  · exact .inl h
  · exact .inr ⟨b, List.mem_of_mem_dropLast hb, hnone⟩
  · exact .inr ⟨b, List.mem_of_getLast? hb, hnone⟩

theorem validateCheckWith_of_malformed {dec decCheck : Byte → Option Nat}
    {relation : List Nat → Nat → Bool} {chars : List Byte} (h : malformed 1 dec decCheck chars) :
    validateCheckWith dec decCheck relation chars = false := by
  refine validateCheckWith_of_bad ?_
  rcases h with h | h
  · exact .inl (List.length_eq_zero_iff.mp (by omega))
  · exact .inr h

/-- DEC36 reads no more than DEC37 (R75). -/
theorem dec36_of_dec37_none {b : Byte} (h : dec37 b = none) : dec36 b = none := by
  unfold dec37 at h
  split at h
  · cases h
  · exact h

/-- Under HYBRID the check character is read with DEC36, which reads no more (92 D22). -/
theorem iso3736Validate_of_malformed (variant : Iso3736Variant) {chars : List Byte}
    (h : malformed 1 dec36 dec37 chars) : iso3736Validate variant chars = false := by
  cases variant with
  | pure => exact validateCheckWith_of_malformed h
  | hybrid =>
    refine validateCheckWith_of_malformed (decCheck := dec36) ?_
    rcases h with h | h | ⟨b, hb, hnone⟩
    · exact .inl h
    · exact .inr (.inl h)
    · exact .inr (.inr ⟨b, hb, dec36_of_dec37_none hnone⟩)

/-- The least length of an operand that can be valid: the check is two digits for ISO97.V (R98, 44
R162). -/
def minLength (i : Instr) : Nat := if i = .iso97V then 2 else 1

/-- A validate command is a permissive one, and its rule refuses a malformed operand. -/
theorem exec_validate {i : Instr} {dec decCheck : Byte → Option Nat}
    (hi : (i, dec, decCheck) ∈ validateCommands) (s : State) :
    ∃ rule, exec i s = complete (permissive (exceedsCapacity i s) rule s) s ∧
      ∀ chars, malformed (minLength i) dec decCheck chars → rule chars = false := by
  cases i <;> simp [validateCommands] at hi <;> obtain ⟨rfl, rfl⟩ := hi
  case luhn10V | luhn36V | dammV | verhV | iso97V | iso1110V =>
    exact ⟨_, rfl, fun _ => validateWith_of_malformed⟩
  case gs1V | wmod11VL | wmod11VR | iso112V =>
    exact ⟨_, rfl, fun _ => validateCheckWith_of_malformed⟩
  case iso3736V => exact ⟨_, rfl, fun _ => iso3736Validate_of_malformed s.cfg.iso3736⟩

/-- A permissive command ends in a verdict, and in "not valid" if its operands do not fit or its rule
refuses them. -/
theorem complete_permissive {tooLong : Bool} {rule : List Byte → Bool} {s : State} :
    ∃ t, complete (permissive tooLong rule s) s = .next t ∧ t.olen = 0 ∧
      (t.status = 0x06 ∨ t.status = 0x02) ∧
      (tooLong = true ∨ rule (operand s) = false → t.status = 0x02) := by
  rw [permissive_eq]
  refine ⟨_, rfl, rfl, ?_, fun h => ?_⟩
  · rw [completeValid_status]
    cases !tooLong && rule (operand s)
    · exact .inr rfl
    · exact .inl rfl
  · have hverdict : (!tooLong && rule (operand s)) = false := by
      rcases h with h | h <;> simp [h]
    rw [completeValid_status, hverdict]
    rfl

/-- The outcome of a validate command, and when it must be "not valid" (R97, R98). -/
theorem exec_validate_outcome {i : Instr} {dec decCheck : Byte → Option Nat}
    (hi : (i, dec, decCheck) ∈ validateCommands) (s : State) :
    ∃ t, exec i s = .next t ∧ t.olen = 0 ∧ (t.status = 0x06 ∨ t.status = 0x02) ∧
      (exceedsCapacity i s = true ∨ malformed (minLength i) dec decCheck (operand s) →
        t.status = 0x02) := by
  obtain ⟨rule, hrule, hrefuses⟩ := exec_validate hi s
  rw [hrule]
  obtain ⟨t, ht, holen, hstatus, hnot⟩ := complete_permissive
  exact ⟨t, ht, holen, hstatus, fun h => hnot (h.imp_right (hrefuses _))⟩

/-- A permissive command whose operands do not fit is "not valid". -/
theorem exec_permissive_of_exceeds {i : Instr} {s : State} (hi : i ∈ permissiveCommands)
    (h : exceedsCapacity i s = true) : ∃ t, exec i s = .next t ∧ t.status = 0x02 ∧ t.olen = 0 := by
  obtain ⟨⟨i, dec, decCheck⟩, hmem, rfl⟩ := List.mem_map.mp hi
  obtain ⟨t, ht, holen, -, hnot⟩ := exec_validate_outcome hmem s
  exact ⟨t, ht, hnot (.inl h), holen⟩

/-! ### The statements about admission, the scan and the verdicts -/

/-- Settles O23: a command whose operands do not fit ends before its rule reads a byte. -/
theorem capacityCheckComesFirst : Obligations.CapacityCheckComesFirst := by
  refine ⟨fun i hi s h => exec_strict_of_exceeds hi (exceedsCapacity_of_lt i h), fun i hi s h => ?_,
    fun i hi s h => exec_permissive_of_exceeds hi (exceedsCapacity_of_lt i h), fun i hi s h => ?_⟩
  · simp only [List.mem_cons, List.not_mem_nil, or_false] at hi
    rcases hi with rfl | rfl <;>
      exact exec_strict_of_exceeds (by simp [strictCommands, computeCommands]) (overWeights_of_weights h)
  · have h' : s.cfg.wbufMax < s.wlen.toNat ∨ s.wlen.toNat < s.ilen.toNat - 1 := by omega
    simp only [List.mem_cons, List.not_mem_nil, or_false] at hi
    rcases hi with rfl | rfl <;>
      exact exec_permissive_of_exceeds (by simp [permissiveCommands, validateCommands])
        (overWeights_of_weights h')

/-- Settles O21: a validate command refuses what does not fit and what is malformed; under HYBRID the
operand is malformed also when DEC36 does not read its last character. -/
theorem permissiveCommandsGiveVerdicts : Obligations.PermissiveCommandsGiveVerdicts := by
  refine ⟨fun i dec decCheck hi s => ?_, rfl, fun s hvar hbad => ?_⟩
  · obtain ⟨t, ht, holen, hstatus, hnot⟩ := exec_validate_outcome hi s
    refine ⟨t, ht, holen, hstatus, fun h => hnot ?_⟩
    rcases h with hlong | hshort | hbad
    · exact .inl (exceedsCapacity_of_lt i hlong)
    · exact .inr (.inl (by rwa [operand_length]))
    · exact .inr (.inr hbad)
  · have harm : exec .iso3736V s =
        complete (permissive (overCapacity s) (iso3736Validate s.cfg.iso3736) s) s := rfl
    have hrule : iso3736Validate .hybrid (operand s) = false :=
      validateCheckWith_of_malformed (.inr (.inr hbad))
    rw [harm, hvar]
    obtain ⟨t, ht, holen, -, hnot⟩ := complete_permissive
    exact ⟨t, ht, hnot (.inr hrule), holen⟩

/-- Settles O22: the scan finds the character before the rule uses any value. -/
theorem invalidCharacterOutcomes : Obligations.InvalidCharacterOutcomes := by
  refine ⟨fun i dec hi s hilen hweights hbad => ?_, fun s hilen hbad => ?_,
    fun i dec decCheck hi s chars c hop hbad => ?_⟩
  · obtain ⟨rule, hexec, hrule⟩ := exec_compute hi s
    rw [hexec, exceedsCapacity_compute hi hilen hweights, complete_strict_of_error (hrule _ hbad)]
    exact ⟨_, rfl, rfl, rfl⟩
  · have harm : exec .b58cDec s = complete (strict (overCapacity s) decode58 s) s := rfl
    rw [harm, overCapacity_of_le hilen, complete_strict_of_error (decode58_of_none hbad)]
    exact ⟨_, rfl, rfl, rfl⟩
  · have hmalformed : malformed (minLength i) dec decCheck (operand s) := by
      rw [hop]
      exact .inr (by simpa [malformed] using hbad)
    obtain ⟨t, ht, holen, -, hnot⟩ := exec_validate_outcome hi s
    exact ⟨t, ht, hnot (.inr hmalformed), holen⟩

/-! ### Round trips, scheme by scheme (R102)

For each scheme: the check accepts every payload followed by the output computed for its values. -/

/-- The check of a scheme accepts each payload, read with `dec`, followed by the computed output. -/
def RoundTrips (dec : Byte → Option Nat) (out : List Nat → List Byte)
    (check : List Byte → Bool) : Prop :=
  ∀ chars v, spells dec chars v → check (chars ++ out v) = true

/-- A scheme whose check characters are scanned like the payload round-trips if the values of its output,
put behind those of the payload, meet the relation. -/
theorem roundTrips_validateWith {n : Nat} {dec : Byte → Option Nat} {out : List Nat → List Byte}
    {relation : List Nat → Bool}
    (h : ∀ chars v, spells dec chars v →
      ∃ w, spells dec (out v) w ∧ n ≤ w.length ∧ relation (v ++ w) = true) :
    RoundTrips dec out (validateWith n dec relation) := by
  intro chars v hv
  obtain ⟨w, hw, hlen, hrel⟩ := h chars v hv
  have hlong : ¬ (chars ++ out v).length < n := by
    rw [List.length_append, ← spells_length hw]
    omega
  rw [validateWith, if_neg hlong, decodeAll_eq_some.mpr (spells_append hv hw)]
  exact hrel

/-- A scheme whose check character has a decoder of its own round-trips if the value of its one output
character meets the relation. -/
theorem roundTrips_validateCheckWith {dec decCheck : Byte → Option Nat} {enc : Nat → Byte}
    {value : List Nat → Nat} {relation : List Nat → Nat → Bool}
    (hdec : ∀ v, decCheck (enc (value v)) = some (value v))
    (h : ∀ v, relation v (value v) = true) :
    RoundTrips dec (fun v => [enc (value v)]) (validateCheckWith dec decCheck relation) := by
  intro chars v hv
  rw [validateCheckWith_concat hv (hdec v)]
  exact h v

theorem spells_dec10_lt {chars : List Byte} {v : List Nat} (h : spells dec10 chars v) :
    ∀ x ∈ v, x < 10 :=
  spells_lt (fun _ _ hx => (dec10_eq_some_iff.mp hx).1) h

/-! #### LUHN10, LUHN36 and GS1 (41_weighted_positional.md R112 to R117) -/

/-- A check value put behind the payload is not doubled and moves every other value one place (R113). -/
theorem luhnSum_concat (n : Nat) (v : List Nat) (c : Nat) :
    luhnSum n (v ++ [c]) false = luhnSum n v true + c := by
  rw [luhnSum, List.reverse_concat, luhnLoop, luhnSum, add_comm]
  rfl

theorem luhn_roundTrips {n : Nat} (hn : 0 < n) {dec : Byte → Option Nat} {enc : Nat → Byte}
    (hdec : ∀ c < n, dec (enc c) = some c) :
    RoundTrips dec (fun v => [enc (complementMod n (luhnSum n v true))])
      (validateWith 1 dec fun v => decide (luhnSum n v false % n = 0)) := by
  refine roundTrips_validateWith fun _ v _ =>
    ⟨_, spells_singleton (hdec _ (complementMod_lt hn)), le_refl 1, ?_⟩
  rw [decide_eq_true_iff, luhnSum_concat]
  exact Nat.mod_eq_zero_of_dvd (dvd_add_complementMod hn)

theorem gs1_roundTrips : RoundTrips dec10 (fun v => [enc10 (gs1Check v)])
    (validateCheckWith dec10 dec10 fun v c => decide (c = gs1Check v)) :=
  roundTrips_validateCheckWith (fun _ => dec10_enc10 (complementMod_lt (by omega)))
    fun _ => decide_eq_true rfl

/-- WMOD11 with any weights, in either direction (R121, R122). -/
theorem wmod11_roundTrips (rightToLeft : Bool) (w : List Nat) :
    RoundTrips dec10 (fun v => [enc11 (wmod11Check rightToLeft w v)])
      (validateCheckWith dec10 dec11 fun v c => decide (wmod11Check rightToLeft w v = c)) :=
  roundTrips_validateCheckWith (fun _ => dec11_enc11 (Nat.mod_lt _ (by omega))) fun _ => decide_eq_true rfl

/-! #### DAMM (42_damm.md R143, R144) -/

theorem dammFold_lt {v : List Nat} (h : ∀ x ∈ v, x < 10) : dammFold v < 10 := by
  obtain ⟨heq, hlt⟩ := dammLoop_eq v h 0 (by omega)
  rw [dammFold, heq]
  exact hlt

theorem dammLoop_concat (v : List Nat) (c d : Nat) :
    dammLoop c (v ++ [d]) = tableEntry dammTable (dammLoop c v) d := by
  induction v generalizing c with
  | nil => rfl
  | cons x v ih => exact ih _

/-- The diagonal of DAMM_T is 0 (R142). -/
theorem dammTable_diagonal : ∀ c < 10, tableEntry dammTable c c = 0 := by decide

theorem damm_roundTrips : RoundTrips dec10 (fun v => [enc10 (dammFold v)])
    (validateWith 1 dec10 fun v => decide (dammFold v = 0)) := by
  refine roundTrips_validateWith fun _ v hv => ?_
  have hlt := dammFold_lt (spells_dec10_lt hv)
  refine ⟨_, spells_singleton (dec10_enc10 hlt), le_refl 1, decide_eq_true ?_⟩
  exact (dammLoop_concat v 0 (dammFold v)).trans (dammTable_diagonal _ hlt)

/-! #### VERH (43_verhoeff.md R154, R155) -/

theorem dihedral_zero_left : ∀ b < 10, dihedral 0 b = b := by decide

theorem dihedral_zero_right : ∀ a < 10, dihedral a 0 = a := by decide

/-- The product from an accumulator on is the accumulator times the product from the identity on. -/
theorem verhFrom_eq_dihedral {l : List Nat} (h : ∀ x ∈ l, x < 10) {c : Nat} (hc : c < 10) (off : Nat) :
    verhFrom l off c = dihedral c (verhFrom l off 0) := by
  induction l generalizing c off with
  | nil => exact (dihedral_zero_right c hc).symm
  | cons x l ih =>
    obtain ⟨hx, hl⟩ := List.forall_mem_cons.mp h
    obtain ⟨-, hp⟩ := verhP_eq (off % 8) (Nat.mod_lt _ (by omega)) x hx
    obtain ⟨-, hcp⟩ := verhD_eq c hc _ hp
    obtain ⟨-, hrest⟩ := verhLoop_eq l hl 0 (off + 1) (by omega)
    rw [verhFrom_cons, verhFrom_cons, dihedral_zero_left _ hp, ih hl hcp, ih hl hp,
      dihedral_assoc c hc _ hp _ hrest]

/-- VERH_INV lists the left inverses (R153). -/
theorem verhInv_left : ∀ b < 10, verhInv.getD b 0 < 10 ∧ dihedral (verhInv.getD b 0) b = 0 := by decide

/-- A check digit put behind the payload multiplies the payload's product from the left (R156). -/
theorem verhFold_concat {v : List Nat} {c : Nat} (h : ∀ x ∈ v, x < 10) (hc : c < 10) :
    verhFold (v ++ [c]) 0 = dihedral c (verhFold v 1) := by
  have hrev : ∀ x ∈ v.reverse, x < 10 := fun x hx => h x (List.mem_reverse.mp hx)
  obtain ⟨hpayload, -⟩ := verhLoop_eq v.reverse hrev 0 1 (by omega)
  obtain ⟨hwhole, -⟩ :=
    verhLoop_eq (c :: v.reverse) (List.forall_mem_cons.mpr ⟨hc, hrev⟩) 0 0 (by omega)
  have hplace : verhStep^[0 % 8] c = c := rfl
  rw [verhFold, List.reverse_concat, hwhole, verhFrom_cons, hplace, dihedral_zero_left _ hc,
    verhFrom_eq_dihedral hrev hc, verhFold, hpayload]

theorem verh_roundTrips : RoundTrips dec10 (fun v => [enc10 (verhInv.getD (verhFold v 1) 0)])
    (validateWith 1 dec10 fun v => decide (verhFold v 0 = 0)) := by
  refine roundTrips_validateWith fun _ v hv => ?_
  have hdigits := spells_dec10_lt hv
  have hlt : verhFold v 1 < 10 := by
    obtain ⟨heq, hprod⟩ := verhFold_eq v hdigits 1
    rwa [heq]
  obtain ⟨hinv, hprod⟩ := verhInv_left _ hlt
  exact ⟨_, spells_singleton (dec10_enc10 hinv), le_refl 1,
    decide_eq_true ((verhFold_concat hdigits hinv).trans hprod)⟩

/-! #### ISO 7064 (44_iso7064.md R161 to R171, 92 D22) -/

/-- The two check digits, tens first, make the number 1 modulo 97. -/
theorem mod97Loop_concat_check (v : List Nat) :
    iso97Check v < 100 ∧ mod97Loop 0 (v ++ [iso97Check v / 10, iso97Check v % 10]) = 1 := by
  have hloop (a b : Nat) : mod97Loop 0 (v ++ [a, b]) = (100 * decimal v + (10 * a + b)) % 97 := by
    rw [mod97Loop_eq, if_neg (by simp), decimal_append_two, zero_mul, zero_add]
  have hcheck : iso97Check v = 98 - (100 * decimal v) % 97 := by
    rw [iso97Check, hloop, mul_zero, add_zero, add_zero]
  rw [hloop, hcheck]
  omega

theorem iso97_roundTrips :
    RoundTrips dec10 (fun v => [enc10 (iso97Check v / 10), enc10 (iso97Check v % 10)])
      (validateWith 2 dec10 fun v => decide (mod97Loop 0 v = 1)) := by
  refine roundTrips_validateWith fun _ v _ => ?_
  obtain ⟨hlt, hone⟩ := mod97Loop_concat_check v
  have htens := dec10_enc10 (v := iso97Check v / 10) (by omega)
  have hunits := dec10_enc10 (v := iso97Check v % 10) (by omega)
  exact ⟨_, spells_append (spells_singleton htens) (spells_singleton hunits), le_refl 2,
    decide_eq_true hone⟩

theorem iso1110Run_concat (v : List Nat) (c : Nat) :
    iso1110Run (v ++ [c]) = (iso1110Carry (iso1110Run v) * 2 % 11 + c) % 10 := by
  simp only [iso1110Run, iso1110Loop_eq, List.foldl_append, List.foldl_cons, List.foldl_nil]
  rfl

/-- The derived digit is the one that brings the recurrence to 1. -/
theorem iso1110Check_solves (v : List Nat) :
    iso1110Check v < 10 ∧ (iso1110Carry (iso1110Run v) * 2 % 11 + iso1110Check v) % 10 = 1 := by
  unfold iso1110Check
  dsimp only
  split <;> omega

theorem iso1110_roundTrips : RoundTrips dec10 (fun v => [enc10 (iso1110Check v)])
    (validateWith 1 dec10 fun v => decide (iso1110Run v = 1)) := by
  refine roundTrips_validateWith fun _ v _ => ?_
  obtain ⟨hlt, hone⟩ := iso1110Check_solves v
  exact ⟨_, spells_singleton (dec10_enc10 hlt), le_refl 1,
    decide_eq_true ((iso1110Run_concat v _).trans hone)⟩

theorem pureRun_lt (v : List Nat) {m r : Nat} (hm : 0 < m) : pureRun v m r < m := by
  rw [pureRun_eq v hm]
  exact Nat.mod_lt _ hm

theorem iso112_roundTrips : RoundTrips dec10 (fun v => [enc11 (iso112Check v)])
    (validateCheckWith dec10 dec11 fun v c => decide ((pureRun v 11 2 + c) % 11 = 1)) := by
  refine roundTrips_validateCheckWith (fun _ => dec11_enc11 (Nat.mod_lt _ (by omega)))
    fun v => decide_eq_true ?_
  have hlt : pureRun v 11 2 < 11 := pureRun_lt v (by omega)
  rw [iso112Check]
  omega

theorem iso3736Pure_roundTrips : RoundTrips dec36 (fun v => [enc37 (iso3736PureCheck v)])
    (validateCheckWith dec36 dec37 fun v c => decide ((pureRun v 37 36 + c) % 37 = 1)) := by
  refine roundTrips_validateCheckWith (fun _ => dec37_enc37 (Nat.mod_lt _ (by omega)))
    fun v => decide_eq_true ?_
  have hlt : pureRun v 37 36 < 37 := pureRun_lt v (by omega)
  rw [iso3736PureCheck]
  omega

theorem iso3736Hybrid_roundTrips : RoundTrips dec36 (fun v => [enc36 (iso3736HybridCheck v)])
    (validateCheckWith dec36 dec36 fun v c => decide ((hybridLoop 36 v + c) % 36 = 1)) := by
  refine roundTrips_validateCheckWith (fun v => dec36_enc36 (iso3736HybridCheck_lt v))
    fun v => decide_eq_true ?_
  rw [hybridLoop_eq]
  exact iso3736HybridCheck_solves v

/-! ### From the scheme to the commands (R102) -/

/-- A compute command that succeeds had operands that fit, read a value of every character, and its
result is the output for them. -/
theorem computed_of_success {s t : State} {tooLong : Bool} {dec : Byte → Option Nat}
    {out : List Nat → List Byte} (hlen : ∀ v, (out v).length ≤ 2)
    (hrun : complete (strict tooLong (computeWith dec out) s) s = .next t) (hok : t.status = 0x02) :
    tooLong = false ∧ ∃ v, spells dec (operand s) v ∧ resultBytes t = out v := by
  have hfails {e : ErrorCode} (hc : complete (.err e) s = .next t) : False := by
    obtain rfl := Host.Outcome.next.inj hc
    exact statusErr_ne_statusOk e hok
  rcases strict_cases tooLong (computeWith dec out) s with
    ⟨-, hc⟩ | ⟨hroom, o, hrule, hc⟩ | ⟨-, e, -, hc⟩
  · exact (hfails (hc ▸ hrun)).elim
  · refine ⟨hroom, ?_⟩
    unfold computeWith at hrule
    split at hrule
    · cases hrule
    · rename_i v hv
      obtain rfl := Except.ok.inj hrule
      rw [hc] at hrun
      obtain ⟨-, rfl⟩ := completeOk_next hrun
      have holen : (BitVec.ofNat 8 (out v).length).toNat = (out v).length := by
        have := hlen v
        rw [BitVec.toNat_ofNat]
        omega
      refine ⟨v, decodeAll_eq_some.mp hv, (resultBytes_redraw s _ holen.le).trans ?_⟩
      rw [holen, List.take_length]
  · exact (hfails (hc ▸ hrun)).elim

/-- A permissive command whose operands fit and whose rule accepts them completes as valid. -/
theorem permissive_accepts {s : State} {tooLong : Bool} {check : List Byte → Bool}
    (hroom : tooLong = false) (h : check (operand s) = true) :
    ∃ t, complete (permissive tooLong check s) s = .next t ∧ t.status = 0x06 ∧ t.olen = 0 := by
  rw [permissive_eq, hroom, h]
  exact ⟨_, rfl, rfl, rfl⟩

/-- The round trip of a command without weights. -/
theorem accepts_of_computed {s t s' : State} {dec : Byte → Option Nat} {out : List Nat → List Byte}
    {check : List Byte → Bool} (hlen : ∀ v, (out v).length ≤ 2) (hround : RoundTrips dec out check)
    (hrun : complete (strict (overCapacity s) (computeWith dec out) s) s = .next t)
    (hok : t.status = 0x02) (hop : operand s' = operand s ++ resultBytes t)
    (hfits : s'.ilen.toNat ≤ s'.cfg.ibufMax) :
    ∃ t', complete (permissive (overCapacity s') check s') s' = .next t' ∧ t'.status = 0x06 ∧
      t'.olen = 0 := by
  obtain ⟨-, v, hv, hresult⟩ := computed_of_success hlen hrun hok
  refine permissive_accepts (overCapacity_of_le hfits) ?_
  rw [hop, hresult]
  exact hround _ v hv

/-- The round trip of WMOD11: the longer operand meets the same weights, which are as many as the payload
has digits. -/
theorem wmod11_accepts_of_computed (rightToLeft : Bool) {s t s' : State} (hcfg : s'.cfg = s.cfg)
    (hw : sameWeights s s') (hrun : complete (wmod11Compute rightToLeft s) s = .next t)
    (hok : t.status = 0x02) (hop : operand s' = operand s ++ resultBytes t)
    (hfits : s'.ilen.toNat ≤ s'.cfg.ibufMax) :
    ∃ t', complete (wmod11Validate rightToLeft s') s' = .next t' ∧ t'.status = 0x06 ∧ t'.olen = 0 := by
  obtain ⟨hroom, v, hv, hresult⟩ := computed_of_success (fun _ => by simp) hrun hok
  obtain ⟨-, hwlen, hm⟩ := overWeights_eq_false.mp hroom
  have hpayload : s'.ilen.toNat - 1 = s.ilen.toNat := by
    have hlen := congrArg List.length hop
    rw [hresult, List.length_append, operand_length, operand_length, List.length_singleton] at hlen
    omega
  have hroom' : overWeights s' (s'.ilen.toNat - 1) = false := by
    rw [hpayload]
    exact overWeights_eq_false.mpr ⟨hfits, by rwa [hw.1, hcfg], by rwa [hw.1]⟩
  refine permissive_accepts hroom' ?_
  rw [hop, hresult, hpayload, weights_congr hw hwlen hm]
  exact wmod11_roundTrips rightToLeft (weights s s.ilen.toNat) _ v hv

/-- The round trip of MOD 37-36 under either variant. -/
theorem iso3736_accepts_of_computed {s t s' : State} (hcfg : s'.cfg = s.cfg)
    (hrun : exec .iso3736C s = .next t) (hok : t.status = 0x02)
    (hop : operand s' = operand s ++ resultBytes t) (hfits : s'.ilen.toNat ≤ s'.cfg.ibufMax) :
    ∃ t', exec .iso3736V s' = .next t' ∧ t'.status = 0x06 ∧ t'.olen = 0 := by
  have hcompute : exec .iso3736C s =
      complete (strict (overCapacity s) (iso3736Compute s.cfg.iso3736) s) s := rfl
  have hvalidate : exec .iso3736V s' =
      complete (permissive (overCapacity s') (iso3736Validate s'.cfg.iso3736) s') s' := rfl
  rw [hcompute] at hrun
  rw [hvalidate, hcfg]
  cases hvar : s.cfg.iso3736 with
  | pure =>
    rw [hvar] at hrun
    exact accepts_of_computed (fun _ => by simp) iso3736Pure_roundTrips hrun hok hop hfits
  | hybrid =>
    rw [hvar] at hrun
    exact accepts_of_computed (fun _ => by simp) iso3736Hybrid_roundTrips hrun hok hop hfits

/-- Settles O50: each scheme's check accepts its own output. -/
theorem computeThenValidateIsValid : Obligations.ComputeThenValidateIsValid := by
  intro p hp s t s' _ hrun hok hcfg hweights hop hfits
  have unweighted {dec : Byte → Option Nat} {out : List Nat → List Byte} {check : List Byte → Bool}
      (hround : RoundTrips dec out check) (hlen : ∀ v, (out v).length ≤ 2)
      (hexec : complete (strict (overCapacity s) (computeWith dec out) s) s = .next t) :=
    accepts_of_computed hlen hround hexec hok hop hfits
  simp only [schemePairs, List.mem_cons, List.not_mem_nil, or_false] at hp
  rcases hp with rfl | rfl | rfl | rfl | rfl | rfl | rfl | rfl | rfl | rfl | rfl
  · exact unweighted (luhn_roundTrips (by omega) fun _ => dec10_enc10) (fun _ => by simp) hrun
  · exact unweighted (luhn_roundTrips (by omega) fun _ => dec36_enc36) (fun _ => by simp) hrun
  · exact unweighted gs1_roundTrips (fun _ => by simp) hrun
  · exact wmod11_accepts_of_computed false hcfg (hweights (by simp [weightCommands])) hrun hok hop hfits
  · exact wmod11_accepts_of_computed true hcfg (hweights (by simp [weightCommands])) hrun hok hop hfits
  · exact unweighted damm_roundTrips (fun _ => by simp) hrun
  · exact unweighted verh_roundTrips (fun _ => by simp) hrun
  · exact unweighted iso97_roundTrips (fun _ => by simp) hrun
  · exact unweighted iso1110_roundTrips (fun _ => by simp) hrun
  · exact unweighted iso112_roundTrips (fun _ => by simp) hrun
  · exact iso3736_accepts_of_computed hcfg hrun hok hop hfits

end Sys2Proof.Machine

/-! PROOFS. 41_weighted_positional.md: the Luhn sums (R111 to R115), GS1 (R116, R117) and WMOD11 (R119 to
R122), and that a check value is unique in every scheme but ISO97 (R125; 42 R144, 43 R156, 44 R166, R169,
R172). -/

namespace Sys2Proof.Machine

/-! ### The values of the symbols -/

theorem dec10_lt (b : Byte) : ∀ x ∈ dec10 b, x < 10 := fun _ hx => (dec10_eq_some_iff.mp hx).1

theorem dec36_lt (b : Byte) : ∀ x ∈ dec36 b, x < 36 := fun _ hx => by
  rcases dec36_eq_some_iff.mp hx with ⟨hdigit, -⟩ | ⟨-, hletter, -⟩ <;> omega

theorem dec11_lt (b : Byte) : ∀ x ∈ dec11 b, x < 11 := fun _ hx => by
  rcases dec11_eq_some_iff.mp hx with ⟨hdigit, -⟩ | ⟨hX, -⟩ <;> omega

theorem dec37_lt (b : Byte) : ∀ x ∈ dec37 b, x < 37 := fun _ hx => by
  rcases dec37_eq_some_iff.mp hx with ⟨hstar, -⟩ | h36
  · omega
  · have := dec36_lt b _ h36
    omega

/-- Where DEC36 has a value, DEC37 has the same (R75). -/
theorem dec37_of_dec36 {b : Byte} {c : Nat} (h : dec36 b = some c) : dec37 b = some c :=
  dec37_eq_some_iff.mpr (.inr h)

/-! ### Complements -/

/-- Below the modulus only one value brings a sum to a given remainder. -/
theorem eq_of_add_mod_eq {n a c c' r : Nat} (hc : c < n) (hc' : c' < n) (h : (a + c) % n = r)
    (h' : (a + c') % n = r) : c = c' :=
  (Nat.ModEq.add_left_cancel' a (h.trans h'.symm)).eq_of_lt_of_lt hc hc'

/-- Among the values below the modulus the complement is the one that completes the sum. -/
theorem eq_complementMod_iff {n sum c : Nat} (hc : c < n) : c = complementMod n sum ↔ n ∣ sum + c := by
  have hn : 0 < n := by omega
  refine ⟨fun h => h ▸ dvd_add_complementMod hn, fun h => ?_⟩
  exact eq_of_add_mod_eq hc (complementMod_lt hn) (Nat.mod_eq_zero_of_dvd h)
    (Nat.mod_eq_zero_of_dvd (dvd_add_complementMod hn))

/-! ### LUHN10 and LUHN36 (R111 to R115) -/

/-- The Luhn compute rule outputs the value that completes the closed-form sum (R112, R114). -/
theorem luhnCompute_completes {n : Nat} (hn : 0 < n) {dec : Byte → Option Nat} {enc : Nat → Byte}
    (hdec : ∀ b, ∀ x ∈ dec b, x < n) {s : State} {v : List Nat} (hwf : s.cfg.wf)
    (hfits : s.ilen.toNat ≤ s.cfg.ibufMax) (hv : spells dec (operand s) v) :
    ∃ t c, complete (strict (overCapacity s)
        (computeWith dec fun v => [enc (complementMod n (luhnSum n v true))]) s) s = .next t ∧
      hasOutput t [enc c] ∧ c < n ∧ n ∣ luhnTotal n 0 v + c := by
  obtain ⟨t, ht, hout⟩ := strict_completes
    (out := fun v => [enc (complementMod n (luhnSum n v true))]) hwf (overCapacity_of_le hfits) hv
    (by simp)
  have hsum : luhnSum n v true = luhnTotal n 0 v := luhnSum_eq (spells_lt hdec hv) true
  exact ⟨t, _, ht, hout, complementMod_lt hn, hsum ▸ dvd_add_complementMod hn⟩

/-- The Luhn validate rule tests whether the closed-form sum is a multiple of the modulus (R113, R115). -/
theorem luhnValidate_checks {n : Nat} {dec : Byte → Option Nat} (hdec : ∀ b, ∀ x ∈ dec b, x < n)
    {s : State} {v : List Nat} (hfits : s.ilen.toNat ≤ s.cfg.ibufMax) (hv : spells dec (operand s) v) :
    ∃ t, complete (permissive (overCapacity s)
        (validateWith 1 dec fun v => decide (luhnSum n v false % n = 0)) s) s = .next t ∧
      verdictIs t (1 ≤ s.ilen.toNat ∧ n ∣ luhnTotal n 1 v) := by
  have hsum : luhnSum n v false = luhnTotal n 1 v := luhnSum_eq (spells_lt hdec hv) false
  refine permissive_completes (overCapacity_of_le hfits) hv ?_
  rw [decide_eq_true_iff, hsum, Nat.dvd_iff_mod_eq_zero]

/-- Settles O28: the output is the complement of the sum, for N = 10 and N = 36. -/
theorem luhnComputeCompletesTheSum : Obligations.LuhnComputeCompletesTheSum := fun _ _ hwf hfits =>
  ⟨luhnCompute_completes (by omega) dec10_lt hwf hfits, luhnCompute_completes (by omega) dec36_lt hwf hfits⟩

/-- Settles O29: the rule tests the sum's remainder, for N = 10 and N = 36. -/
theorem luhnValidateChecksTheSum : Obligations.LuhnValidateChecksTheSum := fun _ _ hfits =>
  ⟨luhnValidate_checks dec10_lt hfits, luhnValidate_checks dec36_lt hfits⟩

/-! ### GS1 (R116, R117) -/

/-- A check digit put behind the payload has weight 1 and moves every other digit one place. -/
theorem gs1Total_concat (v : List Nat) (c : Nat) : gs1Total 1 (v ++ [c]) = gs1Total 0 v + c := by
  have hwhole : gs1Total 1 (v ++ [c]) = gs1Loop 1 (v ++ [c]).reverse :=
    (sum_fromRight (fun j x => (if j % 2 = 1 then 3 else 1) * x) _).trans
      (gs1Loop_eq (v ++ [c]).reverse false).symm
  have hloop : gs1Loop 1 (c :: v.reverse) = 1 * c + gs1Loop 3 v.reverse := rfl
  rw [hwhole, List.reverse_concat, hloop, gs1Loop_eq_total]
  omega

/-- Comparing the last digit with the recomputed one tests the sum over all digits (R117). -/
theorem gs1Validate_iff {chars : List Byte} {v : List Nat} (hv : spells dec10 chars v) :
    validateCheckWith dec10 dec10 (fun payload check => decide (check = gs1Check payload)) chars = true ↔
      1 ≤ chars.length ∧ 10 ∣ gs1Total 1 v := by
  rcases List.eq_nil_or_concat' chars with rfl | ⟨payload, b, rfl⟩
  · simp [validateCheckWith]
  · obtain ⟨w, last, rfl, hw, hlast⟩ := spells_append_inv hv
    obtain ⟨c, rest, rfl, hb, hrest⟩ := spells_cons_inv hlast
    obtain rfl : rest = [] := List.length_eq_zero_iff.mp (spells_length hrest)
    rw [validateCheckWith_concat hw hb, decide_eq_true_iff, gs1Check, gs1Loop_eq_total, gs1Total_concat,
      eq_complementMod_iff (dec10_lt b c hb)]
    simp

/-- Settles O30: the output is the complement of the sum, and the last digit equals it exactly when it
completes the sum. -/
theorem gs1SumsAreMultiplesOfTen : Obligations.Gs1SumsAreMultiplesOfTen := by
  intro s v hwf hfits hv
  have hroom := overCapacity_of_le hfits
  constructor
  · obtain ⟨t, ht, hout⟩ := strict_completes (out := fun v => [enc10 (gs1Check v)]) hwf hroom hv (by simp)
    have hlt : gs1Check v < 10 := complementMod_lt (by omega)
    refine ⟨t, _, ht, hout, hlt, (eq_complementMod_iff hlt).mp ?_⟩
    rw [gs1Check, gs1Loop_eq_total]
  · have harm : exec .gs1V s = complete (permissive (overCapacity s) (validateCheckWith dec10 dec10
        fun payload check => decide (check = gs1Check payload)) s) s := rfl
    rw [harm, permissive_eq, hroom]
    refine ⟨_, rfl, verdictIs_completeValid ?_⟩
    rw [Bool.not_false, Bool.true_and, gs1Validate_iff hv, operand_length]

/-! ### WMOD11 (R119 to R122) -/

/-- Left to right the weights meet the payload as written (R119). -/
theorem wmod11Check_left (s : State) {v : List Nat} {k : Nat} (h : v.length ≤ k) :
    wmod11Check false (weights s k) v = weightedLeft s v % 11 :=
  congrArg (· % 11) (weightedSum_left s v h)

/-- Right to left they meet it from its last digit on. -/
theorem wmod11Check_right (s : State) {v : List Nat} {k : Nat} (h : v.length ≤ k) :
    wmod11Check true (weights s k) v = weightedRight s v % 11 :=
  congrArg (· % 11) (weightedSum_right s v h)

/-- WMOD11.C on a payload with enough weights outputs the remainder (R121). -/
theorem wmod11Compute_completes (rightToLeft : Bool) {s : State} {v : List Nat} (hwf : s.cfg.wf)
    (hroom : overWeights s s.ilen.toNat = false) (hv : spells dec10 (operand s) v) :
    ∃ t, complete (wmod11Compute rightToLeft s) s = .next t ∧
      hasOutput t [enc11 (wmod11Check rightToLeft (weights s s.ilen.toNat) v)] :=
  strict_completes (out := fun v => [enc11 (wmod11Check rightToLeft (weights s s.ilen.toNat) v)]) hwf hroom
    hv (by simp)

/-- WMOD11.V with enough weights for the payload compares the remainder (R122). -/
theorem wmod11Validate_compares (rightToLeft : Bool) {s : State} {chars : List Byte} {b : Byte}
    {v : List Nat} {c : Nat} (hroom : overWeights s (s.ilen.toNat - 1) = false)
    (hop : operand s = chars ++ [b]) (hv : spells dec10 chars v) (hb : dec11 b = some c) :
    ∃ t, complete (wmod11Validate rightToLeft s) s = .next t ∧
      verdictIs t (wmod11Check rightToLeft (weights s (s.ilen.toNat - 1)) v = c) :=
  permissive_check_completes hroom hop hv hb decide_eq_true_iff

/-- Settles O31: the rule's remainder is that of the sum over the places. -/
theorem weightedComputeIsTheRemainder : Obligations.WeightedComputeIsTheRemainder := by
  intro s v hwf hfits hwlen hm hv
  have hroom := overWeights_eq_false.mpr ⟨hfits, hwlen, hm⟩
  have hlen : v.length ≤ s.ilen.toNat := by rw [spells_length hv, operand_length]
  rw [← wmod11Check_left s hlen, ← wmod11Check_right s hlen]
  exact ⟨wmod11Compute_completes false hwf hroom hv, wmod11Compute_completes true hwf hroom hv⟩

/-- The payload of a nonempty operand has ILEN - 1 characters. -/
theorem length_payload {s : State} {chars : List Byte} {b : Byte} (hop : operand s = chars ++ [b]) :
    chars.length = s.ilen.toNat - 1 := by
  rw [← operand_length, hop, List.length_append, List.length_singleton, Nat.add_sub_cancel]

/-- Settles O32: the rule compares that remainder with the last character's value. -/
theorem weightedValidateComparesTheRemainder : Obligations.WeightedValidateComparesTheRemainder := by
  intro s chars b v c hfits hwlen hm hop hv hb
  have hroom := overWeights_eq_false.mpr ⟨hfits, hwlen, Nat.sub_le_iff_le_add.mpr hm⟩
  have hlen : v.length ≤ s.ilen.toNat - 1 := by rw [spells_length hv, length_payload hop]
  rw [← wmod11Check_left s hlen, ← wmod11Check_right s hlen]
  exact ⟨wmod11Validate_compares false hroom hop hv hb, wmod11Validate_compares true hroom hop hv hb⟩

/-! ### One check value for a payload, scheme by scheme (R125)

For each scheme but ISO97: the check accepts a payload with last characters of one value only. -/

/-- Two last characters with which the check accepts one payload have the same value. -/
def AcceptsOneValue (decCheck : Byte → Option Nat) (check : List Byte → Bool) : Prop :=
  ∀ chars b b', check (chars ++ [b]) = true → check (chars ++ [b']) = true → decCheck b = decCheck b'

/-- What an accepted operand spells, where its last character is scanned like the payload. -/
theorem validateWith_concat_eq_true {n : Nat} {dec : Byte → Option Nat} {relation : List Nat → Bool}
    {chars : List Byte} {b : Byte} (h : validateWith n dec relation (chars ++ [b]) = true) :
    ∃ v c, spells dec chars v ∧ dec b = some c ∧ relation (v ++ [c]) = true := by
  obtain ⟨-, _, hspells, hrel⟩ := validateWith_eq_true h
  obtain ⟨v, last, rfl, hv, hlast⟩ := spells_append_inv hspells
  obtain ⟨c, rest, rfl, hb, hrest⟩ := spells_cons_inv hlast
  obtain rfl : rest = [] := List.length_eq_zero_iff.mp (spells_length hrest)
  exact ⟨v, c, hv, hb, hrel⟩

/-- What an accepted operand spells, where its last character has a decoder of its own. -/
theorem validateCheckWith_concat_eq_true {dec decCheck : Byte → Option Nat}
    {relation : List Nat → Nat → Bool} {chars : List Byte} {b : Byte}
    (h : validateCheckWith dec decCheck relation (chars ++ [b]) = true) :
    ∃ v c, spells dec chars v ∧ decCheck b = some c ∧ relation v c = true := by
  cases hv : decodeAll dec chars with
  | none => simp [validateCheckWith, decodeWithCheck_concat, hv] at h
  | some v =>
    cases hb : decCheck b with
    | none => simp [validateCheckWith, decodeWithCheck_concat, hb] at h
    | some c =>
      have hspells := decodeAll_eq_some.mp hv
      exact ⟨v, c, hspells, rfl, (validateCheckWith_concat hspells hb).symm.trans h⟩

/-- A scheme whose check character is scanned like the payload accepts one value if its relation does,
for values below the bound of its decoder. -/
theorem acceptsOneValue_validateWith {n N : Nat} {dec : Byte → Option Nat} {relation : List Nat → Bool}
    (hdec : ∀ b, ∀ x ∈ dec b, x < N)
    (h : ∀ v, (∀ x ∈ v, x < N) → ∀ c < N, ∀ c' < N, relation (v ++ [c]) = true →
      relation (v ++ [c']) = true → c = c') :
    AcceptsOneValue dec (validateWith n dec relation) := by
  intro chars b b' hb hb'
  obtain ⟨v, c, hv, hc, hrel⟩ := validateWith_concat_eq_true hb
  obtain ⟨w, c', hw, hc', hrel'⟩ := validateWith_concat_eq_true hb'
  obtain rfl := spells_unique hv hw
  rw [hc, hc', h v (spells_lt hdec hv) c (hdec b c hc) c' (hdec b' c' hc') hrel hrel']

/-- The same for a check character with a decoder of its own. -/
theorem acceptsOneValue_validateCheckWith {N : Nat} {dec decCheck : Byte → Option Nat}
    {relation : List Nat → Nat → Bool} (hdec : ∀ b, ∀ x ∈ decCheck b, x < N)
    (h : ∀ v, ∀ c < N, ∀ c' < N, relation v c = true → relation v c' = true → c = c') :
    AcceptsOneValue decCheck (validateCheckWith dec decCheck relation) := by
  intro chars b b' hb hb'
  obtain ⟨v, c, hv, hc, hrel⟩ := validateCheckWith_concat_eq_true hb
  obtain ⟨w, c', hw, hc', hrel'⟩ := validateCheckWith_concat_eq_true hb'
  obtain rfl := spells_unique hv hw
  rw [hc, hc', h v c (hdec b c hc) c' (hdec b' c' hc') hrel hrel']

/-- The sum with the check value undoubled has one remainder for each value (R113, R115). -/
theorem luhn_acceptsOneValue {n : Nat} {dec : Byte → Option Nat} (hdec : ∀ b, ∀ x ∈ dec b, x < n) :
    AcceptsOneValue dec (validateWith 1 dec fun v => decide (luhnSum n v false % n = 0)) := by
  refine acceptsOneValue_validateWith hdec fun v _ c hc c' hc' h h' => ?_
  rw [decide_eq_true_iff, luhnSum_concat] at h h'
  exact eq_of_add_mod_eq hc hc' h h'

theorem gs1_acceptsOneValue : AcceptsOneValue dec10
    (validateCheckWith dec10 dec10 fun v c => decide (c = gs1Check v)) :=
  acceptsOneValue_validateCheckWith dec10_lt fun _ _ _ _ _ h h' =>
    (of_decide_eq_true h).trans (of_decide_eq_true h').symm

/-- WMOD11 with any weights, in either direction (R122). -/
theorem wmod11_acceptsOneValue (rightToLeft : Bool) (w : List Nat) : AcceptsOneValue dec11
    (validateCheckWith dec10 dec11 fun v c => decide (wmod11Check rightToLeft w v = c)) :=
  acceptsOneValue_validateCheckWith dec11_lt fun _ _ _ _ _ h h' =>
    (of_decide_eq_true h).symm.trans (of_decide_eq_true h')

/-- DAMM_T has its zeros on the diagonal only (42_damm.md R142). -/
theorem eq_of_dammTable_eq_zero : ∀ c < 10, ∀ d < 10, tableEntry dammTable c d = 0 → d = c := by decide

theorem damm_acceptsOneValue :
    AcceptsOneValue dec10 (validateWith 1 dec10 fun v => decide (dammFold v = 0)) := by
  refine acceptsOneValue_validateWith dec10_lt fun v hv c hc c' hc' h h' => ?_
  have hfold := dammFold_lt hv
  rw [decide_eq_true_iff, dammFold, dammLoop_concat] at h h'
  calc c = dammFold v := eq_of_dammTable_eq_zero _ hfold c hc h
    _ = c' := (eq_of_dammTable_eq_zero _ hfold c' hc' h').symm

/-- Left inverses in the dihedral group are unique (43_verhoeff.md R153). -/
theorem eq_verhInv_of_dihedral_eq_zero :
    ∀ b < 10, ∀ c < 10, dihedral c b = 0 → c = verhInv.getD b 0 := by decide

theorem verh_acceptsOneValue :
    AcceptsOneValue dec10 (validateWith 1 dec10 fun v => decide (verhFold v 0 = 0)) := by
  refine acceptsOneValue_validateWith dec10_lt fun v hv c hc c' hc' h h' => ?_
  obtain ⟨hfold, hprod⟩ := verhFold_eq v hv 1
  rw [← hfold] at hprod
  rw [decide_eq_true_iff, verhFold_concat hv hc] at h
  rw [decide_eq_true_iff, verhFold_concat hv hc'] at h'
  calc c = verhInv.getD (verhFold v 1) 0 := eq_verhInv_of_dihedral_eq_zero _ hprod c hc h
    _ = c' := (eq_verhInv_of_dihedral_eq_zero _ hprod c' hc' h').symm

theorem iso1110_acceptsOneValue :
    AcceptsOneValue dec10 (validateWith 1 dec10 fun v => decide (iso1110Run v = 1)) := by
  refine acceptsOneValue_validateWith dec10_lt fun v _ c hc c' hc' h h' => ?_
  rw [decide_eq_true_iff, iso1110Run_concat] at h h'
  exact eq_of_add_mod_eq hc hc' h h'

/-- A check value that enters a congruence with coefficient 1 is unique below the modulus: MOD 11-2 and
both readings of MOD 37-36 (44_iso7064.md R168, R171, 92 D22). -/
theorem congruence_acceptsOneValue {n r : Nat} {dec decCheck : Byte → Option Nat} (run : List Nat → Nat)
    (hdec : ∀ b, ∀ x ∈ decCheck b, x < n) : AcceptsOneValue decCheck
    (validateCheckWith dec decCheck fun v c => decide ((run v + c) % n = r)) :=
  acceptsOneValue_validateCheckWith hdec fun _ _ hc _ hc' h h' =>
    eq_of_add_mod_eq hc hc' (of_decide_eq_true h) (of_decide_eq_true h')

/-- Under HYBRID the check character is read with DEC36, and DEC37 gives it the same value (92 D22). -/
theorem iso3736_acceptsOneValue (variant : Iso3736Variant) :
    AcceptsOneValue dec37 (iso3736Validate variant) := by
  cases variant with
  | pure => exact congruence_acceptsOneValue (fun v => pureRun v 37 36) dec37_lt
  | hybrid =>
    intro chars b b' hb hb'
    have heq : dec36 b = dec36 b' :=
      congruence_acceptsOneValue (hybridLoop 36) dec36_lt chars b b' hb hb'
    obtain ⟨_, c, -, hc, -⟩ := validateCheckWith_concat_eq_true hb
    rw [dec37_of_dec36 hc, dec37_of_dec36 (heq ▸ hc)]

/-! ### From the scheme to the commands (R125) -/

/-- A permissive command that ends as valid had operands that fit and that its rule accepts (R97). -/
theorem accepted_of_valid {s t : State} {tooLong : Bool} {check : List Byte → Bool}
    (hrun : complete (permissive tooLong check s) s = .next t) (hvalid : t.status = 0x06) :
    tooLong = false ∧ check (operand s) = true := by
  obtain ⟨u, hu, -, -, hnot⟩ := complete_permissive (tooLong := tooLong) (rule := check) (s := s)
  obtain rfl : u = t := Host.Outcome.next.inj (hu.symm.trans hrun)
  have hne : ¬ (tooLong = true ∨ check (operand s) = false) := fun h =>
    absurd (hvalid.symm.trans (hnot h)) (by decide)
  simpa using hne

/-- Two valid runs on one payload, of commands whose rules are one check. -/
theorem oneValue_of_valid {s s' t t' : State} {tooLong tooLong' : Bool} {decCheck : Byte → Option Nat}
    {check : List Byte → Bool} {chars : List Byte} {b b' : Byte} (hone : AcceptsOneValue decCheck check)
    (hop : operand s = chars ++ [b]) (hop' : operand s' = chars ++ [b'])
    (hrun : complete (permissive tooLong check s) s = .next t) (hvalid : t.status = 0x06)
    (hrun' : complete (permissive tooLong' check s') s' = .next t') (hvalid' : t'.status = 0x06) :
    decCheck b = decCheck b' := by
  obtain ⟨-, h⟩ := accepted_of_valid hrun hvalid
  obtain ⟨-, h'⟩ := accepted_of_valid hrun' hvalid'
  exact hone chars b b' (hop ▸ h) (hop' ▸ h')

/-- WMOD11.V with the same weights: both payloads have the same length, so both runs use the same first
weights. -/
theorem wmod11_oneValue_of_valid (rightToLeft : Bool) {s s' t t' : State} {chars : List Byte} {b b' : Byte}
    (hw : sameWeights s s') (hop : operand s = chars ++ [b]) (hop' : operand s' = chars ++ [b'])
    (hrun : complete (wmod11Validate rightToLeft s) s = .next t) (hvalid : t.status = 0x06)
    (hrun' : complete (wmod11Validate rightToLeft s') s' = .next t') (hvalid' : t'.status = 0x06) :
    dec11 b = dec11 b' := by
  obtain ⟨hroom, -⟩ := accepted_of_valid hrun hvalid
  obtain ⟨-, hwlen, hm⟩ := overWeights_eq_false.mp hroom
  have hlen : s'.ilen.toNat - 1 = s.ilen.toNat - 1 := by rw [← length_payload hop, ← length_payload hop']
  rw [wmod11Validate, hlen, weights_congr hw hwlen hm] at hrun'
  exact oneValue_of_valid (wmod11_acceptsOneValue rightToLeft (weights s (s.ilen.toNat - 1))) hop hop'
    hrun hvalid hrun' hvalid'

/-- Settles O51: a valid run is one whose rule accepts the operand, and each scheme's check accepts one
value only. -/
theorem atMostOneCheckValue : Obligations.AtMostOneCheckValue := by
  intro i dec decCheck hi hne s s' t t' chars b b' hcfg hweights hop hop' hrun hvalid hrun' hvalid'
  have unweighted {check : List Byte → Bool} (hone : AcceptsOneValue decCheck check)
      (h : complete (permissive (overCapacity s) check s) s = .next t)
      (h' : complete (permissive (overCapacity s') check s') s' = .next t') : decCheck b = decCheck b' :=
    oneValue_of_valid hone hop hop' h hvalid h' hvalid'
  simp only [validateCommands, List.mem_cons, List.not_mem_nil, or_false, Prod.mk.injEq] at hi
  rcases hi with ⟨rfl, rfl, rfl⟩ | ⟨rfl, rfl, rfl⟩ | ⟨rfl, rfl, rfl⟩ | ⟨rfl, rfl, rfl⟩ | ⟨rfl, rfl, rfl⟩ |
    ⟨rfl, rfl, rfl⟩ | ⟨rfl, rfl, rfl⟩ | ⟨rfl, rfl, rfl⟩ | ⟨rfl, rfl, rfl⟩ | ⟨rfl, rfl, rfl⟩ | ⟨rfl, rfl, rfl⟩
  · exact unweighted (luhn_acceptsOneValue dec10_lt) hrun hrun'
  · exact unweighted (luhn_acceptsOneValue dec36_lt) hrun hrun'
  · exact unweighted gs1_acceptsOneValue hrun hrun'
  · exact wmod11_oneValue_of_valid false (hweights (by simp [weightCommands])) hop hop' hrun hvalid hrun'
      hvalid'
  · exact wmod11_oneValue_of_valid true (hweights (by simp [weightCommands])) hop hop' hrun hvalid hrun'
      hvalid'
  · exact unweighted damm_acceptsOneValue hrun hrun'
  · exact unweighted verh_acceptsOneValue hrun hrun'
  · exact absurd rfl hne
  · exact unweighted iso1110_acceptsOneValue hrun hrun'
  · exact unweighted (congruence_acceptsOneValue (fun v => pureRun v 11 2) dec11_lt) hrun hrun'
  · have harm : exec .iso3736V s' =
        complete (permissive (overCapacity s') (iso3736Validate s'.cfg.iso3736) s') s' := rfl
    rw [harm, hcfg] at hrun'
    exact unweighted (iso3736_acceptsOneValue s.cfg.iso3736) hrun hrun'

end Sys2Proof.Machine

/-! PROOFS. 42_damm.md: the table (R141, R142), the commands as the fold over it (R140, R143, R144), and
the errors DAMM.V detects (R145), with the frame of such a detection law for any `.V` rule. -/

namespace Sys2Proof.Machine

/-! ### The Damm table (R141, R142) -/

/-- Every row and every column holds every digit, so neither repeats one. -/
theorem dammEntry_permutes :
    ∀ c < 10, ∀ z < 10, (∃ x < 10, dammEntry c x = z) ∧ (∃ x < 10, dammEntry x c = z) := by
  decide +kernel

theorem dammEntry_row_injective :
    ∀ c < 10, ∀ x < 10, ∀ y < 10, dammEntry c x = dammEntry c y → x = y := by decide +kernel

theorem dammEntry_column_injective :
    ∀ x < 10, ∀ c < 10, ∀ c' < 10, dammEntry c x = dammEntry c' x → c = c' := by decide +kernel

theorem dammEntry_eq_zero_iff : ∀ c < 10, ∀ x < 10, dammEntry c x = 0 ↔ x = c := by decide +kernel

/-- Weak total anti-symmetry. -/
theorem dammEntry_antisymmetric : ∀ c < 10, ∀ x < 10, ∀ y < 10,
    dammEntry (dammEntry c x) y = dammEntry (dammEntry c y) x → x = y := by decide +kernel

theorem dammEntry_lt {c x : Nat} (hc : c < 10) (hx : x < 10) : dammEntry c x < 10 :=
  (dammTable_eq c hc x hx).2

/-- Settles O33: the two listings agree, the properties hold of the second, and the four pairs are equal
entries across the diagonal. -/
theorem dammTableProperties : Obligations.DammTableProperties :=
  ⟨fun c hc d hd => (dammTable_eq c hc d hd).1, dammEntry_permutes, dammEntry_eq_zero_iff,
    dammEntry_antisymmetric, by decide⟩

/-! ### The fold (R140) -/

/-- On digits the loop of the commands is the fold over the second listing. -/
theorem dammFold_eq {v : List Nat} (h : ∀ x ∈ v, x < 10) : dammFold v = dammOf v :=
  (dammLoop_eq v h 0 (by omega)).1

theorem dammOf_lt {v : List Nat} (h : ∀ x ∈ v, x < 10) : dammOf v < 10 :=
  (dammLoop_eq v h 0 (by omega)).2

theorem dammOf_append (v w : List Nat) : dammOf (v ++ w) = w.foldl dammEntry (dammOf v) :=
  List.foldl_append

/-- A digit behind the payload folds to 0 exactly when it is the payload's accumulator (R143). -/
theorem dammOf_concat_eq_zero_iff {v : List Nat} (h : ∀ x ∈ v, x < 10) {d : Nat} (hd : d < 10) :
    dammOf (v ++ [d]) = 0 ↔ d = dammOf v := by
  rw [dammOf_append]
  exact dammEntry_eq_zero_iff _ (dammOf_lt h) d hd

/-- Different accumulators stay different under the same digits. -/
theorem foldl_dammEntry_injective {w : List Nat} (h : ∀ x ∈ w, x < 10) {c c' : Nat} (hc : c < 10)
    (hc' : c' < 10) (heq : w.foldl dammEntry c = w.foldl dammEntry c') : c = c' := by
  induction w generalizing c c' with
  | nil => exact heq
  | cons x w ih =>
    obtain ⟨hx, hw⟩ := List.forall_mem_cons.mp h
    have hstep : dammEntry c x = dammEntry c' x :=
      ih hw (dammEntry_lt hc hx) (dammEntry_lt hc' hx) heq
    exact dammEntry_column_injective x hx c hc c' hc' hstep

/-- Settles O34: the output is the fold, and a digit equal to the accumulator stands on the diagonal. -/
theorem dammComputeIsTheFold : Obligations.DammComputeIsTheFold := by
  intro s v hwf hfits hv
  have hdigits := spells_dec10_lt hv
  obtain ⟨t, ht, hout⟩ := strict_completes (out := fun v => [enc10 (dammFold v)]) hwf
    (overCapacity_of_le hfits) hv (by simp)
  have hlt := dammOf_lt hdigits
  exact ⟨t, ht, dammFold_eq hdigits ▸ hout, hlt, (dammOf_concat_eq_zero_iff hdigits hlt).mpr rfl⟩

/-- Settles O35: the rule tests the fold. -/
theorem dammValidateFoldsToZero : Obligations.DammValidateFoldsToZero := by
  intro s v hfits hv
  refine permissive_completes (overCapacity_of_le hfits) hv ?_
  rw [decide_eq_true_iff, dammFold_eq (spells_dec10_lt hv)]

/-! ### Error detection by a `.V` rule -/

/-- A check accepts no two operands that differ in exactly one character, and none with two different
neighbours swapped. -/
structure DetectsErrors (check : List Byte → Bool) : Prop where
  single : ∀ pre post a b, check (pre ++ a :: post) = true → check (pre ++ b :: post) = true → a = b
  swap : ∀ pre post a b, check (pre ++ a :: b :: post) = true → check (pre ++ b :: a :: post) = true →
    a = b

/-- What an accepted operand spells around one of its characters. -/
theorem validateWith_split_eq_true {n : Nat} {dec : Byte → Option Nat} {relation : List Nat → Bool}
    {pre post : List Byte} {a : Byte} (h : validateWith n dec relation (pre ++ a :: post) = true) :
    ∃ v x w, spells dec pre v ∧ dec a = some x ∧ spells dec post w ∧
      spells dec (pre ++ a :: post) (v ++ x :: w) ∧ relation (v ++ x :: w) = true := by
  obtain ⟨-, _, hspells, hrel⟩ := validateWith_eq_true h
  obtain ⟨v, rest, rfl, hv, hrest⟩ := spells_append_inv hspells
  obtain ⟨x, w, rfl, hx, hw⟩ := spells_cons_inv hrest
  exact ⟨v, x, w, hv, hx, hw, hspells, hrel⟩

/-- A rule detects the errors of R145 if its decoder gives different characters different values and its
relation holds of no two value lists that differ so. -/
theorem detectsErrors_validateWith {n N : Nat} {dec : Byte → Option Nat} {relation : List Nat → Bool}
    (hdec : ∀ b, ∀ x ∈ dec b, x < N) (hinj : ∀ {a b x}, dec a = some x → dec b = some x → a = b)
    (hsingle : ∀ v w x y, (∀ d ∈ v ++ x :: w, d < N) → (∀ d ∈ v ++ y :: w, d < N) →
      relation (v ++ x :: w) = true → relation (v ++ y :: w) = true → x = y)
    (hswap : ∀ v w x y, (∀ d ∈ v ++ x :: y :: w, d < N) → (∀ d ∈ v ++ y :: x :: w, d < N) →
      relation (v ++ x :: y :: w) = true → relation (v ++ y :: x :: w) = true → x = y) :
    DetectsErrors (validateWith n dec relation) where
  single pre post a b h h' := by
    obtain ⟨v, x, w, hv, hx, hw, hspells, hrel⟩ := validateWith_split_eq_true h
    obtain ⟨v', y, w', hv', hy, hw', hspells', hrel'⟩ := validateWith_split_eq_true h'
    obtain rfl := spells_unique hv hv'
    obtain rfl := spells_unique hw hw'
    obtain rfl := hsingle v w x y (spells_lt hdec hspells) (spells_lt hdec hspells') hrel hrel'
    exact hinj hx hy
  swap pre post a b h h' := by
    obtain ⟨v, x, _, hv, hx, hrest, hspells, hrel⟩ := validateWith_split_eq_true h
    obtain ⟨v', y, _, hv', hy, hrest', hspells', hrel'⟩ := validateWith_split_eq_true h'
    obtain ⟨y', w, rfl, hy', hw⟩ := spells_cons_inv hrest
    obtain ⟨x', w', rfl, hx', hw'⟩ := spells_cons_inv hrest'
    obtain rfl := spells_unique hv hv'
    obtain rfl := spells_unique hw hw'
    obtain rfl : y = y' := Option.some_injective _ (hy.symm.trans hy')
    obtain rfl : x = x' := Option.some_injective _ (hx.symm.trans hx')
    obtain rfl := hswap v w x y (spells_lt hdec hspells) (spells_lt hdec hspells') hrel hrel'
    exact hinj hx hy

/-- After a valid run, an operand that the rule does not accept together with the first one is "not
valid", whether it fits or not (R97). -/
theorem notValid_of_valid {s s' t : State} {tooLong tooLong' : Bool} {check : List Byte → Bool}
    (hrun : complete (permissive tooLong check s) s = .next t) (hvalid : t.status = 0x06)
    (h : check (operand s) = true → check (operand s') ≠ true) :
    ∃ t', complete (permissive tooLong' check s') s' = .next t' ∧ t'.status = 0x02 := by
  obtain ⟨-, haccept⟩ := accepted_of_valid hrun hvalid
  obtain ⟨t', ht', -, -, hnot⟩ := complete_permissive
  exact ⟨t', ht', hnot (.inr (Bool.eq_false_iff.mpr (h haccept)))⟩

/-- From the check to the command: the two laws of R145 for a rule that detects errors. -/
theorem DetectsErrors.notValid {check : List Byte → Bool} (hdetects : DetectsErrors check)
    {s s' t : State} {tooLong tooLong' : Bool} {pre post : List Byte} {a b : Byte} (hne : a ≠ b)
    (hrun : complete (permissive tooLong check s) s = .next t) (hvalid : t.status = 0x06) :
    (operand s = pre ++ a :: post → operand s' = pre ++ b :: post →
      ∃ t', complete (permissive tooLong' check s') s' = .next t' ∧ t'.status = 0x02) ∧
    (operand s = pre ++ a :: b :: post → operand s' = pre ++ b :: a :: post →
      ∃ t', complete (permissive tooLong' check s') s' = .next t' ∧ t'.status = 0x02) :=
  ⟨fun hop hop' => notValid_of_valid hrun hvalid fun h h' =>
      hne (hdetects.single pre post a b (hop ▸ h) (hop' ▸ h')),
    fun hop hop' => notValid_of_valid hrun hvalid fun h h' =>
      hne (hdetects.swap pre post a b (hop ▸ h) (hop' ▸ h'))⟩

/-- Different characters have different digits (R71). -/
theorem dec10_injective {a b : Byte} {x : Nat} (ha : dec10 a = some x) (hb : dec10 b = some x) : a = b :=
  (enc10_of_dec10 ha).2.symm.trans (enc10_of_dec10 hb).2

/-! ### DAMM.V (R145) -/

/-- Two digits after the same payload that fold to 0 with the same rest are equal: the rest keeps the
accumulators apart, and a row of the table has each digit once. -/
theorem eq_of_dammOf_single {v w : List Nat} {x y : Nat} (hdigits : ∀ d ∈ v ++ x :: w, d < 10)
    (hdigits' : ∀ d ∈ v ++ y :: w, d < 10) (h : dammOf (v ++ x :: w) = 0)
    (h' : dammOf (v ++ y :: w) = 0) : x = y := by
  obtain ⟨hv, hxw⟩ := List.forall_mem_append.mp hdigits
  obtain ⟨hx, hw⟩ := List.forall_mem_cons.mp hxw
  have hy : y < 10 := hdigits' y (by simp)
  have hc := dammOf_lt hv
  rw [dammOf_append] at h h'
  have hstep : dammEntry (dammOf v) x = dammEntry (dammOf v) y :=
    foldl_dammEntry_injective hw (dammEntry_lt hc hx) (dammEntry_lt hc hy) (h.trans h'.symm)
  exact dammEntry_row_injective _ hc x hx y hy hstep

/-- Two neighbours that fold to 0 in either order are equal: the rest keeps the accumulators apart, and
the table is weakly totally anti-symmetric. -/
theorem eq_of_dammOf_swap {v w : List Nat} {x y : Nat} (hdigits : ∀ d ∈ v ++ x :: y :: w, d < 10)
    (h : dammOf (v ++ x :: y :: w) = 0) (h' : dammOf (v ++ y :: x :: w) = 0) : x = y := by
  obtain ⟨hv, hxyw⟩ := List.forall_mem_append.mp hdigits
  obtain ⟨hx, hyw⟩ := List.forall_mem_cons.mp hxyw
  obtain ⟨hy, hw⟩ := List.forall_mem_cons.mp hyw
  have hc := dammOf_lt hv
  rw [dammOf_append] at h h'
  have hsteps : dammEntry (dammEntry (dammOf v) x) y = dammEntry (dammEntry (dammOf v) y) x :=
    foldl_dammEntry_injective hw (dammEntry_lt (dammEntry_lt hc hx) hy)
      (dammEntry_lt (dammEntry_lt hc hy) hx) (h.trans h'.symm)
  exact dammEntry_antisymmetric _ hc x hx y hy hsteps

theorem damm_detectsErrors :
    DetectsErrors (validateWith 1 dec10 fun v => decide (dammFold v = 0)) := by
  have foldsToZero {v : List Nat} (hv : ∀ d ∈ v, d < 10) (h : decide (dammFold v = 0) = true) :
      dammOf v = 0 := (dammFold_eq hv).symm.trans (of_decide_eq_true h)
  exact detectsErrors_validateWith dec10_lt dec10_injective
    (fun _ _ _ _ hv hv' h h' =>
      eq_of_dammOf_single hv hv' (foldsToZero hv h) (foldsToZero hv' h'))
    fun _ _ _ _ hv hv' h h' =>
      eq_of_dammOf_swap hv (foldsToZero hv h) (foldsToZero hv' h')

/-- Settles O36: DAMM.V is the permissive frame around a rule that detects both kinds of error. -/
theorem dammDetectsErrors : Obligations.DammDetectsErrors :=
  fun _ _ _ _ _ _ _ hne hrun hvalid => damm_detectsErrors.notValid hne hrun hvalid

end Sys2Proof.Machine

/-! PROOFS. 43_verhoeff.md: the tables (R151 to R153), the commands as the product in the dihedral group
(R150, R154 to R156), and the errors VERH.V detects (R157). -/

namespace Sys2Proof.Machine

/-! ### The dihedral group (R151, R153) -/

theorem dihedral_lt {a b : Nat} (ha : a < 10) (hb : b < 10) : dihedral a b < 10 := (verhD_eq a ha b hb).2

theorem dihedral_left_cancel :
    ∀ c < 10, ∀ a < 10, ∀ b < 10, dihedral c a = dihedral c b → a = b := by decide +kernel

theorem dihedral_right_cancel :
    ∀ c < 10, ∀ a < 10, ∀ b < 10, dihedral a c = dihedral b c → a = b := by decide +kernel

/-- VERH_INV lists the right inverses too. -/
theorem verhInv_right : ∀ a < 10, dihedral a (verhInv.getD a 0) = 0 := by decide

/-! ### The permutation (R152) -/

theorem verhStep_period : ∀ x < 10, verhStep^[8] x = x := by decide

theorem verhStep_iterate_lt (k : Nat) {x : Nat} (hx : x < 10) : verhStep^[k % 8] x < 10 :=
  (verhP_eq (k % 8) (Nat.mod_lt k (by omega)) x hx).2

/-- The row of the next place is one more application, around the end of the table too. -/
theorem verhStep_iterate_succ_mod (k : Nat) {x : Nat} (hx : x < 10) :
    verhStep^[(k + 1) % 8] x = verhStep (verhStep^[k % 8] x) := by
  have hperiod : Function.IsPeriodicPt verhStep 8 x := verhStep_period x hx
  rw [hperiod.iterate_mod_apply, hperiod.iterate_mod_apply, Function.iterate_succ_apply']

/-- Each row of the table holds each digit once: the rest of the period undoes it. -/
theorem verhStep_iterate_injective (k : Nat) {x y : Nat} (hx : x < 10) (hy : y < 10)
    (h : verhStep^[k % 8] x = verhStep^[k % 8] y) : x = y := by
  have hsplit : 8 = (8 - k % 8) + k % 8 := by omega
  rw [← verhStep_period x hx, ← verhStep_period y hy, hsplit, Function.iterate_add_apply, h,
    ← Function.iterate_add_apply]

/-- Settles O37: the listed tables are the closed forms. -/
theorem verhoeffTableProperties : Obligations.VerhoeffTableProperties := by
  refine ⟨fun a ha b hb => (verhD_eq a ha b hb).1, fun r hr x hx => (verhP_eq r hr x hx).1,
    verhStep_period, fun x hx => ?_⟩
  obtain ⟨hinv, hleft⟩ := verhInv_left x hx
  exact ⟨(verhD_eq x hx _ hinv).1.trans (verhInv_right x hx), (verhD_eq _ hinv x hx).1.trans hleft⟩

/-! ### The product (R156) -/

theorem verhFrom_lt {l : List Nat} (h : ∀ x ∈ l, x < 10) (off : Nat) {c : Nat} (hc : c < 10) :
    verhFrom l off c < 10 := (verhLoop_eq l h c off hc).2

theorem verhProduct_lt {v : List Nat} (h : ∀ x ∈ v, x < 10) (off : Nat) : verhProduct v off < 10 :=
  (verhFold_eq v h off).2

theorem verhFrom_append (l m : List Nat) (off c : Nat) :
    verhFrom (l ++ m) off c = verhFrom m (off + l.length) (verhFrom l off c) := by
  induction l generalizing off c with
  | nil => rfl
  | cons x l ih =>
    rw [List.cons_append, verhFrom_cons, ih, ← verhFrom_cons, List.length_cons, Nat.add_right_comm,
      Nat.add_assoc]

/-- The digits in front go on from the product of those behind, which stand farther right. -/
theorem verhProduct_append (v w : List Nat) (off : Nat) :
    verhProduct (v ++ w) off = verhFrom v.reverse (off + w.length) (verhProduct w off) := by
  rw [verhProduct_eq, verhProduct_eq, List.reverse_append, verhFrom_append, List.length_reverse]

theorem verhProduct_cons (x : Nat) (w : List Nat) (off : Nat) :
    verhProduct (x :: w) off = dihedral (verhProduct w off) (verhStep^[(off + w.length) % 8] x) :=
  (verhProduct_append [x] w off).trans (verhFrom_cons x [] _ _)

/-- Different products stay different under the same digits in front. -/
theorem verhProduct_append_injective {v w w' : List Nat} (hv : ∀ x ∈ v, x < 10) (hw : ∀ x ∈ w, x < 10)
    (hw' : ∀ x ∈ w', x < 10) (hlen : w.length = w'.length) {off : Nat}
    (h : verhProduct (v ++ w) off = verhProduct (v ++ w') off) : verhProduct w off = verhProduct w' off := by
  have hrev : ∀ x ∈ v.reverse, x < 10 := fun x hx => hv x (List.mem_reverse.mp hx)
  have hlt := verhProduct_lt hw off
  have hlt' := verhProduct_lt hw' off
  rw [verhProduct_append, verhProduct_append, hlen, verhFrom_eq_dihedral hrev hlt,
    verhFrom_eq_dihedral hrev hlt'] at h
  exact dihedral_right_cancel _ (verhFrom_lt hrev _ (by omega)) _ hlt _ hlt' h

/-! ### The commands (R154, R155) -/

/-- Settles O38: the output is the inverse of the payload's product, and a digit behind the payload
multiplies that product from the left. -/
theorem verhoeffComputeInvertsTheProduct : Obligations.VerhoeffComputeInvertsTheProduct := by
  intro s v hwf hfits hv
  have hdigits := spells_dec10_lt hv
  obtain ⟨t, ht, hout⟩ := strict_completes
    (out := fun v => [enc10 (verhInv.getD (verhFold v 1) 0)]) hwf (overCapacity_of_le hfits) hv (by simp)
  obtain ⟨hfold, hlt⟩ := verhFold_eq v hdigits 1
  obtain ⟨hinv, hleft⟩ := verhInv_left _ hlt
  rw [hfold] at hout
  refine ⟨t, _, ht, hout, hinv, verhInv_right _ hlt, ?_⟩
  have hwhole : ∀ x ∈ v ++ [verhInv.getD (verhProduct v 1) 0], x < 10 :=
    List.forall_mem_append.mpr ⟨hdigits, List.forall_mem_singleton.mpr hinv⟩
  rw [← (verhFold_eq _ hwhole 0).1, verhFold_concat hdigits hinv, hfold, hleft]

/-- Settles O39: the rule tests the product. -/
theorem verhoeffValidateProductIsIdentity : Obligations.VerhoeffValidateProductIsIdentity := by
  intro s v hfits hv
  refine permissive_completes (overCapacity_of_le hfits) hv ?_
  rw [decide_eq_true_iff, (verhFold_eq v (spells_dec10_lt hv) 0).1]

/-! ### VERH.V (R157) -/

/-- The law of one application, from which every row has its own. -/
theorem dihedral_verhStep_antisymmetric :
    ∀ x < 10, ∀ y < 10, dihedral y (verhStep x) = dihedral x (verhStep y) → x = y := by decide

/-- Two digits at neighbouring places give different products in the two orders. The accumulator cancels,
and the two places differ by one application. -/
theorem dihedral_places_antisymmetric {c : Nat} (hc : c < 10) (k : Nat) {x y : Nat} (hx : x < 10)
    (hy : y < 10) (h : dihedral (dihedral c (verhStep^[k % 8] y)) (verhStep^[(k + 1) % 8] x) =
      dihedral (dihedral c (verhStep^[k % 8] x)) (verhStep^[(k + 1) % 8] y)) : x = y := by
  have hx₀ := verhStep_iterate_lt k hx
  have hy₀ := verhStep_iterate_lt k hy
  have hx₁ := verhStep_iterate_lt (k + 1) hx
  have hy₁ := verhStep_iterate_lt (k + 1) hy
  rw [dihedral_assoc c hc _ hy₀ _ hx₁, dihedral_assoc c hc _ hx₀ _ hy₁] at h
  have hpair := dihedral_left_cancel c hc _ (dihedral_lt hy₀ hx₁) _ (dihedral_lt hx₀ hy₁) h
  rw [verhStep_iterate_succ_mod k hx, verhStep_iterate_succ_mod k hy] at hpair
  exact verhStep_iterate_injective k hx hy (dihedral_verhStep_antisymmetric _ hx₀ _ hy₀ hpair)

/-- One turn of the loop of R150 in closed form. -/
theorem tableEntry_verhD_verhP {c r x : Nat} (hc : c < 10) (hr : r < 8) (hx : x < 10) :
    tableEntry verhD c (tableEntry verhP r x) = dihedral c (verhStep^[r] x) := by
  obtain ⟨hplace, hlt⟩ := verhP_eq r hr x hx
  rw [hplace, (verhD_eq c hc _ hlt).1]

/-- The table law of R157, of the tables as they are listed. -/
theorem verhTables_antisymmetric {c r a b : Nat} (hc : c < 10) (hr : r < 8) (ha : a < 10) (hb : b < 10)
    (h : tableEntry verhD (tableEntry verhD c (tableEntry verhP r b)) (tableEntry verhP ((r + 1) % 8) a) =
      tableEntry verhD (tableEntry verhD c (tableEntry verhP r a)) (tableEntry verhP ((r + 1) % 8) b)) :
    a = b := by
  have hr' : (r + 1) % 8 < 8 := Nat.mod_lt _ (by omega)
  obtain ⟨-, hpa⟩ := verhP_eq r hr a ha
  obtain ⟨-, hpb⟩ := verhP_eq r hr b hb
  rw [tableEntry_verhD_verhP hc hr ha, tableEntry_verhD_verhP hc hr hb,
    tableEntry_verhD_verhP (dihedral_lt hc hpb) hr' ha,
    tableEntry_verhD_verhP (dihedral_lt hc hpa) hr' hb] at h
  refine dihedral_places_antisymmetric hc r ha hb ?_
  rwa [Nat.mod_eq_of_lt hr]

/-- Two digits behind the same payload that give the identity with the same rest are equal: the payload
keeps the accumulators apart, the group cancels, and a row of the table has each digit once. -/
theorem eq_of_verhProduct_single {v w : List Nat} {x y : Nat} (hdigits : ∀ d ∈ v ++ x :: w, d < 10)
    (hdigits' : ∀ d ∈ v ++ y :: w, d < 10) (h : verhProduct (v ++ x :: w) 0 = 0)
    (h' : verhProduct (v ++ y :: w) 0 = 0) : x = y := by
  obtain ⟨hv, hxw⟩ := List.forall_mem_append.mp hdigits
  obtain ⟨hx, hw⟩ := List.forall_mem_cons.mp hxw
  obtain ⟨-, hyw⟩ := List.forall_mem_append.mp hdigits'
  have hy : y < 10 := hyw y (by simp)
  have hstep : verhProduct (x :: w) 0 = verhProduct (y :: w) 0 :=
    verhProduct_append_injective hv hxw hyw rfl (h.trans h'.symm)
  rw [verhProduct_cons, verhProduct_cons] at hstep
  exact verhStep_iterate_injective _ hx hy (dihedral_left_cancel _ (verhProduct_lt hw 0) _
    (verhStep_iterate_lt _ hx) _ (verhStep_iterate_lt _ hy) hstep)

/-- Two neighbours that give the identity in either order are equal: the payload keeps the accumulators
apart, and the places are anti-symmetric. -/
theorem eq_of_verhProduct_swap {v w : List Nat} {x y : Nat} (hdigits : ∀ d ∈ v ++ x :: y :: w, d < 10)
    (hdigits' : ∀ d ∈ v ++ y :: x :: w, d < 10) (h : verhProduct (v ++ x :: y :: w) 0 = 0)
    (h' : verhProduct (v ++ y :: x :: w) 0 = 0) : x = y := by
  obtain ⟨hv, hxyw⟩ := List.forall_mem_append.mp hdigits
  obtain ⟨hx, hyw⟩ := List.forall_mem_cons.mp hxyw
  obtain ⟨hy, hw⟩ := List.forall_mem_cons.mp hyw
  obtain ⟨-, hyxw⟩ := List.forall_mem_append.mp hdigits'
  have hsteps : verhProduct (x :: y :: w) 0 = verhProduct (y :: x :: w) 0 :=
    verhProduct_append_injective hv hxyw hyxw rfl (h.trans h'.symm)
  simp only [verhProduct_cons] at hsteps
  exact dihedral_places_antisymmetric (verhProduct_lt hw 0) (0 + w.length) hx hy hsteps

theorem verh_detectsErrors :
    DetectsErrors (validateWith 1 dec10 fun v => decide (verhFold v 0 = 0)) := by
  have isIdentity {v : List Nat} (hv : ∀ d ∈ v, d < 10) (h : decide (verhFold v 0 = 0) = true) :
      verhProduct v 0 = 0 := (verhFold_eq v hv 0).1.symm.trans (of_decide_eq_true h)
  exact detectsErrors_validateWith dec10_lt dec10_injective
    (fun _ _ _ _ hv hv' h h' =>
      eq_of_verhProduct_single hv hv' (isIdentity hv h) (isIdentity hv' h'))
    fun _ _ _ _ hv hv' h h' =>
      eq_of_verhProduct_swap hv hv' (isIdentity hv h) (isIdentity hv' h')

/-- Settles O40: the table law, and VERH.V is the permissive frame around a rule that detects both kinds
of error. -/
theorem verhoeffDetectsErrors : Obligations.VerhoeffDetectsErrors :=
  ⟨fun _ hc _ hr _ ha _ hb hne h => hne (verhTables_antisymmetric hc hr ha hb h),
    fun _ _ _ _ _ _ _ hne hrun hvalid => verh_detectsErrors.notValid hne hrun hvalid⟩

end Sys2Proof.Machine

/-! PROOFS. 44_iso7064.md: MOD 97-10 and the check pairs it accepts (R161 to R163), MOD 11-10 (R164 to
R166), and the two pure systems, MOD 11-2 (R167 to R169) and MOD 37-36 as PURE (R170 to R172). -/

namespace Sys2Proof.Machine

/-! ### MOD 97-10 (R161 to R163) -/

/-- From the seed 0 the running remainder is the remainder of the number. -/
theorem mod97Loop_zero (v : List Nat) : mod97Loop 0 v = decimal v % 97 := by
  rw [mod97Loop_eq, zero_mul, zero_add]
  split
  · subst v
    rfl
  · rfl

/-- The two zero check positions multiply the payload's number by 100 (R161). -/
theorem iso97Check_eq (v : List Nat) : iso97Check v = 98 - 100 * decimal v % 97 := by
  rw [iso97Check, mod97Loop_zero, decimal_append_two, mul_zero, add_zero, add_zero]

theorem exec_iso97C {s : State} {v : List Nat} (hwf : s.cfg.wf) (hfits : s.ilen.toNat ≤ s.cfg.ibufMax)
    (hv : spells dec10 (operand s) v) :
    ∃ t, exec .iso97C s = .next t ∧ hasOutput t [enc10 (iso97Check v / 10), enc10 (iso97Check v % 10)] :=
  strict_completes (out := fun v => [enc10 (iso97Check v / 10), enc10 (iso97Check v % 10)]) hwf
    (overCapacity_of_le hfits) hv (by simp)

/-- Settles O41: the check value is 98 minus the remainder of the payload's number moved two places. -/
theorem iso97ComputeMakesRemainderOne : Obligations.Iso97ComputeMakesRemainderOne := by
  intro s v hwf hfits hv
  obtain ⟨t, ht, hout⟩ := exec_iso97C hwf hfits hv
  have hcheck := iso97Check_eq v
  exact ⟨t, _, ht, hout, by omega, by omega, by omega⟩

/-- Settles O42: the rule tests the remainder of the number. -/
theorem iso97ValidateRemainderIsOne : Obligations.Iso97ValidateRemainderIsOne := by
  intro s v hfits hv
  refine permissive_completes (overCapacity_of_le hfits) hv ?_
  rw [decide_eq_true_iff, mod97Loop_zero]

/-- A value of two digits makes the remainder 1 exactly when it is the check value or stands 97 away
from it (R163). -/
theorem iso97_pair_iff (v : List Nat) {pair : Nat} (h : pair < 100) :
    (100 * decimal v + pair) % 97 = 1 ↔ pair = iso97Check v ∨ (iso97Check v = 97 ∧ pair = 0) ∨
      (iso97Check v = 98 ∧ pair = 1) ∨ (iso97Check v = 2 ∧ pair = 99) := by
  rw [iso97Check_eq]
  omega

/-- Settles O43: the operand of ISO97.V spells the payload and the pair, so its verdict is the remainder
of the payload's number moved two places plus the pair's value. -/
theorem iso97AcceptedPairs : Obligations.Iso97AcceptedPairs := by
  intro s v hwf hfits hv
  obtain ⟨t, ht, hout⟩ := exec_iso97C hwf hfits hv
  have hcheck := iso97Check_eq v
  refine ⟨t, _, ht, hout, by omega, fun s' a b ha hb hfits' hop => ?_⟩
  have hpair : spells dec10 [enc10 a, enc10 b] [a, b] :=
    spells_append (spells_singleton (dec10_enc10 ha)) (spells_singleton (dec10_enc10 hb))
  have hlong : 2 ≤ s'.ilen.toNat := by
    rw [← operand_length, hop, List.length_append]
    exact Nat.le_add_left 2 _
  obtain ⟨t', ht', hverdict⟩ :=
    iso97ValidateRemainderIsOne s' (v ++ [a, b]) hfits' (hop ▸ spells_append hv hpair)
  rw [decimal_append_two, iso97_pair_iff v (by omega), and_iff_right hlong] at hverdict
  exact ⟨t', ht', hverdict⟩

/-! ### MOD 11-10 (R164 to R166) -/

theorem iso1110Run_eq (v : List Nat) : iso1110Run v = v.foldl iso1110Next 5 := iso1110Loop_eq v 5

/-- Settles O44: the derived digit takes the last step of the recurrence to 1, and the validate rule
tests where the recurrence ends. -/
theorem iso1110RecurrenceEndsAtOne : Obligations.Iso1110RecurrenceEndsAtOne := by
  intro s v hwf hfits hv
  have hroom := overCapacity_of_le hfits
  constructor
  · obtain ⟨t, ht, hout⟩ := strict_completes (out := fun v => [enc10 (iso1110Check v)]) hwf hroom hv
      (by simp)
    obtain ⟨hlt, hone⟩ := iso1110Check_solves v
    refine ⟨t, _, ht, hout, hlt, ?_⟩
    rw [← iso1110Run_eq, iso1110Run_concat, hone]
  · refine permissive_completes hroom hv ?_
    rw [decide_eq_true_iff, iso1110Run_eq]

/-! ### The pure systems: MOD 11-2 and MOD 37-36 as PURE (R167 to R172)

Both are one scheme, with the check values 0 to `n` and the modulus `n + 1`. -/

/-- The check value of a pure system solves the congruence (R167, R170). -/
theorem pureCheck_solves {n : Nat} (hn : 0 < n) (radix : Nat) (v : List Nat) :
    (pureTotal radix v + (n + 2 - pureRun v (n + 1) radix) % (n + 1)) % (n + 1) = 1 := by
  have hrun : pureRun v (n + 1) radix = pureTotal radix v % (n + 1) := pureRun_eq v (by omega)
  have hlt : pureRun v (n + 1) radix < n + 1 := pureRun_lt v (by omega)
  have hsum : pureRun v (n + 1) radix + (n + 2 - pureRun v (n + 1) radix) = 1 + (n + 1) := by omega
  rw [Nat.add_mod_mod, ← Nat.mod_add_mod, ← hrun, hsum, Nat.add_mod_right, Nat.mod_eq_of_lt (by omega)]

/-- The compute command of a pure system outputs a check value that solves the congruence (R167, R170). -/
theorem pureCompute_completes {n : Nat} (hn : 0 < n) (radix : Nat) {dec : Byte → Option Nat}
    (enc : Nat → Byte) {s : State} {v : List Nat} (hwf : s.cfg.wf)
    (hfits : s.ilen.toNat ≤ s.cfg.ibufMax) (hv : spells dec (operand s) v) :
    ∃ t c, complete (strict (overCapacity s)
        (computeWith dec fun v => [enc ((n + 2 - pureRun v (n + 1) radix) % (n + 1))]) s) s = .next t ∧
      hasOutput t [enc c] ∧ c ≤ n ∧ (pureTotal radix v + c) % (n + 1) = 1 := by
  obtain ⟨t, ht, hout⟩ := strict_completes
    (out := fun v => [enc ((n + 2 - pureRun v (n + 1) radix) % (n + 1))]) hwf (overCapacity_of_le hfits) hv
    (by simp)
  exact ⟨t, _, ht, hout, Nat.lt_succ_iff.mp (Nat.mod_lt _ n.succ_pos), pureCheck_solves hn radix v⟩

/-- The validate command of a pure system tests the congruence with the last character's value added to
the payload's sum (R168, R171). -/
theorem pureValidate_checks {m : Nat} (hm : 0 < m) (radix : Nat) {dec decCheck : Byte → Option Nat}
    {s : State} {chars : List Byte} {b : Byte} {v : List Nat} {c : Nat}
    (hfits : s.ilen.toNat ≤ s.cfg.ibufMax) (hop : operand s = chars ++ [b]) (hv : spells dec chars v)
    (hb : decCheck b = some c) :
    ∃ t, complete (permissive (overCapacity s)
        (validateCheckWith dec decCheck fun v c => decide ((pureRun v m radix + c) % m = 1)) s) s = .next t ∧
      verdictIs t ((pureTotal radix v + c) % m = 1) := by
  refine permissive_check_completes (overCapacity_of_le hfits) hop hv hb ?_
  rw [decide_eq_true_iff, pureRun_eq v hm, Nat.mod_add_mod]

/-- Settles O45: MOD 11-2 is the pure system of radix 2 with the check values 0 to 10. -/
theorem iso112ComputeSolvesTheCongruence : Obligations.Iso112ComputeSolvesTheCongruence :=
  fun _ _ hwf hfits hv => pureCompute_completes (n := 10) (by omega) 2 enc11 hwf hfits hv

/-- Settles O46: the same system, the last character read with DEC11. -/
theorem iso112ValidateChecksTheCongruence : Obligations.Iso112ValidateChecksTheCongruence :=
  fun _ _ _ _ _ hfits hop hv hb => pureValidate_checks (by omega) 2 hfits hop hv hb

/-- Under the PURE parameter ISO3736.C runs the rule of the pure system (R170). -/
theorem exec_iso3736C_pure {s : State} (hvar : s.cfg.iso3736 = .pure) :
    exec .iso3736C s = complete (strict (overCapacity s)
      (computeWith dec36 fun v => [enc37 (iso3736PureCheck v)]) s) s := by
  have harm : exec .iso3736C s =
      complete (strict (overCapacity s) (iso3736Compute s.cfg.iso3736) s) s := rfl
  rw [harm, hvar]
  rfl

/-- Under the PURE parameter ISO3736.V runs the rule of the pure system (R171). -/
theorem exec_iso3736V_pure {s : State} (hvar : s.cfg.iso3736 = .pure) :
    exec .iso3736V s = complete (permissive (overCapacity s)
      (validateCheckWith dec36 dec37 fun v c => decide ((pureRun v 37 36 + c) % 37 = 1)) s) s := by
  have harm : exec .iso3736V s =
      complete (permissive (overCapacity s) (iso3736Validate s.cfg.iso3736) s) s := rfl
  rw [harm, hvar]
  rfl

/-- Settles O47: MOD 37-36 as PURE is the pure system of radix 36 with the check values 0 to 36. -/
theorem iso3736PureComputeSolvesTheCongruence : Obligations.Iso3736PureComputeSolvesTheCongruence := by
  intro s v hwf hvar hfits hv
  rw [exec_iso3736C_pure hvar]
  exact pureCompute_completes (n := 36) (by omega) 36 enc37 hwf hfits hv

/-- Settles O48: the same system, the last character read with DEC37. -/
theorem iso3736PureValidateChecksTheCongruence : Obligations.Iso3736PureValidateChecksTheCongruence := by
  intro s chars b v c hvar hfits hop hv hb
  rw [exec_iso3736V_pure hvar]
  exact pureValidate_checks (by omega) 36 hfits hop hv hb

end Sys2Proof.Machine

/-! PROOFS. 45_base58check.md: the text of a payload and its length (R193 to R197), the checks of the
decoder (R198, R199), and that each command undoes the other (R202, R204). -/

namespace Sys2Proof.Machine

/-! ### A strict command and its rule (40_common_operation.md R96, R99, R100) -/

theorem operand_ne_nil_iff {s : State} : operand s ≠ [] ↔ 1 ≤ s.ilen.toNat := by
  rw [← List.length_pos_iff, operand_length, Nat.succ_le_iff]

/-- A strict command whose operand fits delivers the output of its rule. -/
theorem strict_delivers {rule : List Byte → Except ErrorCode (List Byte)} {s : State} {out : List Byte}
    (hwf : s.cfg.wf) (hfits : s.ilen.toNat ≤ s.cfg.ibufMax) (hrule : rule (operand s) = .ok out)
    (hout : out.length ≤ s.cfg.obufMax) :
    ∃ t, complete (strict (overCapacity s) rule s) s = .next t ∧ hasOutput t out := by
  have hc : strict (overCapacity s) rule s = .ok out := by
    simp only [strict, overCapacity_of_le hfits, Bool.false_eq_true, if_false, hrule]
  rw [hc]
  exact complete_ok_of_fits hwf hout

/-- A strict command whose operand fits fails with the error of its rule. -/
theorem strict_fails {rule : List Byte → Except ErrorCode (List Byte)} {s : State} {e : ErrorCode}
    (hfits : s.ilen.toNat ≤ s.cfg.ibufMax) (hrule : rule (operand s) = .error e) :
    ∃ t, complete (strict (overCapacity s) rule s) s = .next t ∧ failedWith t (statusErr e) := by
  rw [overCapacity_of_le hfits]
  exact ⟨completeErr e s, complete_strict_of_error hrule, rfl, rfl⟩

/-- The result bytes of a strict command that succeeds are the output of its rule. -/
theorem rule_of_success {rule : List Byte → Except ErrorCode (List Byte)} {tooLong : Bool} {s t : State}
    (hwf : s.cfg.wf) (hrun : complete (strict tooLong rule s) s = .next t) (hok : t.status = 0x02) :
    rule (operand s) = .ok (resultBytes t) := by
  have hfails {e : ErrorCode} (hc : complete (.err e) s = .next t) : False := by
    obtain rfl := Host.Outcome.next.inj hc
    exact statusErr_ne_statusOk e hok
  rcases strict_cases tooLong rule s with ⟨-, hc⟩ | ⟨-, out, hrule, hc⟩ | ⟨-, e, -, hc⟩
  · exact (hfails (hc ▸ hrun)).elim
  · rw [hc] at hrun
    obtain ⟨hroom, rfl⟩ := completeOk_next hrun
    obtain ⟨-, -, -, -, hobuf⟩ := hwf
    have holen : (BitVec.ofNat 8 out.length).toNat = out.length := by
      rw [BitVec.toNat_ofNat]
      omega
    rw [hrule, resultBytes_redraw s _ holen.le, holen, List.take_length]
  · exact (hfails (hc ▸ hrun)).elim

/-! ### The numbers and the leading zeros of the statements -/

theorem positional_eq_bytesValue (data : List Byte) :
    positional 256 0 (data.map BitVec.toNat) = bytesValue data := by
  rw [positional_eq, zero_mul, zero_add, bytesValue]

/-- An encoder that has a byte for 0 alone turns leading zeros into leading copies of that byte. -/
theorem leadingCount_map {f : Nat → Byte} {b : Byte} {l : List Nat} (h : ∀ d ∈ l, f d = b ↔ d = 0) :
    leadingCount b (l.map f) = leadingZeros l := by
  induction l with
  | nil => rfl
  | cons d rest ih =>
    have ih := ih fun x hx => h x (List.mem_cons_of_mem d hx)
    have hd := h d List.mem_cons_self
    by_cases hzero : d = 0
    · subst hzero
      simp [leadingCount, leadingZeros, hd.mpr rfl, ← ih]
    · simp [leadingCount, leadingZeros, mt hd.mp hzero, hzero]

/-- The zero bytes of a byte string are its zero values. -/
theorem leadingZeros_bytes (data : List Byte) :
    leadingZeros (data.map BitVec.toNat) = leadingCount 0x00 data := by
  have hzero : ∀ d ∈ data.map BitVec.toNat, BitVec.ofNat 8 d = 0x00 ↔ d = 0 := fun d hd => by
    have hlt := toNat_mem_lt d hd
    rw [← BitVec.toNat_inj, BitVec.toNat_ofNat, Nat.mod_eq_of_lt hlt]
    rfl
  rw [← leadingCount_map hzero, map_ofNat_toNat]

theorem enc58_eq_one_iff {d : Nat} (h : d < 58) : enc58 d = 0x31 ↔ d = 0 := by
  rw [← BitVec.toNat_inj, enc58_toNat d h]
  show _ = 0x31 ↔ _
  split_ifs <;> omega

/-- The zero symbols of a text are its zero values. -/
theorem leadingZeros_symbols {chars : List Byte} {v : List Nat} (h : spells dec58 chars v) :
    leadingZeros v = leadingCount 0x31 chars := by
  obtain ⟨hlt, hchars⟩ := spells_dec58 h
  rw [← hchars, leadingCount_map fun d hd => enc58_eq_one_iff (hlt d hd)]

/-- The text in the statements' terms (R194, R195). -/
theorem textOf_eq_digits (data : List Byte) :
    textOf data = List.replicate (leadingCount 0x00 data) 0x31 ++
      (digits 58 (bytesValue data)).map enc58 := by
  rw [textOf_eq, textValues, leadingZeros_bytes, positional_eq_bytesValue, List.map_append,
    List.map_replicate, enc58_zero]

/-- Only one byte string has the number and the leading zeros of a text (R198). -/
theorem dataOf_eq_of_value {chars data : List Byte} {v : List Nat} (hv : spells dec58 chars v)
    (hvalue : bytesValue data = Nat.ofDigits 58 v.reverse)
    (hzeros : leadingCount 0x00 data = leadingCount 0x31 chars) : dataOf v = data := by
  have htext : textValues data = v := by
    calc textValues data
        = List.replicate (leadingZeros v) 0 ++ digits 58 (positional 58 0 v) := by
          rw [textValues, leadingZeros_bytes, hzeros, ← leadingZeros_symbols hv,
            positional_eq_bytesValue, hvalue, positional_eq 58, zero_mul, zero_add]
      _ = v := (canonical_split (by omega) (spells_dec58 hv).1).symm
  rw [← htext, dataOf_textValues]

/-! ### The two commands (R194, R198) -/

theorem encode58_eq_ok_iff {payload chars : List Byte} :
    encode58 payload = .ok chars ↔ payload ≠ [] ∧ chars = textOf (payload ++ suffix payload) := by
  by_cases h : payload = []
  · simp [encode58, h]
  · simp [encode58, h, eq_comm]

/-- On a text that is not empty and has values, the answer is that of the last two checks (R199). -/
theorem decode58_of_spells {chars : List Byte} {v : List Nat} (hne : chars ≠ [])
    (hv : spells dec58 chars v) : decode58 chars = stripSuffix (dataOf v) := by
  rw [decode58, if_neg hne, decodeAll_eq_some.mpr hv]

theorem stripSuffix_of_short {data : List Byte} (h : data.length < 4) :
    stripSuffix data = .error .tooShort := if_pos h

/-- B58C.ENC on a payload that is not empty and fits writes its text. -/
theorem exec_b58cEnc {s : State} (hwf : s.cfg.wf) (hfits : s.ilen.toNat ≤ s.cfg.ibufMax)
    (hne : operand s ≠ []) :
    ∃ t, exec .b58cEnc s = .next t ∧ hasOutput t (textOf (operand s ++ suffix (operand s))) := by
  have hrule := encode58_ok hne
  exact strict_delivers hwf hfits hrule (encode58_fits hwf ((operand_length s).trans_le hfits) hrule)

/-- B58C.DEC on a text that fits delivers the payload its rule answers. -/
theorem exec_b58cDec {s : State} {payload : List Byte} (hwf : s.cfg.wf)
    (hfits : s.ilen.toNat ≤ s.cfg.ibufMax) (hrule : decode58 (operand s) = .ok payload) :
    ∃ t, exec .b58cDec s = .next t ∧ hasOutput t payload :=
  strict_delivers hwf hfits hrule (decode58_fits hwf ((operand_length s).trans_le hfits) hrule)

theorem exec_b58cDec_fails {s : State} {e : ErrorCode} (hfits : s.ilen.toNat ≤ s.cfg.ibufMax)
    (hrule : decode58 (operand s) = .error e) :
    ∃ t, exec .b58cDec s = .next t ∧ failedWith t (statusErr e) :=
  strict_fails hfits hrule

/-! ### The statements -/

/-- Settles O54: the text of `n` bytes has at least `n` symbols and at most `n * 138 / 100 + 1`, and
payload and suffix are four bytes more than the payload. -/
theorem encodedLengthBounds : Obligations.EncodedLengthBounds := by
  intro s hwf hfits hlen
  obtain ⟨t, ht, hstatus, holen, -⟩ := exec_b58cEnc hwf hfits (operand_ne_nil_iff.mpr hlen)
  have hlower := length_le_textOf (operand s ++ suffix (operand s))
  have hupper := textOf_length_le (operand s ++ suffix (operand s))
  rw [List.length_append, operand_length, suffix_length, ← holen] at hlower hupper
  obtain ⟨-, -, -, hobuf, -⟩ := hwf
  exact ⟨t, ht, hstatus, by omega, hlower, hupper, by omega⟩

/-- Settles O56: the text written for a payload is the one text that decodes to it. -/
theorem encodeThenDecodeReturnsPayload : Obligations.EncodeThenDecodeReturnsPayload := by
  intro s t s' hwf hrun hok hwf' hop hfits
  obtain ⟨-, htext⟩ := encode58_eq_ok_iff.mp (rule_of_success hwf hrun hok)
  exact exec_b58cDec hwf' hfits (hop ▸ (decode58_eq_ok_iff _ _).mpr htext)

/-- Settles O57: a text that decodes to a payload is the one written for it. -/
theorem decodeThenEncodeReturnsText : Obligations.DecodeThenEncodeReturnsText := by
  intro s t s' hwf hrun hok holen hwf' hop hfits
  have htext := (decode58_eq_ok_iff _ _).mp (rule_of_success hwf hrun hok)
  have hne : operand s' ≠ [] := by
    rw [hop, ← List.length_pos_iff, resultBytes, bufferBytes_length]
    exact Nat.pos_of_ne_zero fun h => holen (BitVec.eq_of_toNat_eq h)
  rw [htext, ← hop]
  exact exec_b58cEnc hwf' hfits hne

/-- Settles O53: the digits are those of the base-58 loop on the number of payload and suffix. -/
theorem encodeWritesBase58OfPayloadAndSuffix : Obligations.EncodeWritesBase58OfPayloadAndSuffix := by
  intro s hwf hfits hlen
  obtain ⟨t, ht, hout⟩ := exec_b58cEnc hwf hfits (operand_ne_nil_iff.mpr hlen)
  rw [textOf_eq_digits] at hout
  exact ⟨t, _, ht, hout, fun d hd => digits_lt (by omega) hd, digits_head_ne_zero (by omega) _,
    ofDigits_digits_reverse (by omega) _⟩

/-- Settles O55: the byte string is the one the text decodes to, and its length and last four bytes
decide the answer. -/
theorem decodeChecksLengthThenSuffix : Obligations.DecodeChecksLengthThenSuffix := by
  intro s v data hwf hfits hlen hv hvalue hzeros
  have hrule : decode58 (operand s) = stripSuffix data := by
    rw [decode58_of_spells (operand_ne_nil_iff.mpr hlen) hv, dataOf_eq_of_value hv hvalue hzeros]
  refine ⟨fun hshort => ?_, fun p x hdata hx hsuffix => ?_, fun p x hdata hx hsuffix => ?_⟩
  · exact exec_b58cDec_fails hfits (hrule.trans (stripSuffix_of_short hshort))
  · rw [hdata, stripSuffix_append p x hx, if_neg hsuffix] at hrule
    exact exec_b58cDec_fails hfits hrule
  · rw [hdata, stripSuffix_append p x hx, if_pos hsuffix] at hrule
    exact exec_b58cDec hwf hfits hrule

end Sys2Proof.Machine

/-! PROOFS. 46_sha256.md: the padding of a message (R213), its cut into whole blocks (R214), and the
length of the digest (R218). -/

namespace Sys2Proof.Machine

/-! ### The big-endian representation (R213; 20_memory.md R48) -/

@[simp] theorem bigEndian_length (n x : Nat) : (bigEndian n x).length = n := by
  induction n generalizing x with
  | zero => rfl
  | succ n ih => rw [bigEndian, List.length_append, ih, List.length_singleton]

/-- The last byte of a big-endian number is its digit of weight 1. -/
theorem bytesValue_append_singleton (data : List Byte) (b : Byte) :
    bytesValue (data ++ [b]) = b.toNat + 256 * bytesValue data := by
  rw [bytesValue, List.map_append, List.map_singleton, List.reverse_append, List.reverse_singleton,
    List.singleton_append, Nat.ofDigits_cons, bytesValue]

/-- `n` bytes hold a number modulo `256 ^ n`. -/
theorem bytesValue_bigEndian (n x : Nat) : bytesValue (bigEndian n x) = x % 256 ^ n := by
  induction n generalizing x with
  | zero => rw [pow_zero, Nat.mod_one]; rfl
  | succ n ih =>
    calc bytesValue (bigEndian (n + 1) x)
        = x % 256 + 256 * (x / 256 % 256 ^ n) := by
          rw [bigEndian, bytesValue_append_singleton, ih, BitVec.toNat_ofNat]
      _ = x % 256 ^ (n + 1) := by rw [pow_succ', Nat.mod_mul]

theorem bytesValue_bigEndian_of_lt {n x : Nat} (h : x < 256 ^ n) : bytesValue (bigEndian n x) = x := by
  rw [bytesValue_bigEndian, Nat.mod_eq_of_lt h]

/-! ### The zero bytes of the padding (R213) -/

/-- Message, 0x80 and the zero bytes leave 8 bytes of the last block for the bit length. -/
theorem shaPadZeros_fill (l : Nat) : (l + 1 + shaPadZeros l) % 64 = 56 := by
  rw [shaPadZeros]; omega

/-- Fewer zero bytes do not reach that place: they are fewer than 64, so two counts that reach it
are the same. -/
theorem shaPadZeros_least {l k : Nat} (h : k < shaPadZeros l) : (l + 1 + k) % 64 ≠ 56 := by
  have hlt : shaPadZeros l < 64 := Nat.mod_lt _ (by omega)
  have hfill := shaPadZeros_fill l
  omega

theorem shaPad_length (m : List Byte) :
    (shaPad m).length = m.length + 1 + shaPadZeros m.length + 8 := by
  simp only [shaPad, List.length_append, List.length_singleton, List.length_replicate, bigEndian_length]

/-- The padded message is a whole number of blocks (R214). -/
theorem shaPad_length_mod (m : List Byte) : (shaPad m).length % 64 = 0 := by
  have hfill := shaPadZeros_fill m.length
  rw [shaPad_length]
  omega

/-! ### The statement -/

/-- Settles O52: the zero bytes are the least number that leaves room for the bit length in the last
block, and a bit length below `2 ^ 64 = 256 ^ 8` is the number its eight bytes hold. -/
theorem shaPaddingAndDigestLength : Obligations.ShaPaddingAndDigestLength := by
  intro m hlen
  have hvalue : bytesValue (bigEndian 8 (8 * m.length)) = 8 * m.length :=
    bytesValue_bigEndian_of_lt (hlen.trans_eq (by norm_num))
  exact ⟨sha256_length m, shaPad_length_mod m, shaPadZeros m.length, bigEndian 8 (8 * m.length), rfl,
    bigEndian_length _ _, hvalue, shaPadZeros_fill m.length, fun _ => shaPadZeros_least⟩

end Sys2Proof.Machine

/-! PROOFS. 60_exceptions.md: no step stops on well-formed parameters (R239), and an illegal command byte
completes with E_ILLEGAL_CMD (R236, R238). 70_reset_and_hazards.md: reset in any phase (R260, R264), and
the commands on the empty sequence (R265). -/

namespace Sys2Proof.Machine

/-! ### The step stops on nothing but its parameters (60_exceptions.md R239; 93 P3) -/

/-- The unit's turn with an illegal byte in flight takes the error (R236, R238). -/
theorem unitTurn_of_decode_error {s : State} {e : DecodeError} (hbusy : busy s = true)
    (hd : decode s.cmd = .error e) : unitTurn s = .next (completeErr .illegalCmd s) := by
  rw [unitTurn, if_pos hbusy, hd]

/-- The unit's turn never stops: it waits, takes the error of an illegal byte, or runs a command, and none
faults (R92, R197). -/
theorem unitTurn_total {s : State} (hwf : s.cfg.wf) : ∃ t, unitTurn s = .next t := by
  cases hbusy : busy s with
  | false => exact ⟨s, unitTurn_of_idle hbusy⟩
  | true =>
    cases hd : decode s.cmd with
    | error e => exact ⟨_, unitTurn_of_decode_error hbusy hd⟩
    | ok i =>
      obtain ⟨t, ht⟩ := exec_next i hwf
      exact ⟨t, (unitTurn_of_decode hbusy hd).trans ht⟩

/-- Parameters that break R6 are refused before any turn is taken (93 P3). -/
theorem step_of_not_wf {s : State} (h : ¬ s.cfg.wf) : step s = .refused .badConfiguration := if_neg h

/-- Settles O10: the turn at the head of the schedule is a host access, which is total, or the unit's,
which is total on well-formed parameters. -/
theorem stepStopsOnlyOnIllFormedConfiguration : Obligations.StepStopsOnlyOnIllFormedConfiguration := by
  refine ⟨fun s hwf => ?_, fun s => step_of_not_wf⟩
  have hunit (hturn : s.schedule = [] ∨ s.schedule.head? = some .unit) : ∃ t, step s = .next t :=
    step_unit hwf hturn ▸ unitTurn_total (s := afterHead s) hwf
  rcases hs : s.schedule with _ | ⟨turn, rest⟩
  · exact hunit (.inl hs)
  · cases turn with
    | host access => exact ⟨_, step_host hwf hs⟩
    | unit => exact hunit (.inr (by rw [hs]; rfl))

/-! ### An illegal command byte (R236, R238) -/

/-- Settles O7: the write is a command start like any other, and the unit's turn then decodes CMD and
takes the error, which redraws OBUF with nothing. -/
theorem illegalByteCompletesWithIllegalCmd : Obligations.IllegalByteCompletesWithIllegalCmd := by
  intro s v e rest hwf hidle hs hd
  obtain ⟨u, hstart, hcmd, hstatus, -, hilen, hwlen, hcfg, hschedule, -, -, hinput⟩ :=
    commandStart s v (.unit :: rest) hwf hidle hs
  have hturn : step u = .next (completeErr .illegalCmd (afterHead u)) := by
    rw [step_unit (hcfg ▸ hwf) (.inr (by rw [hschedule]; rfl))]
    exact unitTurn_of_decode_error (s := afterHead u) (busy_of_status hstatus) (hcmd ▸ hd)
  have htail : u.schedule.tail = rest := by rw [hschedule]; rfl
  exact ⟨u, _, hstart, hcmd, hstatus, hturn, hcmd, rfl, rfl, outputEndsAt_redraw (out := []) rfl le_rfl,
    hilen, hwlen, htail, fun a ha => (bufferByte_completeErr .illegalCmd (afterHead u) ha).trans (hinput a ha)⟩

/-! ### Reset (70_reset_and_hazards.md R260, R264) -/

@[simp] theorem busy_resetUnit (s : State) : busy (resetUnit s) = false := by
  rw [busy, resetUnit_status]
  decide

/-- Settles O11: the host's turn is taken in every phase, and reset reads nothing of the registers, the
buffers or the flight. -/
theorem resetClearsEveryPhase : Obligations.ResetClearsEveryPhase := by
  intro s rest hwf hs
  exact ⟨_, step_host hwf hs, rfl, rfl, rfl, rfl, rfl, fun _ => rfl, busy_resetUnit _, rfl, rfl⟩

/-! ### The empty sequence (70_reset_and_hazards.md R265) -/

theorem operand_eq_nil {s : State} (h : s.ilen = 0) : operand s = [] := by
  rw [operand, h]
  rfl

/-- A compute rule on the empty operand delivers its output for no values: the seed's (R265). -/
theorem strict_completes_of_empty {s : State} {tooLong : Bool} {dec : Byte → Option Nat}
    {out : List Nat → List Byte} {seed : List Byte} (hwf : s.cfg.wf) (hilen : s.ilen = 0)
    (hroom : tooLong = false) (hseed : out [] = seed) (hlen : seed.length ≤ 4) :
    ∃ t, complete (strict tooLong (computeWith dec out) s) s = .next t ∧ hasOutput t seed := by
  subst hseed
  have hspells : spells dec (operand s) [] := by rw [operand_eq_nil hilen]; rfl
  exact strict_completes hwf hroom hspells hlen

/-- WMOD11's sum over no digits is empty, whatever the weights (R119). -/
theorem wmod11Check_nil (rightToLeft : Bool) (w : List Nat) : wmod11Check rightToLeft w [] = 0 := by
  cases rightToLeft <;> cases w <;> rfl

/-- WMOD11.C on the empty operand: no weight is needed, and the check value is 0 (R120, R265). -/
theorem wmod11Compute_of_empty (rightToLeft : Bool) {s : State} (hwf : s.cfg.wf) (hilen : s.ilen = 0)
    (hwlen : s.wlen.toNat ≤ s.cfg.wbufMax) :
    ∃ t, complete (wmod11Compute rightToLeft s) s = .next t ∧ hasOutput t [0x30] := by
  have hroom : overWeights s s.ilen.toNat = false := by
    rw [hilen]
    exact overWeights_eq_false.mpr ⟨by simp [hilen], hwlen, Nat.zero_le _⟩
  exact strict_completes_of_empty hwf hilen hroom (by rw [wmod11Check_nil]; rfl) (by decide)

/-- Settles O25: the compute commands deliver the check value of no values, the validate commands want a
check character, and both Base58Check commands test for the empty operand first. -/
theorem emptyOperandResults : Obligations.EmptyOperandResults := by
  intro s hwf hilen hwlen hvar
  have hzero : s.ilen.toNat = 0 := by rw [hilen]; rfl
  have hfits : s.ilen.toNat ≤ s.cfg.ibufMax := hzero ▸ Nat.zero_le _
  have hroom := overCapacity_of_le hfits
  refine ⟨fun p hp => ?_, fun i hi => ?_, fun i hi => ?_⟩
  · obtain ⟨i, seed⟩ := p
    cases i <;> simp at hp <;> subst hp
    case wmod11CL => exact wmod11Compute_of_empty false hwf hilen hwlen
    case wmod11CR => exact wmod11Compute_of_empty true hwf hilen hwlen
    case iso3736C =>
      rw [exec_iso3736C_pure hvar]
      exact strict_completes_of_empty hwf hilen hroom rfl (by decide)
    all_goals exact strict_completes_of_empty hwf hilen hroom rfl (by decide)
  · obtain ⟨⟨i, dec, decCheck⟩, hmem, rfl⟩ := List.mem_map.mp hi
    obtain ⟨t, ht, holen, -, hnot⟩ := permissiveCommandsGiveVerdicts.1 i dec decCheck hmem s
    exact ⟨t, ht, hnot (.inr (.inl (by split <;> omega))), holen⟩
  · simp only [List.mem_cons, List.not_mem_nil, or_false] at hi
    rcases hi with rfl | rfl
    · exact strict_fails (e := .empty) (rule := encode58) hfits (by rw [operand_eq_nil hilen]; rfl)
    · exact strict_fails (e := .empty) (rule := decode58) hfits (by rw [operand_eq_nil hilen]; rfl)

end Sys2Proof.Machine
